-- ==== Sys2Proof/Word.lean ====
section
/-! DEFINITION. The word types: everything the block moves is a byte, and its widest operand is 16 bits. -/

namespace Sys2Proof

/-- A byte on the bus: 8 bits, bit 7 first on the wire (R46). -/
abbrev Byte := BitVec 8

/-- A host operand latch A or B: 16 bits, unsigned (R11). -/
abbrev Half := BitVec 16

end Sys2Proof
end

