-- ==== Sys2Proof/Config.lean ====
section
/-! DEFINITION. What an instance of the block fixes (00_scope.md R5) and the values the spec leaves free. -/

namespace Sys2Proof

/-- NUM_PAGES (R5): pages in the main array. -/
def numPages : Nat := 4096

/-- PAGES_PER_BLOCK (R5). -/
def pagesPerBlock : Nat := 8

/-- NUM_BLOCKS (R5). -/
def numBlocks : Nat := 512

/-- PAGE_SIZE (R5): 528 "in standard addressing mode", 512 "in binary mode" (R41). -/
inductive PageSize where
  | standard
  | binary
  deriving DecidableEq, Repr

/-- Bytes per page and per buffer. -/
def PageSize.bytes : PageSize → Nat
  | .standard => 528
  | .binary => 512

/-- The implementation parameters of R5. CHIP_ERASE_EN and POLL_MODE are held in the CFG latch
instead (R21). Delays are in microseconds. -/
structure Params where
  pageSize : PageSize
  pollInterval : Nat
  fill : Byte
  dummy : Byte
  tResetHold : Nat
  tResetRec : Nat
  tDpdEnter : Nat
  tDpdExit : Nat
  tCsHigh : Nat
  hasXferErr : Bool
  opStatus : Byte
  opId : Byte
  opBuf1Write : Byte
  opBuf2Write : Byte
  opBuf1Read : Byte
  opBuf2Read : Byte
  opPageRead : Byte
  opContReadLow : Byte
  opContReadHigh : Byte
  opB1ToPageE : Byte
  opB2ToPageE : Byte
  opB1ToPageNE : Byte
  opB2ToPageNE : Byte
  opPageToB1 : Byte
  opPageToB2 : Byte
  opCompareB1 : Byte
  opCompareB2 : Byte
  opPageErase : Byte
  opBlockErase : Byte
  opSectorErase : Byte
  opChipErase : List Byte
  opDpd : Byte
  opResume : Byte
  deriving DecidableEq, Repr

/-- The defaults of R5. PRESUMED: the spec marks every opcode value and the four T_* delays
"[from general knowledge, not in source]" (log 20). -/
def Params.default : Params where
  pageSize := .standard
  pollInterval := 0
  fill := 0x00
  dummy := 0x00
  tResetHold := 10
  tResetRec := 1
  tDpdEnter := 100
  tDpdExit := 100
  tCsHigh := 0
  hasXferErr := false
  opStatus := 0xD7
  opId := 0x9F
  opBuf1Write := 0x84
  opBuf2Write := 0x87
  opBuf1Read := 0xD1
  opBuf2Read := 0xD3
  opPageRead := 0xD2
  opContReadLow := 0x03
  opContReadHigh := 0x0B
  opB1ToPageE := 0x83
  opB2ToPageE := 0x86
  opB1ToPageNE := 0x88
  opB2ToPageNE := 0x89
  opPageToB1 := 0x53
  opPageToB2 := 0x55
  opCompareB1 := 0x60
  opCompareB2 := 0x61
  opPageErase := 0x81
  opBlockErase := 0x50
  opSectorErase := 0x7C
  opChipErase := [0xC7, 0x94, 0x80, 0x9A]
  opDpd := 0xB9
  opResume := 0xAB

/-- An error code of the host platform, passed on unchanged (R212). DESIGN CHOICE: the spec gives it
no width, so it is a natural number (log 13). -/
abbrev ErrCode := Nat

/-- FREE VALUE: the byte the environment answers to a transfer that no script covers (R26, U7 to U12;
log 4). Applied to the counter of draws. -/
opaque Config.freeByte : Nat → Byte

/-- FREE VALUE: whether such a transfer fails, and with which code, in an instance with
HAS_XFER_ERR = 1 (R212; log 4). -/
opaque Config.freeXferError : Nat → Option ErrCode

/-- FREE VALUE: whether a pin or delay primitive that no script covers fails, in an instance with
HAS_XFER_ERR = 1 (R212; log 4, log 9). -/
opaque Config.freeLineError : Nat → Option ErrCode

end Sys2Proof
end

