-- ==== Sys2Proof/Syntax.lean ====
section
/-! DEFINITION. The host operations (30_encoding.md R88), the bus commands they send (R83) and the
pseudo-operations (R90). -/

namespace Sys2Proof

/-- Buffer selector (R12, D17): the latch BUF holds 0 for Buffer 1 and 1 for Buffer 2. -/
inductive Buffer where
  | buffer1
  | buffer2
  deriving DecidableEq, Repr

/-- The operations of R88 with their operands, and the reserved OPSEL values (R87). A row of the
opcode table that differs from another only in BUF or in the sector layout is a value of an operand. -/
inductive Instr where
  | init (cfg : BitVec 2)
  | release
  | streamXfer (tx : Byte)
  | endStream
  | statusRead
  | waitReady
  | idRead
  | bufWrite (buf : Buffer) (offset : Half)
  | bufRead (buf : Buffer) (offset : Half)
  | pageRead (page offset : Half)
  | contReadLow (page offset : Half)
  | contReadHigh (page offset : Half)
  | bufToPageE (buf : Buffer) (page : Half)
  | bufToPageNE (buf : Buffer) (page : Half)
  | pageToBuf (page : Half) (buf : Buffer)
  | compare (page : Half) (buf : Buffer)
  | pageErase (page : Half)
  | blockErase (block : Half)
  | sectorErase (sector : Half)
  | chipErase
  | deepPowerDown
  | resume
  | hardReset
  | reserved (opsel : BitVec 5)
  deriving DecidableEq, Repr

/-- What the host puts on the operation port (D1, R11): the values the operand latches take. -/
structure Request where
  opsel : BitVec 5
  a : Half
  b : Half
  buf : BitVec 1
  txd : Byte
  cfgIn : BitVec 2
  deriving DecidableEq, Repr

/-- The commands that have an opcode of their own on the bus (R83). -/
inductive Command where
  | status
  | id
  | bufWrite (buf : Buffer)
  | bufRead (buf : Buffer)
  | pageRead
  | contReadLow
  | contReadHigh
  | bufToPageE (buf : Buffer)
  | bufToPageNE (buf : Buffer)
  | pageToBuf (buf : Buffer)
  | compare (buf : Buffer)
  | pageErase
  | blockErase
  | sectorErase
  | chipErase
  | deepPowerDown
  | resume
  deriving DecidableEq, Repr

/-- Every command, in the order of the parameters of R5. -/
def Command.all : List Command :=
  [.status, .id, .bufWrite .buffer1, .bufWrite .buffer2, .bufRead .buffer1, .bufRead .buffer2,
   .pageRead, .contReadLow, .contReadHigh, .bufToPageE .buffer1, .bufToPageE .buffer2,
   .bufToPageNE .buffer1, .bufToPageNE .buffer2, .pageToBuf .buffer1, .pageToBuf .buffer2,
   .compare .buffer1, .compare .buffer2, .pageErase, .blockErase, .sectorErase, .chipErase,
   .deepPowerDown, .resume]

/-- The pseudo-operations of R90. -/
inductive Pseudo where
  | streamRead
  | streamWrite (v : Byte)
  | streamReadN (n : Nat)
  | streamWriteN (vs : List Byte)
  | deselect
  deriving DecidableEq, Repr

/-- Why a list of bytes is no frame of the block (R70, R87). -/
inductive FrameError where
  /-- no byte at all: an F0 operation sends no opcode -/
  | empty
  /-- the first byte is no opcode parameter -/
  | unknownOpcode
  /-- the number of bytes is not the one the opcode fixes (R74) -/
  | wrongLength
  /-- a bit that no field covers is set (R71, R87) -/
  | nonzeroPad
  /-- a sector address no operand value produces (R80) -/
  | noSuchSector
  deriving DecidableEq, Repr

end Sys2Proof
end

