-- ==== Sys2Proof/WellFormed.lean ====
section
/-! DEFINITION. Well-formed operations: the operand ranges of 10_state.md R11 and 30_encoding.md R91,
which are the caller's duty (R13). -/

namespace Sys2Proof

/-- Page: A in 0 to 4095. -/
def pageInRange (page : Half) : Bool := decide (page.toNat < numPages)

/-- Offset: B in 0 to PAGE_SIZE-1. -/
def offsetInRange (p : Params) (offset : Half) : Bool := decide (offset.toNat < p.pageSize.bytes)

/-- Block: A in 0 to 511. -/
def blockInRange (block : Half) : Bool := decide (block.toNat < numBlocks)

/-- Sector: A in 1 to 15; 0 is not an alias of anything (D28). -/
def sectorInRange (sector : Half) : Bool := decide (1 ≤ sector.toNat) && decide (sector.toNat ≤ 15)

/-- Reserved OPSEL values are 0x17 to 0x1F (R87). -/
def opselReserved (opsel : BitVec 5) : Bool := decide (0x17 ≤ opsel.toNat)

/-- Every operand in its range for an instance with parameters `p`. -/
def Instr.wellFormed (p : Params) : Instr → Bool
  | .init _ => true
  | .release => true
  | .streamXfer _ => true
  | .endStream => true
  | .statusRead => true
  | .waitReady => true
  | .idRead => true
  | .bufWrite _ offset => offsetInRange p offset
  | .bufRead _ offset => offsetInRange p offset
  | .pageRead page offset => pageInRange page && offsetInRange p offset
  | .contReadLow page offset => pageInRange page && offsetInRange p offset
  | .contReadHigh page offset => pageInRange page && offsetInRange p offset
  | .bufToPageE _ page => pageInRange page
  | .bufToPageNE _ page => pageInRange page
  | .pageToBuf page _ => pageInRange page
  | .compare page _ => pageInRange page
  | .pageErase page => pageInRange page
  | .blockErase block => blockInRange block
  | .sectorErase sector => sectorInRange sector
  | .chipErase => true
  | .deepPowerDown => true
  | .resume => true
  | .hardReset => true
  | .reserved opsel => opselReserved opsel

end Sys2Proof
end

