-- ==== Sys2Proof/Decode.lean ====
section
/-! DEFINITION. The two encodings of 30_encoding.md: the host operation port (R88, R93) and the frames on
the bus (R70 to R86), each with its decoder, and the pseudo-operations' expansion (R90). -/

namespace Sys2Proof

/-! ### The host operation port -/

/-- The latch value BUF to the buffer it names (D17). -/
def bufferOfBit (buf : BitVec 1) : Buffer := if buf = 0 then .buffer1 else .buffer2

/-- The latch value BUF for a buffer (D17). -/
def bitOfBuffer : Buffer → BitVec 1
  | .buffer1 => 0
  | .buffer2 => 1

/-- Decoding the host port is total (R93): every OPSEL names an operation of R88 or is reserved.
Operand latches the operation does not use are ignored (R87). -/
def decodeRequest (r : Request) : Instr :=
  match r.opsel.toNat with
  | 0x00 => .init r.cfgIn
  | 0x01 => .release
  | 0x02 => .streamXfer r.txd
  | 0x03 => .endStream
  | 0x04 => .statusRead
  | 0x05 => .waitReady
  | 0x06 => .idRead
  | 0x07 => .bufWrite (bufferOfBit r.buf) r.b
  | 0x08 => .bufRead (bufferOfBit r.buf) r.b
  | 0x09 => .pageRead r.a r.b
  | 0x0A => .contReadLow r.a r.b
  | 0x0B => .contReadHigh r.a r.b
  | 0x0C => .bufToPageE (bufferOfBit r.buf) r.a
  | 0x0D => .bufToPageNE (bufferOfBit r.buf) r.a
  | 0x0E => .pageToBuf r.a (bufferOfBit r.buf)
  | 0x0F => .compare r.a (bufferOfBit r.buf)
  | 0x10 => .pageErase r.a
  | 0x11 => .blockErase r.a
  | 0x12 => .sectorErase r.a
  | 0x13 => .chipErase
  | 0x14 => .deepPowerDown
  | 0x15 => .resume
  | 0x16 => .hardReset
  | _ => .reserved r.opsel

/-- A request with the given OPSEL and every operand latch 0. -/
def plainRequest (opsel : BitVec 5) : Request :=
  { opsel := opsel, a := 0, b := 0, buf := 0, txd := 0, cfgIn := 0 }

/-- The request for an operation (R88); operands it does not use are sent as 0. -/
def encodeRequest : Instr → Request
  | .init cfg => { plainRequest 0x00 with cfgIn := cfg }
  | .release => plainRequest 0x01
  | .streamXfer tx => { plainRequest 0x02 with txd := tx }
  | .endStream => plainRequest 0x03
  | .statusRead => plainRequest 0x04
  | .waitReady => plainRequest 0x05
  | .idRead => plainRequest 0x06
  | .bufWrite buf offset => { plainRequest 0x07 with buf := bitOfBuffer buf, b := offset }
  | .bufRead buf offset => { plainRequest 0x08 with buf := bitOfBuffer buf, b := offset }
  | .pageRead page offset => { plainRequest 0x09 with a := page, b := offset }
  | .contReadLow page offset => { plainRequest 0x0A with a := page, b := offset }
  | .contReadHigh page offset => { plainRequest 0x0B with a := page, b := offset }
  | .bufToPageE buf page => { plainRequest 0x0C with buf := bitOfBuffer buf, a := page }
  | .bufToPageNE buf page => { plainRequest 0x0D with buf := bitOfBuffer buf, a := page }
  | .pageToBuf page buf => { plainRequest 0x0E with buf := bitOfBuffer buf, a := page }
  | .compare page buf => { plainRequest 0x0F with buf := bitOfBuffer buf, a := page }
  | .pageErase page => { plainRequest 0x10 with a := page }
  | .blockErase block => { plainRequest 0x11 with a := block }
  | .sectorErase sector => { plainRequest 0x12 with a := sector }
  | .chipErase => plainRequest 0x13
  | .deepPowerDown => plainRequest 0x14
  | .resume => plainRequest 0x15
  | .hardReset => plainRequest 0x16
  | .reserved opsel => plainRequest opsel

/-! ### The address encoder -/

/-- The low 8 bits of a natural number (00_scope.md section 5, R75). -/
def trunc8 (v : Nat) : Byte := BitVec.ofNat 8 v

/-- Page-and-offset address (R76). -/
def addrPO (page offset : Nat) : List Byte :=
  [trunc8 (page >>> 6), trunc8 ((page <<< 2) ||| (offset >>> 8)), trunc8 (offset &&& 0xFF)]

/-- Page-only address (R78). -/
def addrP (page : Nat) : List Byte := addrPO page 0

/-- Offset-only address: the unused page bits are sent as zero (R78). -/
def addrO (offset : Nat) : List Byte := addrPO 0 offset

/-- Block address (R79). -/
def addrB (block : Nat) : List Byte := [trunc8 (block >>> 3), trunc8 (block <<< 5), 0]

/-- Sector address (R80): the values 10 and 11 take the special layout. -/
def addrS (sector : Nat) : List Byte :=
  if sector = 10 ∨ sector = 11 then [0, trunc8 ((sector &&& 1) <<< 4), 0]
  else [trunc8 (sector <<< 1), 0, 0]

/-- The address bytes as one 24-bit number, byte0 most significant (R47, R76). -/
def addr24 (b0 b1 b2 : Byte) : Nat := (b0.toNat <<< 16) ||| (b1.toNat <<< 8) ||| b2.toNat

/-- A24[21:10] (R76). -/
def pageField (a24 : Nat) : Nat := (a24 >>> 10) % 4096

/-- A24[9:0] (R76). -/
def offsetField (a24 : Nat) : Nat := a24 % 1024

/-! ### The opcode map -/

/-- The first (for all but CHIP_ERASE the only) opcode byte of a command (R83, R86). -/
def Params.opcode (p : Params) : Command → Byte
  | .status => p.opStatus
  | .id => p.opId
  | .bufWrite .buffer1 => p.opBuf1Write
  | .bufWrite .buffer2 => p.opBuf2Write
  | .bufRead .buffer1 => p.opBuf1Read
  | .bufRead .buffer2 => p.opBuf2Read
  | .pageRead => p.opPageRead
  | .contReadLow => p.opContReadLow
  | .contReadHigh => p.opContReadHigh
  | .bufToPageE .buffer1 => p.opB1ToPageE
  | .bufToPageE .buffer2 => p.opB2ToPageE
  | .bufToPageNE .buffer1 => p.opB1ToPageNE
  | .bufToPageNE .buffer2 => p.opB2ToPageNE
  | .pageToBuf .buffer1 => p.opPageToB1
  | .pageToBuf .buffer2 => p.opPageToB2
  | .compare .buffer1 => p.opCompareB1
  | .compare .buffer2 => p.opCompareB2
  | .pageErase => p.opPageErase
  | .blockErase => p.opBlockErase
  | .sectorErase => p.opSectorErase
  | .chipErase => p.opChipErase.headD 0
  | .deepPowerDown => p.opDpd
  | .resume => p.opResume

/-- The command whose opcode a byte is, for a listener on the bus (R74). -/
def Params.commandOf (p : Params) (op : Byte) : Option Command :=
  Command.all.find? fun k => p.opcode k == op

/-- R5's conditions on an instance: OP_CHIP_ERASE is a list of 1 or more bytes, and the first bytes of
all opcodes are pairwise distinct. -/
abbrev Params.Legal (p : Params) : Prop :=
  p.opChipErase ≠ [] ∧ (Command.all.map p.opcode).Nodup

/-! ### Frames -/

/-- The bytes an operation sends between the chip-select pulse and the point where it streams,
triggers or ends (R70, R71, R72). An F0 operation sends none. -/
def busFrame (p : Params) : Instr → List Byte
  | .init _ => []
  | .release => []
  | .streamXfer _ => []
  | .endStream => []
  | .statusRead => [p.opcode .status]
  | .waitReady => []
  | .idRead => [p.opcode .id]
  | .bufWrite buf offset => p.opcode (.bufWrite buf) :: addrO offset.toNat
  | .bufRead buf offset => p.opcode (.bufRead buf) :: addrO offset.toNat
  | .pageRead page offset =>
      p.opcode .pageRead :: addrPO page.toNat offset.toNat ++ [p.dummy, p.dummy, p.dummy, p.dummy]
  | .contReadLow page offset => p.opcode .contReadLow :: addrPO page.toNat offset.toNat
  | .contReadHigh page offset =>
      p.opcode .contReadHigh :: addrPO page.toNat offset.toNat ++ [p.dummy]
  | .bufToPageE buf page => p.opcode (.bufToPageE buf) :: addrP page.toNat
  | .bufToPageNE buf page => p.opcode (.bufToPageNE buf) :: addrP page.toNat
  | .pageToBuf page buf => p.opcode (.pageToBuf buf) :: addrP page.toNat
  | .compare page buf => p.opcode (.compare buf) :: addrP page.toNat
  | .pageErase page => p.opcode .pageErase :: addrP page.toNat
  | .blockErase block => p.opcode .blockErase :: addrB block.toNat
  | .sectorErase sector => p.opcode .sectorErase :: addrS sector.toNat
  | .chipErase => p.opChipErase
  | .deepPowerDown => [p.opcode .deepPowerDown]
  | .resume => [p.opcode .resume]
  | .hardReset => []
  | .reserved _ => []

/-- An F1 frame has no byte after the opcode. -/
def noOperands (i : Instr) : List Byte → Except FrameError Instr
  | [] => .ok i
  | _ => .error .wrongLength

/-- A page-and-offset address: bits 23:22 are zero (R71). -/
def pageAndOffset (mk : Half → Half → Instr) (b0 b1 b2 : Byte) : Except FrameError Instr :=
  let a := addr24 b0 b1 b2
  if a >>> 22 = 0 then
    .ok (mk (BitVec.ofNat 16 (pageField a)) (BitVec.ofNat 16 (offsetField a)))
  else .error .nonzeroPad

/-- A page-only address: bits 23:22 and 9:0 are zero (R71). -/
def pageOnly (mk : Half → Instr) : List Byte → Except FrameError Instr
  | [b0, b1, b2] =>
    let a := addr24 b0 b1 b2
    if a >>> 22 = 0 ∧ offsetField a = 0 then .ok (mk (BitVec.ofNat 16 (pageField a)))
    else .error .nonzeroPad
  | _ => .error .wrongLength

/-- An offset-only address: bits 23:10 are zero (R71). -/
def offsetOnly (mk : Half → Instr) : List Byte → Except FrameError Instr
  | [b0, b1, b2] =>
    let a := addr24 b0 b1 b2
    if a >>> 10 = 0 then .ok (mk (BitVec.ofNat 16 (offsetField a))) else .error .nonzeroPad
  | _ => .error .wrongLength

/-- A block address: bits 23:22 and 12:0 are zero (R71). -/
def blockAddress : List Byte → Except FrameError Instr
  | [b0, b1, b2] =>
    let a := addr24 b0 b1 b2
    if a >>> 22 = 0 ∧ a % 8192 = 0 then .ok (.blockErase (BitVec.ofNat 16 (a >>> 13)))
    else .error .nonzeroPad
  | _ => .error .wrongLength

/-- A sector address in either layout (R71, R80): byte0 = 0 is the special layout, whose bit 4 of byte1
tells 10 from 11; otherwise byte0 is the sector number shifted left by 1. -/
def sectorAddress : List Byte → Except FrameError Instr
  | [b0, b1, b2] =>
    if b2 ≠ 0 then .error .nonzeroPad
    else if b0 = 0 then
      if b1 = 0x00 then .ok (.sectorErase 10)
      else if b1 = 0x10 then .ok (.sectorErase 11)
      else .error .nonzeroPad
    else if b1 ≠ 0 ∨ b0.toNat % 2 ≠ 0 ∨ 32 ≤ b0.toNat then .error .nonzeroPad
    else if b0 = 0x14 ∨ b0 = 0x16 then .error .noSuchSector
    else .ok (.sectorErase (BitVec.ofNat 16 (b0.toNat >>> 1)))
  | _ => .error .wrongLength

/-- The operation whose frame starts with the opcode of `k` and goes on with `rest`. Don't-care bytes
may have any value (R72). -/
def decodeAfterOpcode (p : Params) (op : Byte) (rest : List Byte) : Command → Except FrameError Instr
  | .status => noOperands .statusRead rest
  | .id => noOperands .idRead rest
  | .bufWrite buf => offsetOnly (.bufWrite buf) rest
  | .bufRead buf => offsetOnly (.bufRead buf) rest
  | .pageRead =>
    match rest with
    | [b0, b1, b2, _, _, _, _] => pageAndOffset .pageRead b0 b1 b2
    | _ => .error .wrongLength
  | .contReadLow =>
    match rest with
    | [b0, b1, b2] => pageAndOffset .contReadLow b0 b1 b2
    | _ => .error .wrongLength
  | .contReadHigh =>
    match rest with
    | [b0, b1, b2, _] => pageAndOffset .contReadHigh b0 b1 b2
    | _ => .error .wrongLength
  | .bufToPageE buf => pageOnly (.bufToPageE buf) rest
  | .bufToPageNE buf => pageOnly (.bufToPageNE buf) rest
  | .pageToBuf buf => pageOnly (fun page => .pageToBuf page buf) rest
  | .compare buf => pageOnly (fun page => .compare page buf) rest
  | .pageErase => pageOnly .pageErase rest
  | .blockErase => blockAddress rest
  | .sectorErase => sectorAddress rest
  | .chipErase => if op :: rest = p.opChipErase then .ok .chipErase else .error .wrongLength
  | .deepPowerDown => noOperands .deepPowerDown rest
  | .resume => noOperands .resume rest

/-- The operation that sends a given frame, total on any bytes and rejecting by name. -/
def decodeFrame (p : Params) : List Byte → Except FrameError Instr
  | [] => .error .empty
  | op :: rest =>
    match p.commandOf op with
    | none => .error .unknownOpcode
    | some k => decodeAfterOpcode p op rest k

/-- The bytes of a frame whose bits, first byte most significant, are `w` (the numbering of
opcode_table.json's match and mask). -/
def frameOfWord (nbytes w : Nat) : List Byte :=
  (List.range nbytes).map fun k => trunc8 (w >>> (8 * (nbytes - 1 - k)))

/-- The operation of a table row, from the bits of its frame at the default opcodes. A row with no
frame (F0) has no bits and gives none (log 12). -/
def decodeTableWord (nbits w : Nat) : Option Instr :=
  match decodeFrame Params.default (frameOfWord (nbits / 8) w) with
  | .ok i => some i
  | .error _ => none

/-! ### Pseudo-operations -/

/-- R90's expansions into the operations of R88. -/
def Pseudo.expand (p : Params) : Pseudo → List Instr
  | .streamRead => [.streamXfer p.fill]
  | .streamWrite v => [.streamXfer v]
  | .streamReadN n => List.replicate n (.streamXfer p.fill)
  | .streamWriteN vs => vs.map .streamXfer
  | .deselect => [.endStream]

end Sys2Proof
end

