-- ==== Sys2Proof/Machine/State.lean ====
section
/-! DEFINITION. The state of the block, of the environment that answers it, and of the host that drives
it, as plain data, and the state right after block reset. -/

namespace Sys2Proof.Machine

/-- The sequencing state of R14. -/
inductive Fsm where
  | uninit
  | idle
  | framing
  | armedStream
  | busyWait
  | selectedBare
  deriving DecidableEq, Repr

/-- The response that ends an operation (R92). -/
inductive Response where
  | done
  | status (s : Byte)
  | id (m d0 d1 n : Byte)
  | bool (v : Bool)
  | byte (r : Byte)
  | disabled
  | xferError (code : ErrCode)
  deriving DecidableEq, Repr

/-- The events of the output trace (R52, D32). `true` is the level 1. -/
inductive Event where
  | pins (v : Bool)
  | cs (v : Bool)
  | rst (v : Bool)
  | wp (v : Bool)
  | xfer (tx rx : Byte)
  | delayUs (n : Nat)
  | resp (r : Response)
  deriving DecidableEq, Repr

/-- What follows when the synchroniser of an operation in progress returns: the operation responds
DONE (R124, R160), or is COMPARE and reads status once more (R170). -/
inductive Waiter where
  | done
  | compare
  deriving DecidableEq, Repr

/-- An error the model records. -/
inductive Fault where
  /-- R212: a transfer, pin or delay primitive reported this code. Recorded in `State.faults` by
  `transportAbort` and never cleared. Safe: it is a record beside a next state, since R212 gives the
  operation a response and a way on; no step ends in it. -/
  | transportError (code : ErrCode)
  deriving DecidableEq, Repr

/-- Why an operation is given no meaning (R213). -/
inductive Refusal where
  /-- An arm of exec that has no meaning yet. Safe. No arm uses it. -/
  | notModelled (mnemonic : String)
  /-- R213(c), R87: OPSEL 0x17 to 0x1F; raised by `execReserved` only. Safe: the run stops. -/
  | reservedOpsel
  /-- R213(a): an operation in a state where R16 does not list it, or any operation but INIT after a
  transport error (R212); raised by `misuse`. Safe: the run stops. -/
  | illegalState
  /-- R213(b): an operand outside the range of R91; raised by `misuse`. Safe: the run stops. -/
  | operandOutOfRange
  /-- R213(d): an operation while another is in progress; raised by `misuse`, never within a step,
  which holds the host off (R217). Safe: the run stops. -/
  | operationInProgress
  deriving DecidableEq, Repr

/-- Bytes by address: addresses strictly rising, no entry equal to what an unlisted address reads as. -/
abbrev Memory := List Host.Cell

/-- The spaces of the chip that a stream reaches (R40). -/
inductive Space where
  | main
  | buffer (b : Buffer)
  deriving DecidableEq, Repr

/-- PTR, the responder's stream pointer (R58). -/
structure Ptr where
  space : Space
  page : Nat
  offset : Nat
  deriving DecidableEq, Repr

/-- The reference responder's state and parameters (R58). -/
structure Chip where
  mem : Memory
  buf1 : Memory
  buf2 : Memory
  sel : Bool
  cmd : List Byte
  ptr : Ptr
  busyLeft : Nat
  comp : Bool
  latency : Nat
  statusLow : BitVec 6
  idBytes : List Byte
  deriving DecidableEq, Repr

/-- The responder's initial state (R58): all of MEM and BUFR 0xFF, SEL false, BUSY_LEFT 0, COMP 0, and
the default LATENCY, STATUS_LOW and ID_BYTES. DESIGN CHOICE: R58 gives CMD and PTR no initial value; the
model takes the empty list for CMD and the main array, page 0, offset 0 for PTR (log 16). -/
def Chip.initial : Chip where
  mem := []
  buf1 := []
  buf2 := []
  sel := false
  cmd := []
  ptr := ⟨.main, 0, 0⟩
  busyLeft := 0
  comp := false
  latency := 0
  statusLow := 0x2C
  idBytes := [0x1F, 0x26, 0x00, 0x00]

/-- One answer of the transfer port: the received byte and the error line, which only an instance with
HAS_XFER_ERR = 1 has (R212). -/
structure Answer where
  rx : Byte
  err : Option ErrCode
  deriving DecidableEq, Repr

/-- The environment of the block (R26, R222). An oracle answers what `answers` (byte transfers) and
`lines` (pin and delay primitives) say, and after that free values, numbered by `draws`; or the
reference responder of R58 answers (log 4). -/
inductive Env where
  | oracle (answers : List Answer) (lines : List (Option ErrCode)) (draws : Nat)
  | responder (chip : Chip)
  deriving DecidableEq, Repr

/-- The whole machine. -/
structure State where
  /-- the instance's parameters (R5); no step changes them -/
  params : Params
  /-- operand latches (R11), loaded when an operation is accepted (R10) -/
  opsel : BitVec 5
  a : Half
  b : Half
  buf : BitVec 1
  txd : Byte
  cfgIn : BitVec 2
  /-- sequencing state (R14) -/
  fsm : Fsm
  /-- pin latches (R20), `true` = 1 -/
  pinsEn : Bool
  csN : Bool
  resetN : Bool
  wpN : Bool
  /-- configuration latch (R21): bit 0 CHIP_ERASE_EN, bit 1 POLL_MODE -/
  cfg : BitVec 2
  /-- debug poll counter (R22) -/
  pollCount : Nat
  /-- the operation in progress, between two polls of its synchroniser (R15, R123) -/
  pending : Option Waiter
  /-- transport errors so far, never cleared (R212) -/
  faults : List Fault
  /-- an operation ended in a transport error and no INIT has completed since (R212) -/
  aborted : Bool
  /-- the output trace, oldest event first (R52) -/
  trace : List Event
  /-- the requests the host has yet to issue, next first (log 11) -/
  host : List Request
  /-- the arrivals of the block's reset input yet to come, next first: each is how many more events the
  block emits, after the arrival before it, until this one (R240, log 7) -/
  resets : List Nat
  /-- the environment -/
  env : Env
  deriving DecidableEq, Repr

/-- The machine right after block reset, for an instance and an environment (R28, R240). DESIGN CHOICE:
the operand latches and CS_N, RESET_N, WP_N have no reset value in the spec and are 0 here (log 1, 2). -/
def State.resetWith (p : Params) (env : Env) : State where
  params := p
  opsel := 0
  a := 0
  b := 0
  buf := 0
  txd := 0
  cfgIn := 0
  fsm := .uninit
  pinsEn := false
  csN := false
  resetN := false
  wpN := false
  cfg := 0
  pollCount := 0
  pending := none
  faults := []
  aborted := false
  trace := []
  host := []
  resets := []
  env := env

/-- The machine right after block reset: the default instance (R5) and an environment of which
nothing is known (R241). -/
def State.reset : State := State.resetWith Params.default (.oracle [] [] 0)

end Sys2Proof.Machine
end

