-- ==== Sys2Proof/Machine/Flags.lean ====
section
/-! DEFINITION. The condition bits: the fields of the chip's status byte as the block sees it (R24), the
ready test (R122), the COMPARE result (R19) and the fields of CFG (R21). The block has no flag
register of its own (R18). -/

namespace Sys2Proof.Machine

/-- Bit 7, RDY: 1 = ready (R24). -/
def statusRdy (s : Byte) : Bool := s.getLsbD 7

/-- Bit 6, COMP: 0 = match, 1 = mismatch (R24). -/
def statusComp (s : Byte) : Bool := s.getLsbD 6

/-- Bits 5:2, DENSITY (R24); not read by the block. -/
def statusDensity (s : Byte) : BitVec 4 := s.extractLsb' 2 4

/-- Bit 1, PROTECT (R24); not read by the block. -/
def statusProtect (s : Byte) : Bool := s.getLsbD 1

/-- Bit 0, PAGE_SZ (R24); not read by the block. -/
def statusPageSz (s : Byte) : Bool := s.getLsbD 0

/-- A status byte means ready when bit 7 is 1; no other bit takes part (R122). -/
def ready (s : Byte) : Bool := statusRdy s

/-- MATCH = (s[6] == 0): bit clear is a match (R19, R170). -/
def compareMatch (s : Byte) : Bool := !statusComp s

/-- CFG bit 0: CHIP_ERASE is permitted (R21). -/
def State.chipEraseEn (s : State) : Bool := s.cfg.getLsbD 0

/-- CFG bit 1: POLL_MODE, 0 = RESELECT, 1 = CONTINUOUS (R21). -/
def State.pollContinuous (s : State) : Bool := s.cfg.getLsbD 1

end Sys2Proof.Machine
end

