-- ==== Sys2Proof/Machine/Memory.lean ====
section
/-! DEFINITION. Reading and writing bytes of the responder's memories (R58), one list of cells each. -/

namespace Sys2Proof.Machine

/-- What an unlisted address reads as: R58's initial contents. -/
def Memory.blank : Byte := 0xFF

/-- The canonical form: addresses strictly rising, no cell equal to what an unlisted address reads as. -/
abbrev Memory.wf (m : Memory) : Prop :=
  m.Pairwise (fun x y => x.1 < y.1) ∧ ∀ c ∈ m, c.2 ≠ Memory.blank

/-- The byte at an address. -/
def Memory.read : Memory → Nat → Byte
  | [], _ => Memory.blank
  | (x, w) :: m, a => if x = a then w else Memory.read m a

/-- Put a cell before the rest, unless it holds what an unlisted address reads as. -/
def Memory.cons (a : Nat) (v : Byte) (m : Memory) : Memory :=
  if v = Memory.blank then m else (a, v) :: m

/-- Write a byte, keeping the canonical form. -/
def Memory.write : Memory → Nat → Byte → Memory
  | [], a, v => Memory.cons a v []
  | (x, w) :: m, a, v =>
    if a < x then Memory.cons a v ((x, w) :: m)
    else if a = x then Memory.cons a v m
    else (x, w) :: Memory.write m a v

/-- The address of a byte of the main array: the 24-bit command address of R44, page in bits 21:10 and
offset in bits 9:0 (log 16). -/
def mainAddr (page offset : Nat) : Nat := page * 1024 + offset

/-- MemRead(space, p, o) (R58). A buffer takes no page. -/
def Chip.read (c : Chip) (sp : Space) (page offset : Nat) : Byte :=
  match sp with
  | .main => Memory.read c.mem (mainAddr page offset)
  | .buffer .buffer1 => Memory.read c.buf1 offset
  | .buffer .buffer2 => Memory.read c.buf2 offset

/-- MemWrite(space, p, o, v) (R58). -/
def Chip.write (c : Chip) (sp : Space) (page offset : Nat) (v : Byte) : Chip :=
  match sp with
  | .main => { c with mem := Memory.write c.mem (mainAddr page offset) v }
  | .buffer .buffer1 => { c with buf1 := Memory.write c.buf1 offset v }
  | .buffer .buffer2 => { c with buf2 := Memory.write c.buf2 offset v }

/-- Every memory of the responder is in canonical form. -/
abbrev Chip.wf (c : Chip) : Prop :=
  Memory.wf c.mem ∧ Memory.wf c.buf1 ∧ Memory.wf c.buf2

/-- Write `f o` at every offset `o` below `n` of one page or buffer, in rising order. -/
def Chip.fillPage (c : Chip) (sp : Space) (page n : Nat) (f : Chip → Nat → Byte) : Chip :=
  (List.range n).foldl (fun c o => c.write sp page o (f c o)) c

end Sys2Proof.Machine
end

