-- ==== Sys2Proof/Machine/Operands.lean ====
section
/-! DEFINITION. What the block checks when an operation is accepted: the states in which R16 lists it and
the operand ranges of R91; and the page arithmetic of R42. -/

namespace Sys2Proof.Machine

/-- UNINIT, IDLE, ARMED_STREAM and SELECTED_BARE are the quiescent states (R15). -/
def Fsm.quiescent : Fsm → Bool
  | .uninit => true
  | .idle => true
  | .framing => false
  | .armedStream => true
  | .busyWait => false
  | .selectedBare => true

/-- IDLE or SELECTED_BARE: where every command, WAIT_READY and HARD_RESET are legal (R16). -/
def Fsm.commandReady : Fsm → Bool
  | .uninit => false
  | .idle => true
  | .framing => false
  | .armedStream => false
  | .busyWait => false
  | .selectedBare => true

/-- The rows of R16: whether an operation is listed in a state. A reserved OPSEL is listed nowhere. -/
def legalFrom : Instr → Fsm → Bool
  | .init _, f => f.quiescent
  | .release, f => f.commandReady || decide (f = .armedStream)
  | .streamXfer _, f => decide (f = .armedStream)
  | .endStream, f => f.commandReady || decide (f = .armedStream)
  | .statusRead, f => f.commandReady
  | .waitReady, f => f.commandReady
  | .idRead, f => f.commandReady
  | .bufWrite _ _, f => f.commandReady
  | .bufRead _ _, f => f.commandReady
  | .pageRead _ _, f => f.commandReady
  | .contReadLow _ _, f => f.commandReady
  | .contReadHigh _ _, f => f.commandReady
  | .bufToPageE _ _, f => f.commandReady
  | .bufToPageNE _ _, f => f.commandReady
  | .pageToBuf _ _, f => f.commandReady
  | .compare _ _, f => f.commandReady
  | .pageErase _, f => f.commandReady
  | .blockErase _, f => f.commandReady
  | .sectorErase _, f => f.commandReady
  | .chipErase, f => f.commandReady
  | .deepPowerDown, f => f.commandReady
  | .resume, f => f.commandReady
  | .hardReset, f => f.commandReady
  | .reserved _, _ => false

/-- Whether an operation is INIT. -/
def isInit : Instr → Bool
  | .init _ => true
  | _ => false

/-- Whether the state of the block allows an operation: R16, and after a transport error INIT only,
whatever FSM is (R212). -/
def State.allows (s : State) (i : Instr) : Bool :=
  if s.aborted then isInit i else legalFrom i s.fsm

/-- Whether every operand an operation uses is in its range (R91). -/
def operandsInRange (p : Params) (i : Instr) : Bool := i.wellFormed p

/-- The block that holds a page (R42). -/
def blockOfPage (page : Nat) : Nat := page >>> 3

/-- The first page of a block; block b holds pages 8b to 8b+7 (R42). -/
def firstPageOfBlock (block : Nat) : Nat := pagesPerBlock * block

end Sys2Proof.Machine
end

