-- ==== Sys2Proof/Machine/Responder.lean ====
section
/-! DEFINITION. The environment: the reference responder (20_memory.md R58 to R63) and the oracle, each
answering the byte transfers and the pin and delay primitives of the block. -/

namespace Sys2Proof.Machine

/-- Whether a command's opcode is followed by three address bytes (format F4, F5 or F8, R70). -/
def addressed : Command → Bool
  | .status => false
  | .id => false
  | .bufWrite _ => true
  | .bufRead _ => true
  | .pageRead => true
  | .contReadLow => true
  | .contReadHigh => true
  | .bufToPageE _ => true
  | .bufToPageNE _ => true
  | .pageToBuf _ => true
  | .compare _ => true
  | .pageErase => true
  | .blockErase => true
  | .sectorErase => true
  | .chipErase => false
  | .deepPowerDown => false
  | .resume => false

/-- The don't-care bytes after a command's address (R72). -/
def dontCares : Command → Nat
  | .pageRead => 4
  | .contReadHigh => 1
  | _ => 0

/-- The space a command's stream or address is in (R40). -/
def commandSpace : Command → Space
  | .bufWrite buf => .buffer buf
  | .bufRead buf => .buffer buf
  | _ => .main

/-- R61: the status byte, and one busy answer fewer left. -/
def Chip.statusByte (c : Chip) : Byte × Chip :=
  ((if c.busyLeft = 0 then 0x80 else 0x00) ||| (if c.comp then 0x40 else 0x00)
      ||| c.statusLow.setWidth 8,
   { c with busyLeft := c.busyLeft - 1 })

/-- R60, "when the last address byte arrives": decode A24 and set PTR. -/
def Chip.setPtr (c : Chip) (k : Command) (b0 b1 b2 : Byte) : Chip :=
  let a := addr24 b0 b1 b2
  { c with ptr := ⟨commandSpace k, pageField a, offsetField a⟩ }

/-- R60's streams inside one page or buffer wrap at PAGE_SIZE. -/
def Chip.nextOffset (p : Params) (c : Chip) : Chip :=
  { c with ptr := { c.ptr with offset := (c.ptr.offset + 1) % p.pageSize.bytes } }

/-- R60's continuous reads go on into the next page, and from the last page to page 0. -/
def Chip.nextPosition (p : Params) (c : Chip) : Chip :=
  if c.ptr.offset + 1 = p.pageSize.bytes then
    { c with ptr := { c.ptr with offset := 0, page := (c.ptr.page + 1) % numPages } }
  else { c with ptr := { c.ptr with offset := c.ptr.offset + 1 } }

/-- The byte at PTR. -/
def Chip.readPtr (c : Chip) : Byte := c.read c.ptr.space c.ptr.page c.ptr.offset

/-- R60, data phase of a command: byte `t` arrives, the answer goes back. -/
def Chip.data (p : Params) (k : Command) (t : Byte) (c : Chip) : Byte × Chip :=
  match k with
  | .bufWrite _ => (0x00, Chip.nextOffset p (c.write c.ptr.space c.ptr.page c.ptr.offset t))
  | .bufRead _ => (c.readPtr, Chip.nextOffset p c)
  | .pageRead => (c.readPtr, Chip.nextOffset p c)
  | .contReadLow => (c.readPtr, Chip.nextPosition p c)
  | .contReadHigh => (c.readPtr, Chip.nextPosition p c)
  | _ => (0x00, c)

/-- R60 for the byte at position `n` (1 or more) after the opcode of `k`; `c` already holds the byte
in CMD. -/
def Chip.afterOpcode (p : Params) (k : Command) (n : Nat) (t : Byte) (c : Chip) : Byte × Chip :=
  match k with
  | .status => c.statusByte
  | .id => (if n ≤ 4 then c.idBytes.getD (n - 1) 0x00 else 0x00, c)
  | k =>
    if addressed k then
      if n < 3 then (0x00, c)
      else if n = 3 then (0x00, c.setPtr k (c.cmd.getD 1 0) (c.cmd.getD 2 0) (c.cmd.getD 3 0))
      else if n ≤ 3 + dontCares k then (0x00, c)
      else Chip.data p k t c
    else (0x00, c)

/-- R60: XFER(t, r), the answer r and what it leaves. -/
def Chip.xfer (p : Params) (t : Byte) (c : Chip) : Byte × Chip :=
  if c.sel then
    match c.cmd with
    | [] => (0x00, { c with cmd := [t] })
    | op :: rest =>
      let c' := { c with cmd := op :: rest ++ [t] }
      match p.commandOf op with
      | none => (0x00, c')
      | some k => Chip.afterOpcode p k (rest.length + 1) t c'
  else (0x00, c)

/-- R62: COMP after a compare of one page with one buffer. -/
def Chip.pageMatches (p : Params) (c : Chip) (page : Nat) (buf : Buffer) : Bool :=
  (List.range p.pageSize.bytes).all fun o => c.read .main page o == c.read (.buffer buf) 0 o

/-- Every byte of one page of the main array to 0xFF (R62). -/
def Chip.erasePage (p : Params) (page : Nat) (c : Chip) : Chip :=
  c.fillPage .main page p.pageSize.bytes fun _ _ => 0xFF

/-- R62: the effect of a triggered command with address A24; none for any other command. -/
def Chip.effect (p : Params) (k : Command) (a24 : Nat) (c : Chip) : Option Chip :=
  let page := pageField a24
  match k with
  | .bufToPageE buf =>
      some (c.fillPage .main page p.pageSize.bytes fun c o => c.read (.buffer buf) 0 o)
  | .bufToPageNE buf =>
      some (c.fillPage .main page p.pageSize.bytes fun c o =>
        c.read .main page o &&& c.read (.buffer buf) 0 o)
  | .pageToBuf buf =>
      some (c.fillPage (.buffer buf) 0 p.pageSize.bytes fun c o => c.read .main page o)
  | .compare buf => some { c with comp := !c.pageMatches p page buf }
  | .pageErase => some (c.erasePage p page)
  | .blockErase =>
      some ((List.range pagesPerBlock).foldl
        (fun c i => c.erasePage p (firstPageOfBlock (blockOfPage page) + i)) c)
  | .sectorErase => some c
  | _ => none

/-- R59: the effect that CMD stands for when chip-select goes high: a triggered command's opcode and
exactly three address bytes, or exactly the bytes of OP_CHIP_ERASE. -/
def Chip.triggered (p : Params) (c : Chip) : Option Chip :=
  if c.cmd ≠ [] ∧ c.cmd = p.opChipErase then some { c with mem := [] }
  else
    match c.cmd with
    | [op, b0, b1, b2] =>
      match p.commandOf op with
      | some k => c.effect p k (addr24 b0 b1 b2)
      | none => none
    | _ => none

/-- R59: a chip-select, reset, write-protect, pin-enable or delay event. -/
def Chip.onLine (p : Params) (ev : Event) (c : Chip) : Chip :=
  match ev with
  | .cs false => if c.sel then c else { c with sel := true, cmd := [] }
  | .cs true =>
    if c.sel then
      match c.triggered p with
      | some c' => { c' with sel := false, busyLeft := c.latency }
      | none => { c with sel := false }
    else c
  | .rst false => { c with sel := false, cmd := [], busyLeft := 0 }
  | _ => c

/-- What the transfer port gives for an answer: the error line counts only in an instance with
HAS_XFER_ERR = 1 (R212). -/
def Answer.outcome (p : Params) (x : Answer) : Except ErrCode Byte :=
  match p.hasXferErr, x.err with
  | true, some c => .error c
  | _, _ => .ok x.rx

/-- One byte transfer: the environment's answer, and the environment after it. -/
def Env.xfer (p : Params) (t : Byte) : Env → Except ErrCode Byte × Env
  | .responder c => (.ok (c.xfer p t).1, .responder (c.xfer p t).2)
  | .oracle (x :: xs) lines n => (x.outcome p, .oracle xs lines n)
  | .oracle [] lines n =>
    (Answer.outcome p ⟨Config.freeByte n, Config.freeXferError n⟩, .oracle [] lines (n + 1))

/-- One pin or delay primitive: the failure the environment reports, if any (R212, "the same holds for
a failure reported by a pin or delay primitive"), and the environment after it. -/
def Env.line (p : Params) (ev : Event) : Env → Option ErrCode × Env
  | .responder c => (none, .responder (c.onLine p ev))
  | .oracle xs lines n =>
    if p.hasXferErr then
      match lines with
      | f :: rest => (f, .oracle xs rest n)
      | [] => (Config.freeLineError n, .oracle xs [] (n + 1))
    else (none, .oracle xs lines n)

/-- The environment's memories are in canonical form; an oracle has none. -/
def Env.wf : Env → Prop
  | .oracle _ _ _ => True
  | .responder c => c.wf

end Sys2Proof.Machine
end

