-- ==== Sys2Proof/Machine/Ops.lean ====
section
/-! DEFINITION. The primitives and composites every operation is written with (00_scope.md section 5,
R103, R104, R121, R123, R160), the two ways an operation is cut short (R212, R240), and what is checked
when an operation is accepted (R216). The block has no exceptions (R210, R218): a transport error and
block reset are what stands in their place. -/

namespace Sys2Proof.Machine

/-- Why an operation ends before its response. -/
inductive Stop where
  /-- a primitive reported an error code (R212) -/
  | transport (code : ErrCode)
  /-- the block's reset input arrived (R240, U22) -/
  | blockReset
  deriving DecidableEq, Repr

/-- A piece of an operation: it changes the state and gives a value, or stops the operation, leaving
the state as it was at that point. -/
abbrev Act (α : Type) := EStateM Stop State α

/-! ### Cut short -/

/-- Block reset (R240, R28): FSM, PINS_EN, CFG and POLL_COUNT take their reset values, no operation is
in progress, and the latches R28 calls unspecified take the values `State.reset` names (log 1, 2). No
event. The parameters, the record of events and faults, the host and the environment are not the
block's and stay. DESIGN CHOICE: the spec sets no limit on how often the reset input arrives; each
arrival uses up the head of `resets`, so it arrives as often as that list says (log 7). -/
def blockReset (s : State) : State :=
  { State.resetWith s.params s.env with
    faults := s.faults, trace := s.trace, host := s.host, resets := s.resets.tail }

/-- R212: the operation stops at once, RESP(XFER_ERROR, code) is its last event, the pin latches and
FSM keep their values, the fault is recorded for good, and only INIT is legal next. -/
def transportAbort (code : ErrCode) (s : State) : State :=
  { s with
    trace := s.trace ++ [.resp (.xferError code)]
    faults := s.faults ++ [.transportError code]
    aborted := true }

/-- The state an operation leaves, run to its end or cut short. -/
def settle (m : Act Unit) (s : State) : State :=
  match m.run s with
  | .ok _ t => t
  | .error (.transport code) t => transportAbort code t
  | .error .blockReset t => blockReset t

/-! ### Primitives -/

/-- Before every event the reset input may have arrived (log 7). -/
def tick : Act Unit := fun s =>
  match s.resets with
  | [] => .ok () s
  | 0 :: _ => .error .blockReset s
  | (n + 1) :: rest => .ok () { s with resets := n :: rest }

/-- Append an event to the trace. -/
def State.emit (s : State) (ev : Event) : State := { s with trace := s.trace ++ [ev] }

/-- Ask the environment whether a pin or delay primitive fails (R212). -/
def askLine (ev : Event) : Act Unit := fun s =>
  match s.env.line s.params ev with
  | (none, e) => .ok () { s with env := e }
  | (some code, e) => .error (.transport code) { s with env := e }

/-- A pin or delay primitive: one event and its effect on the latches. -/
def lineOp (ev : Event) (latch : State → State) : Act Unit := do
  tick
  askLine ev
  modify fun s => latch (s.emit ev)

/-- `cs_deassert()`: CS(1), also when CS_N is 1 already. -/
def csDeassert : Act Unit := lineOp (.cs true) fun s => { s with csN := true }

/-- `cs_assert()`: CS(0). -/
def csAssert : Act Unit := lineOp (.cs false) fun s => { s with csN := false }

/-- `rst_low()`: RST(0). -/
def rstLow : Act Unit := lineOp (.rst false) fun s => { s with resetN := false }

/-- `rst_high()`: RST(1). -/
def rstHigh : Act Unit := lineOp (.rst true) fun s => { s with resetN := true }

/-- `wp_drive(v)`: WP(v). -/
def wpDrive (v : Bool) : Act Unit := lineOp (.wp v) fun s => { s with wpN := v }

/-- `pins_enable()`: PINS(1). -/
def pinsEnable : Act Unit := lineOp (.pins true) fun s => { s with pinsEn := true }

/-- `delay_us(n)`: DELAY_US(n); the model has no time (R221, log 15). -/
def delayUs (n : Nat) : Act Unit := lineOp (.delayUs n) fun s => s

/-- The environment answers a transfer; one that fails appends no event (R212). -/
def answerXfer (t : Byte) : Act Byte := fun s =>
  match s.env.xfer s.params t with
  | (.ok r, e) => .ok r ({ s with env := e }.emit (.xfer t r))
  | (.error code, e) => .error (.transport code) { s with env := e }

/-- `xfer(t)`: drive byte t, receive the environment's byte (R50). -/
def xfer (t : Byte) : Act Byte := do
  tick
  answerXfer t

/-- `respond(k, v)`: hand the result to the host (R92). -/
def respond (r : Response) : Act Unit := do
  tick
  modify fun s => s.emit (.resp r)

/-- `FSM <- STATE`. -/
def setFsm (f : Fsm) : Act Unit := modify fun s => { s with fsm := f }

/-- An instance's parameters. -/
def getParams : Act Params := do
  let s ← get
  return s.params

/-! ### Composites -/

/-- `DELAY_US(T_CS_HIGH) only if T_CS_HIGH > 0` (00_scope.md section 5, R262). -/
def csHighDelay : Act Unit := do
  let p ← getParams
  if 0 < p.tCsHigh then delayUs p.tCsHigh else pure ()

/-- `pulse()`: CS(1), the delay if there is one, CS(0) (R102). -/
def pulse : Act Unit := do
  csDeassert
  csHighDelay
  csAssert

/-- Send bytes in order, discarding what is received (R103). -/
def sendBytes : List Byte → Act Unit
  | [] => pure ()
  | t :: ts => do
    let _ ← xfer t
    sendBytes ts

/-- R103's change of FSM: inside `wait_ready` it stays BUSY_WAIT. -/
def enterFraming : Act Unit := modify fun s =>
  if s.fsm = .busyWait then s else { s with fsm := .framing }

/-- `frame(bytes)` (R103): the pulse, then the bytes; chip-select stays asserted. -/
def frame (bytes : List Byte) : Act Unit := do
  pulse
  enterFraming
  sendBytes bytes

/-- `status_txn()` (R121). -/
def statusTxn : Act Byte := do
  let p ← getParams
  frame [p.opcode .status]
  let s ← xfer p.fill
  csDeassert
  return s

/-- `POLL_COUNT <- POLL_COUNT + 1` (R123). -/
def countPoll : Act Unit := modify fun s => { s with pollCount := s.pollCount + 1 }

/-- After a busy byte: `if POLL_INTERVAL > 0: delay_us(POLL_INTERVAL)` (R123). -/
def pollGap : Act Unit := do
  let p ← getParams
  if 0 < p.pollInterval then delayUs p.pollInterval else pure ()

/-- The operation stays in progress: the next step polls once more (R15, R123, log 6). -/
def park (w : Waiter) : Act Unit := do
  pollGap
  modify fun s => { s with pending := some w }

/-- What an operation does after `wait_ready` returns: FSM <- IDLE and DONE (R124, R160), or the extra
status read of COMPARE (R170). -/
def afterWait : Waiter → Act Unit
  | .done => do
    setFsm .idle
    respond .done
  | .compare => do
    setFsm .idle
    let s ← statusTxn
    setFsm .idle
    respond (.bool (compareMatch s))

/-- One turn of R123's loop in RESELECT mode: a full status transaction. -/
def pollReselect (w : Waiter) : Act Unit := do
  let s ← statusTxn
  countPoll
  if ready s then afterWait w else park w

/-- R123's end in CONTINUOUS mode: the transaction is still open. -/
def closeAndEnd (w : Waiter) : Act Unit := do
  csDeassert
  afterWait w

/-- One turn of R123's loop in CONTINUOUS mode: one more byte of the open status transaction. -/
def pollContinuous (w : Waiter) : Act Unit := do
  let p ← getParams
  let s ← xfer p.fill
  countPoll
  if ready s then closeAndEnd w else park w

/-- One turn of R123's loop, and what follows it when the chip is ready. -/
def pollOnce (w : Waiter) : Act Unit := do
  let s ← get
  if s.pollContinuous then pollContinuous w else pollReselect w

/-- R123's `FSM <- BUSY_WAIT` and `POLL_COUNT <- 0`. -/
def startWait : Act Unit := modify fun s => { s with fsm := .busyWait, pollCount := 0 }

/-- In CONTINUOUS mode one status transaction is opened for the whole wait (R123). -/
def openStatus : Act Unit := do
  let s ← get
  if s.pollContinuous then frame [s.params.opcode .status] else pure ()

/-- `wait_ready()` (R123) up to and with its first turn, and what follows it. At least one status byte
is always read. -/
def waitReady (w : Waiter) : Act Unit := do
  startWait
  openStatus
  pollOnce w

/-- `triggered(bytes)` (R160): frame, the pulse that starts the internal operation, `wait_ready`. -/
def triggered (bytes : List Byte) (w : Waiter) : Act Unit := do
  frame bytes
  pulse
  waitReady w

/-- R104(a): a frame that leaves chip-select asserted and a stream open. -/
def armStream (bytes : List Byte) : Act Unit := do
  frame bytes
  setFsm .armedStream
  respond .done

/-- R104(d): a frame, the deselect and a fixed delay. -/
def frameAndDelay (bytes : List Byte) (n : Nat) : Act Unit := do
  frame bytes
  csDeassert
  delayUs n
  setFsm .idle
  respond .done

/-! ### Accepting an operation -/

/-- The refusals of R213, in the order of R216 (a reserved OPSEL is refused before them). -/
def misuse (i : Instr) (s : State) : Option Refusal :=
  if s.pending.isSome then some .operationInProgress
  else if !s.allows i then some .illegalState
  else if !operandsInRange s.params i then some .operandOutOfRange
  else none

/-- Run an operation the block accepts, and refuse any other. -/
def accepted (i : Instr) (m : Act Unit) (s : State) : Host.Outcome State Fault Refusal :=
  match misuse i s with
  | some r => .refused r
  | none => .next (settle m s)

/-! ### Between operations -/

/-- One more turn of the operation in progress (R123). -/
def resumeWait (w : Waiter) (s : State) : State := settle (pollOnce w) { s with pending := none }

/-- The operand latches are loaded when the operation is accepted (R10, R57), and the host goes on to
its next request. -/
def acceptRequest (r : Request) (rest : List Request) (s : State) : State :=
  { s with
    opsel := r.opsel, a := r.a, b := r.b, buf := r.buf, txd := r.txd, cfgIn := r.cfgIn
    host := rest }

/-- What the machine does next. -/
inductive Action where
  /-- the reset input has arrived (R240) -/
  | reset
  /-- an operation is in progress: its synchroniser polls (R123) -/
  | poll (w : Waiter)
  /-- the host port is ready and the host offers a request (R217) -/
  | accept (r : Request) (rest : List Request)
  /-- the host port is ready and the host offers nothing -/
  | wait
  deriving DecidableEq, Repr

/-- The choice between them: block reset comes before everything (R240), and the host port is not
ready from the accept of an operation to its response (R217). -/
def nextAction (s : State) : Action :=
  if s.resets.head? = some 0 then .reset
  else
    match s.pending, s.host with
    | some w, _ => .poll w
    | none, r :: rest => .accept r rest
    | none, [] => .wait

/-! ### Offering one operation from outside -/

/-- A state in which the block accepts `i`: `s` itself where it does, else `s` with the latches INIT
leaves (R28) and no operation in progress (log 11). -/
def madeReady (i : Instr) (s : State) : State :=
  if s.pending = none ∧ s.allows i then s
  else
    { s with
      pending := none, aborted := false, fsm := .idle
      pinsEn := true, csN := true, resetN := true, wpN := true }

/-- The host offers `i` next, and nothing keeps the block from accepting it (log 11). -/
def offer (i : Instr) (s : State) : State :=
  { madeReady i s with
    host := encodeRequest i :: s.host
    resets := s.resets.dropWhile (· == 0) }

end Sys2Proof.Machine
end

