-- ==== Sys2Proof/Machine/BufferArray.lean ====
section
/-! DEFINITION. 42_buffer_and_array_read.md: the five stream-arming operations. Each sends its frame
(`busFrame`) and leaves chip-select asserted with a stream open. -/

namespace Sys2Proof.Machine

/-- BUF_WRITE buf, offset (R140). -/
def execBufWrite (buf : Buffer) (offset : Half) (s : State) : Host.Outcome State Fault Refusal :=
  accepted (.bufWrite buf offset) (armStream (busFrame s.params (.bufWrite buf offset))) s

/-- BUF_READ buf, offset (R142): no don't-care byte (R143). -/
def execBufRead (buf : Buffer) (offset : Half) (s : State) : Host.Outcome State Fault Refusal :=
  accepted (.bufRead buf offset) (armStream (busFrame s.params (.bufRead buf offset))) s

/-- PAGE_READ page, offset (R144): four don't-care bytes. -/
def execPageRead (page offset : Half) (s : State) : Host.Outcome State Fault Refusal :=
  accepted (.pageRead page offset) (armStream (busFrame s.params (.pageRead page offset))) s

/-- CONT_READ_LOW page, offset (R146): no don't-care byte. -/
def execContReadLow (page offset : Half) (s : State) : Host.Outcome State Fault Refusal :=
  accepted (.contReadLow page offset) (armStream (busFrame s.params (.contReadLow page offset))) s

/-- CONT_READ_HIGH page, offset (R148): one don't-care byte. -/
def execContReadHigh (page offset : Half) (s : State) : Host.Outcome State Fault Refusal :=
  accepted (.contReadHigh page offset) (armStream (busFrame s.params (.contReadHigh page offset))) s

end Sys2Proof.Machine
end

