-- ==== Sys2Proof/Machine/Framer.lean ====
section
/-! DEFINITION. 40_framer_and_stream.md: INIT, RELEASE, STREAM_XFER, END_STREAM; and the reserved OPSEL
values (R87). -/

namespace Sys2Proof.Machine

/-- R100's event sequence and latches. INIT's completion is the way back after a transport error (R212). -/
def initAct (cfg : BitVec 2) : Act Unit := do
  pinsEnable
  csDeassert
  rstHigh
  wpDrive true
  modify fun s => { s with cfg := cfg, fsm := .idle, aborted := false }
  respond .done

/-- INIT cfg (R100). -/
def execInit (cfg : BitVec 2) (s : State) : Host.Outcome State Fault Refusal :=
  accepted (.init cfg) (initAct cfg) s

/-- RELEASE (R101): the lines stay driven. -/
def execRelease (s : State) : Host.Outcome State Fault Refusal :=
  accepted .release (do csDeassert; setFsm .uninit; respond .done) s

/-- STREAM_XFER tx (R105): one transfer inside the open command. -/
def execStreamXfer (tx : Byte) (s : State) : Host.Outcome State Fault Refusal :=
  accepted (.streamXfer tx) (do let r ← xfer tx; respond (.byte r)) s

/-- END_STREAM (R107). -/
def execEndStream (s : State) : Host.Outcome State Fault Refusal :=
  accepted .endStream (do csDeassert; setFsm .idle; respond .done) s

/-- OPSEL 0x17 to 0x1F (R87, R213(c)): refused before anything else is looked at (R216). -/
def execReserved (_opsel : BitVec 5) (_s : State) : Host.Outcome State Fault Refusal :=
  .refused .reservedOpsel

end Sys2Proof.Machine
end

