-- ==== Sys2Proof/Machine/Power.lean ====
section
/-! DEFINITION. 44_power_reset.md: DEEP_POWER_DOWN, RESUME, HARD_RESET. -/

namespace Sys2Proof.Machine

/-- DEEP_POWER_DOWN (R190). -/
def execDeepPowerDown (s : State) : Host.Outcome State Fault Refusal :=
  accepted .deepPowerDown (frameAndDelay (busFrame s.params .deepPowerDown) s.params.tDpdEnter) s

/-- RESUME (R192). -/
def execResume (s : State) : Host.Outcome State Fault Refusal :=
  accepted .resume (frameAndDelay (busFrame s.params .resume) s.params.tDpdExit) s

/-- R196's six events in their order: chip-select goes high before the reset line does. -/
def hardResetAct (p : Params) : Act Unit := do
  rstLow
  delayUs p.tResetHold
  csDeassert
  rstHigh
  delayUs p.tResetRec
  csAssert
  setFsm .selectedBare
  respond .done

/-- HARD_RESET (R196): it resets the chip, not the block. -/
def execHardReset (s : State) : Host.Outcome State Fault Refusal :=
  accepted .hardReset (hardResetAct s.params) s

end Sys2Proof.Machine
end

