-- ==== Sys2Proof/Machine/StatusSync.lean ====
section
/-! DEFINITION. 41_status_sync_id.md: STATUS_READ, WAIT_READY, ID_READ. -/

namespace Sys2Proof.Machine

/-- R120: the byte as read, all eight bits. -/
def statusReadAct : Act Unit := do
  let s ← statusTxn
  setFsm .idle
  respond (.status s)

/-- STATUS_READ (R120). -/
def execStatusRead (s : State) : Host.Outcome State Fault Refusal :=
  accepted .statusRead statusReadAct s

/-- WAIT_READY (R124). -/
def execWaitReady (s : State) : Host.Outcome State Fault Refusal :=
  accepted .waitReady (waitReady .done) s

/-- R127's end: the transaction stays open exactly when the extended-info-length byte is not 0. -/
def idEnd (n : Byte) : Act Unit :=
  if n = 0 then do
    csDeassert
    setFsm .idle
  else setFsm .armedStream

/-- R127's four bytes and the end of the transaction. -/
def idReadAct : Act Unit := do
  let p ← getParams
  frame (busFrame p .idRead)
  let m ← xfer p.fill
  let d0 ← xfer p.fill
  let d1 ← xfer p.fill
  let n ← xfer p.fill
  idEnd n
  respond (.id m d0 d1 n)

/-- ID_READ (R127). -/
def execIdRead (s : State) : Host.Outcome State Fault Refusal :=
  accepted .idRead idReadAct s

end Sys2Proof.Machine
end

