-- ==== Sys2Proof/Machine/Transfer.lean ====
section
/-! DEFINITION. 43_transfer_compare_erase.md: the eight triggered operations. -/

namespace Sys2Proof.Machine

/-- BUF_TO_PAGE_E buf, page (R161). -/
def execBufToPageE (buf : Buffer) (page : Half) (s : State) : Host.Outcome State Fault Refusal :=
  accepted (.bufToPageE buf page) (triggered (busFrame s.params (.bufToPageE buf page)) .done) s

/-- BUF_TO_PAGE_NE buf, page (R163). -/
def execBufToPageNE (buf : Buffer) (page : Half) (s : State) : Host.Outcome State Fault Refusal :=
  accepted (.bufToPageNE buf page) (triggered (busFrame s.params (.bufToPageNE buf page)) .done) s

/-- PAGE_TO_BUF page, buf (R165). -/
def execPageToBuf (page : Half) (buf : Buffer) (s : State) : Host.Outcome State Fault Refusal :=
  accepted (.pageToBuf page buf) (triggered (busFrame s.params (.pageToBuf page buf)) .done) s

/-- COMPARE page, buf (R170): the boolean comes from a status read after the synchroniser returned. -/
def execCompare (page : Half) (buf : Buffer) (s : State) : Host.Outcome State Fault Refusal :=
  accepted (.compare page buf) (triggered (busFrame s.params (.compare page buf)) .compare) s

/-- PAGE_ERASE page (R172). -/
def execPageErase (page : Half) (s : State) : Host.Outcome State Fault Refusal :=
  accepted (.pageErase page) (triggered (busFrame s.params (.pageErase page)) .done) s

/-- BLOCK_ERASE block (R174). -/
def execBlockErase (block : Half) (s : State) : Host.Outcome State Fault Refusal :=
  accepted (.blockErase block) (triggered (busFrame s.params (.blockErase block)) .done) s

/-- SECTOR_ERASE sector (R176). -/
def execSectorErase (sector : Half) (s : State) : Host.Outcome State Fault Refusal :=
  accepted (.sectorErase sector) (triggered (busFrame s.params (.sectorErase sector)) .done) s

/-- R177: with the capability flag clear there is no bus event and FSM is unchanged. -/
def chipEraseAct (s : State) : Act Unit :=
  if s.chipEraseEn then triggered (busFrame s.params .chipErase) .done else respond .disabled

/-- CHIP_ERASE (R177). -/
def execChipErase (s : State) : Host.Outcome State Fault Refusal :=
  accepted .chipErase (chipEraseAct s) s

end Sys2Proof.Machine
end

