-- ==== Sys2Proof/Machine/Dispatch.lean ====
section
/-! DEFINITION. One arm per operation. -/

namespace Sys2Proof.Machine

/-- The meaning of one accepted operation. -/
def exec (i : Instr) (s : State) : Host.Outcome State Fault Refusal :=
  match i with
  | .init cfg => Sys2Proof.Machine.execInit cfg s
  | .release => Sys2Proof.Machine.execRelease s
  | .streamXfer tx => Sys2Proof.Machine.execStreamXfer tx s
  | .endStream => Sys2Proof.Machine.execEndStream s
  | .statusRead => Sys2Proof.Machine.execStatusRead s
  | .waitReady => Sys2Proof.Machine.execWaitReady s
  | .idRead => Sys2Proof.Machine.execIdRead s
  | .bufWrite buf offset => Sys2Proof.Machine.execBufWrite buf offset s
  | .bufRead buf offset => Sys2Proof.Machine.execBufRead buf offset s
  | .pageRead page offset => Sys2Proof.Machine.execPageRead page offset s
  | .contReadLow page offset => Sys2Proof.Machine.execContReadLow page offset s
  | .contReadHigh page offset => Sys2Proof.Machine.execContReadHigh page offset s
  | .bufToPageE buf page => Sys2Proof.Machine.execBufToPageE buf page s
  | .bufToPageNE buf page => Sys2Proof.Machine.execBufToPageNE buf page s
  | .pageToBuf page buf => Sys2Proof.Machine.execPageToBuf page buf s
  | .compare page buf => Sys2Proof.Machine.execCompare page buf s
  | .pageErase page => Sys2Proof.Machine.execPageErase page s
  | .blockErase block => Sys2Proof.Machine.execBlockErase block s
  | .sectorErase sector => Sys2Proof.Machine.execSectorErase sector s
  | .chipErase => Sys2Proof.Machine.execChipErase s
  | .deepPowerDown => Sys2Proof.Machine.execDeepPowerDown s
  | .resume => Sys2Proof.Machine.execResume s
  | .hardReset => Sys2Proof.Machine.execHardReset s
  | .reserved opsel => Sys2Proof.Machine.execReserved opsel s

end Sys2Proof.Machine
end

