-- ==== Sys2Proof/Machine/Step.lean ====
section
/-! DEFINITION. One step: block reset, one poll of the operation in progress, or one operation. -/

namespace Sys2Proof.Machine

/-- One step of the machine. With nothing to do it waits, and nothing changes. -/
def step (s : State) : Host.Outcome State Fault Refusal :=
  match nextAction s with
  | .reset => .next (blockReset s)
  | .poll w => .next (resumeWait w s)
  | .accept r rest => exec (decodeRequest r) (acceptRequest r rest s)
  | .wait => .next s

/-- `s` with the operation whose frame has the bits `w` offered next, so that the very next step runs
it (log 11, log 12). Where no frame of the block has those bits, `s` unchanged. -/
def State.withFetchWord (s : State) (nbits w : Nat) : State :=
  match decodeTableWord nbits w with
  | some i => offer i s
  | none => s

end Sys2Proof.Machine
end

