-- ==== Sys2Proof/Safety.lean ====
section
/-! DEFINITION. The words claims are stated in: what an environment answers to a list of drives, the
drives of each composite, and the invariant of the machine. -/

namespace Sys2Proof.Machine

/-! ### Where claims hold -/

/-- The instance has no error line and no block reset is on its way: every primitive succeeds. -/
abbrev State.Quiet (s : State) : Prop := s.params.hasXferErr = false ∧ s.resets = []

/-- The block accepts a command: no operation in progress, no transport error to recover from, and FSM
is IDLE or SELECTED_BARE (R16). -/
abbrev State.CommandReady (s : State) : Prop :=
  s.pending = none ∧ s.aborted = false ∧ (s.fsm = .idle ∨ s.fsm = .selectedBare)

/-- The block accepts an operation that is legal in IDLE, ARMED_STREAM and SELECTED_BARE (R16). -/
abbrev State.Initialised (s : State) : Prop :=
  s.pending = none ∧ s.aborted = false ∧
    (s.fsm = .idle ∨ s.fsm = .armedStream ∨ s.fsm = .selectedBare)

/-- A stream is open and the block accepts STREAM_XFER (R16). -/
abbrev State.Streaming (s : State) : Prop :=
  s.pending = none ∧ s.aborted = false ∧ s.fsm = .armedStream

/-! ### What the block drives and the environment answers -/

/-- One thing the block does at its ports before its response: a pin or delay primitive, or a byte
transfer. -/
inductive Drive where
  | line (ev : Event)
  | send (t : Byte)
  deriving DecidableEq, Repr

/-- The events of some drives, the bytes received in order, and the environment after them. -/
structure Played where
  events : List Event
  rx : List Byte
  env : Env
  deriving DecidableEq, Repr

/-- The byte of a transfer that does not fail. -/
def received : Except ErrCode Byte → Byte
  | .ok r => r
  | .error _ => 0

/-- The environment of an instance without an error line answers drives one after another. -/
def Env.play (p : Params) : List Drive → Env → Played
  | [], e => ⟨[], [], e⟩
  | .line ev :: ds, e =>
    let k := Env.play p ds (e.line p ev).2
    ⟨ev :: k.events, k.rx, k.env⟩
  | .send t :: ds, e =>
    let r := received (e.xfer p t).1
    let k := Env.play p ds (e.xfer p t).2
    ⟨.xfer t r :: k.events, r :: k.rx, k.env⟩

/-- `s` after the block drove `ds`: the environment has answered and the trace has grown, nothing
else. -/
def State.after (s : State) (ds : List Drive) : State :=
  { s with
    env := (s.env.play s.params ds).env
    trace := s.trace ++ (s.env.play s.params ds).events }

/-- The bytes the block receives while it drives `ds`. -/
def State.heard (s : State) (ds : List Drive) : List Byte := (s.env.play s.params ds).rx

/-- The last byte the block receives while it drives `ds`. -/
def State.lastHeard (s : State) (ds : List Drive) : Byte := (s.heard ds).getLastD 0

/-- The delay inside a pulse, only if T_CS_HIGH is more than 0. -/
def csHighDrives (p : Params) : List Drive :=
  if 0 < p.tCsHigh then [.line (.delayUs p.tCsHigh)] else []

/-- `pulse()` (R102). -/
def pulseDrives (p : Params) : List Drive :=
  .line (.cs true) :: (csHighDrives p ++ [.line (.cs false)])

/-- `frame(bytes)` (R103). -/
def frameDrives (p : Params) (bytes : List Byte) : List Drive := pulseDrives p ++ bytes.map .send

/-- `status_txn()` (R121). -/
def statusDrives (p : Params) : List Drive :=
  frameDrives p [p.opStatus] ++ [.send p.fill, .line (.cs true)]

/-- What `wait_ready` drives up to and with its first status byte (R123), by POLL_MODE. -/
def firstPollDrives (p : Params) (continuous : Bool) : List Drive :=
  if continuous then frameDrives p [p.opStatus] ++ [.send p.fill] else statusDrives p

/-- What `wait_ready` drives for every later status byte (R123). -/
def nextPollDrives (p : Params) (continuous : Bool) : List Drive :=
  if continuous then [.send p.fill] else statusDrives p

/-- What `wait_ready` drives after a busy byte (R123). -/
def gapDrives (p : Params) : List Drive :=
  if 0 < p.pollInterval then [.line (.delayUs p.pollInterval)] else []

/-- What `wait_ready` drives after the ready byte: in CONTINUOUS mode the transaction is still open. -/
def closeDrives (continuous : Bool) : List Drive := if continuous then [.line (.cs true)] else []

/-- `triggered(bytes)` up to `wait_ready` (R160). -/
def triggerDrives (p : Params) (bytes : List Byte) : List Drive :=
  frameDrives p bytes ++ pulseDrives p

/-! ### Outcomes and runs -/

/-- `n` more steps after an outcome. -/
def runAfter (n : Nat) : Host.Outcome State Fault Refusal → Host.Outcome State Fault Refusal
  | .next s => Sys2Proof.core.run n s
  | .fault f => .fault f
  | .refused r => .refused r

/-- The state of an outcome that has one. -/
def stateOf : Host.Outcome State Fault Refusal → Option State
  | .next s => some s
  | _ => none

/-- The refusal of an outcome that has one. -/
def refusalOf : Host.Outcome State Fault Refusal → Option Refusal
  | .refused r => some r
  | _ => none

/-- Whether an event is a response. -/
def isResp : Event → Bool
  | .resp _ => true
  | _ => false

/-- Whether an operation sends an opcode of its own: the frames F1, F4, F5, F8 and FC (R70). -/
def sendsOpcode : Instr → Bool
  | .init _ => false
  | .release => false
  | .streamXfer _ => false
  | .endStream => false
  | .statusRead => true
  | .waitReady => false
  | .idRead => true
  | .bufWrite _ _ => true
  | .bufRead _ _ => true
  | .pageRead _ _ => true
  | .contReadLow _ _ => true
  | .contReadHigh _ _ => true
  | .bufToPageE _ _ => true
  | .bufToPageNE _ _ => true
  | .pageToBuf _ _ => true
  | .compare _ _ => true
  | .pageErase _ => true
  | .blockErase _ => true
  | .sectorErase _ => true
  | .chipErase => true
  | .deepPowerDown => true
  | .resume => true
  | .hardReset => false
  | .reserved _ => false

/-- Whether an operation runs the synchroniser (R129). -/
def usesSynchroniser : Instr → Bool
  | .init _ => false
  | .release => false
  | .streamXfer _ => false
  | .endStream => false
  | .statusRead => false
  | .waitReady => true
  | .idRead => false
  | .bufWrite _ _ => false
  | .bufRead _ _ => false
  | .pageRead _ _ => false
  | .contReadLow _ _ => false
  | .contReadHigh _ _ => false
  | .bufToPageE _ _ => true
  | .bufToPageNE _ _ => true
  | .pageToBuf _ _ => true
  | .compare _ _ => true
  | .pageErase _ => true
  | .blockErase _ => true
  | .sectorErase _ => true
  | .chipErase => true
  | .deepPowerDown => false
  | .resume => false
  | .hardReset => false
  | .reserved _ => false

/-- R16: where FSM may be when `exec i s` has answered `t` without error or reset. The synchroniser may
still be waiting, in BUSY_WAIT with the operation in progress (R15). -/
def EndsWhereListed (s t : State) : Instr → Prop
  | .init _ => t.fsm = .idle
  | .release => t.fsm = .uninit
  | .streamXfer _ => t.fsm = .armedStream
  | .endStream => t.fsm = .idle
  | .statusRead => t.fsm = .idle
  | .waitReady => t.fsm = .idle ∨ (t.fsm = .busyWait ∧ t.pending = some .done)
  | .idRead => t.fsm = .idle ∨ t.fsm = .armedStream
  | .bufWrite _ _ => t.fsm = .armedStream
  | .bufRead _ _ => t.fsm = .armedStream
  | .pageRead _ _ => t.fsm = .armedStream
  | .contReadLow _ _ => t.fsm = .armedStream
  | .contReadHigh _ _ => t.fsm = .armedStream
  | .bufToPageE _ _ => t.fsm = .idle ∨ (t.fsm = .busyWait ∧ t.pending = some .done)
  | .bufToPageNE _ _ => t.fsm = .idle ∨ (t.fsm = .busyWait ∧ t.pending = some .done)
  | .pageToBuf _ _ => t.fsm = .idle ∨ (t.fsm = .busyWait ∧ t.pending = some .done)
  | .compare _ _ => t.fsm = .idle ∨ (t.fsm = .busyWait ∧ t.pending = some .compare)
  | .pageErase _ => t.fsm = .idle ∨ (t.fsm = .busyWait ∧ t.pending = some .done)
  | .blockErase _ => t.fsm = .idle ∨ (t.fsm = .busyWait ∧ t.pending = some .done)
  | .sectorErase _ => t.fsm = .idle ∨ (t.fsm = .busyWait ∧ t.pending = some .done)
  | .chipErase =>
    if s.chipEraseEn then t.fsm = .idle ∨ (t.fsm = .busyWait ∧ t.pending = some .done)
    else t.fsm = s.fsm
  | .deepPowerDown => t.fsm = .idle
  | .resume => t.fsm = .idle
  | .hardReset => t.fsm = .selectedBare
  | .reserved _ => False

/-- The operations whose own events store nothing in the chip's array or buffers (R62): all but the
stream writes, the transfers and the erases that change cells. -/
def storesNothing : Instr → Bool
  | .init _ => true
  | .release => true
  | .streamXfer _ => false
  | .endStream => true
  | .statusRead => true
  | .waitReady => true
  | .idRead => true
  | .bufWrite _ _ => true
  | .bufRead _ _ => true
  | .pageRead _ _ => true
  | .contReadLow _ _ => true
  | .contReadHigh _ _ => true
  | .bufToPageE _ _ => false
  | .bufToPageNE _ _ => false
  | .pageToBuf _ _ => false
  | .compare _ _ => true
  | .pageErase _ => false
  | .blockErase _ => false
  | .sectorErase _ => true
  | .chipErase => false
  | .deepPowerDown => true
  | .resume => true
  | .hardReset => true
  | .reserved _ => true

/-! ### Scripts for the oracle -/

/-- Answers to status transactions in RESELECT mode: for each, the byte that comes back while the opcode
is sent, and the status byte. -/
def reselectScript (polls : List (Byte × Byte)) : List Answer :=
  polls.flatMap fun x => [⟨x.1, none⟩, ⟨x.2, none⟩]

/-- Answers to the later status bytes of one transaction in CONTINUOUS mode. -/
def continuousScript (polls : List Byte) : List Answer := polls.map fun x => ⟨x, none⟩

/-- The events of a pulse. -/
def pulseEvents (p : Params) : List Event :=
  .cs true :: ((if 0 < p.tCsHigh then [.delayUs p.tCsHigh] else []) ++ [.cs false])

/-- The events of one status transaction (R121). -/
def statusEvents (p : Params) (x : Byte × Byte) : List Event :=
  pulseEvents p ++ [.xfer p.opStatus x.1, .xfer p.fill x.2, .cs true]

/-- The events after a busy byte (R123). -/
def gapEvents (p : Params) : List Event :=
  if 0 < p.pollInterval then [.delayUs p.pollInterval] else []

/-! ### Lines -/

/-- What an event leaves in the pin latches (R20): a pin primitive the level it drives, any other event
nothing. -/
def State.latch (s : State) : Event → State
  | .pins v => { s with pinsEn := v }
  | .cs v => { s with csN := v }
  | .rst v => { s with resetN := v }
  | .wp v => { s with wpN := v }
  | .xfer _ _ => s
  | .delayUs _ => s
  | .resp _ => s

/-- The pin and delay events of an operation before its first byte transfer, or all of them where it
makes none (R100, R101, R102, R107, R196). -/
def firstLines (p : Params) : Instr → List Event
  | .init _ => [.pins true, .cs true, .rst true, .wp true]
  | .release => [.cs true]
  | .streamXfer _ => []
  | .endStream => [.cs true]
  | .statusRead => pulseEvents p
  | .waitReady => pulseEvents p
  | .idRead => pulseEvents p
  | .bufWrite _ _ => pulseEvents p
  | .bufRead _ _ => pulseEvents p
  | .pageRead _ _ => pulseEvents p
  | .contReadLow _ _ => pulseEvents p
  | .contReadHigh _ _ => pulseEvents p
  | .bufToPageE _ _ => pulseEvents p
  | .bufToPageNE _ _ => pulseEvents p
  | .pageToBuf _ _ => pulseEvents p
  | .compare _ _ => pulseEvents p
  | .pageErase _ => pulseEvents p
  | .blockErase _ => pulseEvents p
  | .sectorErase _ => pulseEvents p
  | .chipErase => pulseEvents p
  | .deepPowerDown => pulseEvents p
  | .resume => pulseEvents p
  | .hardReset => [.rst false, .delayUs p.tResetHold, .cs true, .rst true, .delayUs p.tResetRec, .cs false]
  | .reserved _ => []

/-- The pin and delay events right after an operation's frame: the pulse that starts a triggered
operation (R160), the deselect and the delay of a power operation (R190, R192), none otherwise. -/
def linesAfterFrame (p : Params) : Instr → List Event
  | .init _ => []
  | .release => []
  | .streamXfer _ => []
  | .endStream => []
  | .statusRead => []
  | .waitReady => []
  | .idRead => []
  | .bufWrite _ _ => []
  | .bufRead _ _ => []
  | .pageRead _ _ => []
  | .contReadLow _ _ => []
  | .contReadHigh _ _ => []
  | .bufToPageE _ _ => pulseEvents p
  | .bufToPageNE _ _ => pulseEvents p
  | .pageToBuf _ _ => pulseEvents p
  | .compare _ _ => pulseEvents p
  | .pageErase _ => pulseEvents p
  | .blockErase _ => pulseEvents p
  | .sectorErase _ => pulseEvents p
  | .chipErase => pulseEvents p
  | .deepPowerDown => [.cs true, .delayUs p.tDpdEnter]
  | .resume => [.cs true, .delayUs p.tDpdExit]
  | .hardReset => []
  | .reserved _ => []

/-! ### The invariant -/

/-- What FSM says of the pins and of the operation in progress, while no transport error is pending
(R14, R15, R20, R28). -/
def State.Linked (s : State) : Prop :=
  match s.fsm with
  | .uninit => s.pending = none ∧ (s.pinsEn = true → s.csN = true ∧ s.resetN = true ∧ s.wpN = true)
  | .idle =>
    s.pending = none ∧ s.pinsEn = true ∧ s.csN = true ∧ s.resetN = true ∧ s.wpN = true
  | .framing => False
  | .armedStream =>
    s.pending = none ∧ s.pinsEn = true ∧ s.csN = false ∧ s.resetN = true ∧ s.wpN = true
  | .busyWait =>
    s.pending ≠ none ∧ s.pinsEn = true ∧ s.csN = !s.pollContinuous ∧ s.resetN = true ∧ s.wpN = true
  | .selectedBare =>
    s.pending = none ∧ s.pinsEn = true ∧ s.csN = false ∧ s.resetN = true ∧ s.wpN = true

/-- Holds at block reset and is kept by every step: the environment's memories are in canonical form;
after a transport error nothing is in progress and the error is on record; otherwise FSM, pins and
the operation in progress agree. -/
def State.Inv (s : State) : Prop :=
  s.env.wf ∧ (s.aborted = true → s.pending = none ∧ s.faults ≠ []) ∧ (s.aborted = false → s.Linked)

/-! ### Memory of the reference responder -/

/-- No triggered command waits in the chip for chip-select to go high (R59): a rising chip-select
changes no memory. -/
abbrev Chip.Disarmed (p : Params) (c : Chip) : Prop := c.sel = true → c.triggered p = none

/-- Every byte of the main array and of both buffers reads the same. -/
def Chip.SameMemory (c c' : Chip) : Prop := ∀ sp page offset, c'.read sp page offset = c.read sp page offset

/-- The state's environment is the reference responder in state `c`. -/
abbrev State.HasChip (s : State) (c : Chip) : Prop := s.env = .responder c

end Sys2Proof.Machine
end

