-- ==== Sys2Proof/Certificates/Slice0/Obligations.lean ====
section
/-! DEFINITION. The statements for the provers. -/

open Sys2Proof Sys2Proof.Machine

/-! ### Encodings -/

/-- R88, R93: decoding the request of a well-formed operation gives the operation back. -/
def Obligations.HostPortRoundTrip : Prop :=
  ∀ (p : Params) (i : Instr), i.wellFormed p = true → decodeRequest (encodeRequest i) = i

/-- R87, R93: an OPSEL decodes to a reserved operation exactly when it is 0x17 or more, and what the
operation does not use is ignored: two requests that agree on OPSEL and on the latches R88 lists as used
decode alike, and the request of the decoded operation has the same OPSEL and decodes the same. -/
def Obligations.HostPortDecodingIsTotal : Prop :=
  ∀ r r' : Request,
    ((∃ o, decodeRequest r = .reserved o) ↔ 0x17 ≤ r.opsel.toNat) ∧
    (encodeRequest (decodeRequest r)).opsel = r.opsel ∧
    decodeRequest (encodeRequest (decodeRequest r)) = decodeRequest r ∧
    (r'.opsel = r.opsel → ∀ n, n = r.opsel.toNat →
      (n = 0x00 → r'.cfgIn = r.cfgIn) → (n = 0x02 → r'.txd = r.txd) →
      (0x09 ≤ n → n ≤ 0x12 → r'.a = r.a) → (0x07 ≤ n → n ≤ 0x0B → r'.b = r.b) →
      (n = 0x07 ∨ n = 0x08 ∨ (0x0C ≤ n ∧ n ≤ 0x0F) → r'.buf = r.buf) →
      decodeRequest r' = decodeRequest r)

/-- R70 to R86: for every legal instance, reading the frame an operation sends gives the operation
back. -/
def Obligations.BusFrameRoundTrip : Prop :=
  ∀ (p : Params) (i : Instr), p.Legal → i.wellFormed p = true → sendsOpcode i = true →
    decodeFrame p (busFrame p i) = .ok i

/-- R74: the first byte of a frame fixes its length. -/
def Obligations.FirstByteFixesFrameLength : Prop :=
  ∀ (p : Params) (op : Byte) (xs ys : List Byte) (i j : Instr),
    decodeFrame p (op :: xs) = .ok i → decodeFrame p (op :: ys) = .ok j → xs.length = ys.length

/-- R81: (a) the page-and-offset address round-trips, (b) the block address recovers the block, (c) the
two sub-sector addresses. -/
def Obligations.AddressEncoderRecoversOperands : Prop :=
  (∀ page offset b0 b1 b2, page ≤ 4095 → offset ≤ 527 → addrPO page offset = [b0, b1, b2] →
    pageField (addr24 b0 b1 b2) = page ∧ offsetField (addr24 b0 b1 b2) = offset) ∧
  (∀ block b0 b1 b2, block ≤ 511 → addrB block = [b0, b1, b2] →
    ((b0.toNat <<< 3) ||| (b1.toNat >>> 5)) = block) ∧
  addrS 10 = [0x00, 0x00, 0x00] ∧ addrS 11 = [0x00, 0x10, 0x00]

/-- R76, R78, R79: the address fields as 24-bit numbers; a block's address is that of its first page. -/
def Obligations.AddressFieldsAsNumbers : Prop :=
  (∀ page offset b0 b1 b2, page < 4096 → offset < 1024 → addrPO page offset = [b0, b1, b2] →
    addr24 b0 b1 b2 = page * 1024 + offset) ∧
  (∀ block, block < 512 → addrB block = addrP (8 * block)) ∧
  (∀ page, addrP page = addrPO page 0) ∧ (∀ offset, addrO offset = addrPO 0 offset)

/-- R80: values 10 and 11 take the special layout, every other value of 1 to 15 the normal one, and
byte0 is never 0x14 or 0x16. -/
def Obligations.SectorAddressLayouts : Prop :=
  ∀ sector, 1 ≤ sector → sector ≤ 15 →
    addrS sector =
      (if sector = 10 ∨ sector = 11 then [0x00, trunc8 ((sector % 2) * 16), 0x00]
       else [trunc8 (sector * 2), 0x00, 0x00]) ∧
    ∀ b0 b1 b2, addrS sector = [b0, b1, b2] → b0 ≠ 0x14 ∧ b0 ≠ 0x16

/-- R71 at the default opcodes: frame words written out from the spec's encodings decode to the
operations they stand for. -/
def Obligations.WrittenOutFramesDecode : Prop :=
  decodeTableWord 8 0xD7 = some .statusRead ∧
  decodeTableWord 32 0x8700020F = some (.bufWrite .buffer2 527) ∧
  decodeTableWord 64 0xD23FFE0F00000000 = some (.pageRead 4095 527) ∧
  decodeTableWord 40 0x0B002A0E00 = some (.contReadHigh 10 526) ∧
  decodeTableWord 32 0x83002800 = some (.bufToPageE .buffer1 10) ∧
  decodeTableWord 32 0x503FE000 = some (.blockErase 511) ∧
  decodeTableWord 32 0x7C001000 = some (.sectorErase 11) ∧
  decodeTableWord 32 0xC794809A = some .chipErase ∧
  decodeTableWord 8 0xB9 = some .deepPowerDown

/-! ### Lifecycle and streaming -/

/-- R100: INIT drives its four events, loads CFG and ends in IDLE with the pins at their idle levels; it
is legal in every quiescent state. -/
def Obligations.InitAssertsTheIdleState : Prop :=
  ∀ (s : State) (cfg : BitVec 2), s.Quiet → s.pending = none → s.aborted = false →
    (s.fsm = .uninit ∨ s.fsm = .idle ∨ s.fsm = .armedStream ∨ s.fsm = .selectedBare) →
    exec (.init cfg) s =
      .next (({ s.after [.line (.pins true), .line (.cs true), .line (.rst true), .line (.wp true)] with
          pinsEn := true, csN := true, resetN := true, wpN := true
          cfg := cfg, fsm := .idle } : State).emit (.resp .done))

/-- R101: RELEASE deasserts chip-select and ends in UNINIT, where only INIT is legal; everything else
keeps its value. -/
def Obligations.ReleaseEndsTheHandle : Prop :=
  ∀ s t : State, s.Quiet → s.Initialised →
    t = ({ s.after [.line (.cs true)] with csN := true, fsm := .uninit } : State).emit (.resp .done) →
    exec .release s = .next t ∧
    ∀ i, (∀ c, i ≠ .init c) → (∀ o, i ≠ .reserved o) → exec i t = .refused .illegalState

/-- R105: STREAM_XFER sends TXD, returns the byte received and changes no latch; in any state other than
ARMED_STREAM it is refused. -/
def Obligations.StreamXferMovesOneByte : Prop :=
  ∀ (s : State) (tx : Byte),
    (s.Quiet → s.Streaming →
      exec (.streamXfer tx) s =
        .next ((s.after [.send tx]).emit (.resp (.byte (s.lastHeard [.send tx]))))) ∧
    (s.pending = none → s.fsm ≠ .armedStream → exec (.streamXfer tx) s = .refused .illegalState)

/-- R107: END_STREAM deasserts chip-select and ends in IDLE. -/
def Obligations.EndStreamDeselects : Prop :=
  ∀ s : State, s.Quiet → s.Initialised →
    exec .endStream s =
      .next (({ s.after [.line (.cs true)] with csN := true, fsm := .idle } : State).emit
        (.resp .done))

/-! ### Status and identification -/

/-- R120, R121: STATUS_READ makes one status transaction and hands on the byte as read. -/
def Obligations.StatusReadReturnsTheByte : Prop :=
  ∀ s : State, s.Quiet → s.CommandReady →
    exec .statusRead s =
      .next (({ s.after (statusDrives s.params) with csN := true, fsm := .idle } : State).emit
        (.resp (.status (s.lastHeard (statusDrives s.params)))))

/-- R123, R124: WAIT_READY on a chip that is ready at the first status byte. -/
def Obligations.WaitReadyCompletesWhenReady : Prop :=
  ∀ s : State, s.Quiet → s.CommandReady →
    (s.lastHeard (firstPollDrives s.params s.pollContinuous)).getLsbD 7 = true →
    exec .waitReady s =
      .next (({ s.after (firstPollDrives s.params s.pollContinuous ++
            closeDrives s.pollContinuous) with
          csN := true, fsm := .idle, pollCount := 1 } : State).emit (.resp .done))

/-- R127: ID_READ returns four bytes in the order received; it ends in IDLE when the fourth is 0 and
leaves the transaction open otherwise. -/
def Obligations.IdReadReturnsFourBytes : Prop :=
  ∀ s : State, s.Quiet → s.CommandReady →
    ∀ ds, ds = frameDrives s.params [s.params.opId] ++ List.replicate 4 (.send s.params.fill) →
    ∃ r m d0 d1 n, s.heard ds = [r, m, d0, d1, n] ∧
      (n = 0 → exec .idRead s =
        .next (({ s.after (ds ++ [.line (.cs true)]) with csN := true, fsm := .idle } : State).emit
          (.resp (.id m d0 d1 n)))) ∧
      (n ≠ 0 → exec .idRead s =
        .next (({ s.after ds with csN := false, fsm := .armedStream } : State).emit
          (.resp (.id m d0 d1 n))))

/-! ### Stream-arming operations -/

/-- R140, R142: the buffer operations send opcode and offset-only address and leave the stream open. -/
def Obligations.BufferOperationsArmAStream : Prop :=
  ∀ (s : State) (buf : Buffer) (offset : Half), s.Quiet → s.CommandReady →
    offset.toNat < s.params.pageSize.bytes →
    (∀ op, op = (if buf = .buffer1 then s.params.opBuf1Write else s.params.opBuf2Write) →
      exec (.bufWrite buf offset) s =
        .next (({ s.after (frameDrives s.params
              [op, 0x00, trunc8 (offset.toNat >>> 8), trunc8 (offset.toNat &&& 0xFF)]) with
            csN := false, fsm := .armedStream } : State).emit (.resp .done))) ∧
    (∀ op, op = (if buf = .buffer1 then s.params.opBuf1Read else s.params.opBuf2Read) →
      exec (.bufRead buf offset) s =
        .next (({ s.after (frameDrives s.params
              [op, 0x00, trunc8 (offset.toNat >>> 8), trunc8 (offset.toNat &&& 0xFF)]) with
            csN := false, fsm := .armedStream } : State).emit (.resp .done)))

/-- R144, R146, R148: the main-array reads send opcode, page-and-offset address (R76) and four, no or one
don't-care byte, and leave the stream open. -/
def Obligations.ArrayReadsArmAStream : Prop :=
  ∀ (s : State) (page offset : Half), s.Quiet → s.CommandReady →
    page.toNat ≤ 4095 → offset.toNat < s.params.pageSize.bytes →
    ∀ b0 b1 b2, b0 = trunc8 (page.toNat >>> 6) →
      b1 = trunc8 ((page.toNat <<< 2) ||| (offset.toNat >>> 8)) →
      b2 = trunc8 (offset.toNat &&& 0xFF) →
    exec (.pageRead page offset) s =
      .next (({ s.after (frameDrives s.params [s.params.opPageRead, b0, b1, b2, s.params.dummy,
            s.params.dummy, s.params.dummy, s.params.dummy]) with
          csN := false, fsm := .armedStream } : State).emit (.resp .done)) ∧
    exec (.contReadLow page offset) s =
      .next (({ s.after (frameDrives s.params [s.params.opContReadLow, b0, b1, b2]) with
          csN := false, fsm := .armedStream } : State).emit (.resp .done)) ∧
    exec (.contReadHigh page offset) s =
      .next (({ s.after (frameDrives s.params
            [s.params.opContReadHigh, b0, b1, b2, s.params.dummy]) with
          csN := false, fsm := .armedStream } : State).emit (.resp .done))

/-! ### Triggered operations -/

/-- What a triggered operation leaves when its first status byte is ready: frame, trigger pulse, one poll
(R160), IDLE, DONE. -/
def TriggeredDone (i : Instr) (s : State) (bytes : List Byte) : Prop :=
  (s.lastHeard (triggerDrives s.params bytes ++
      firstPollDrives s.params s.pollContinuous)).getLsbD 7 = true →
  exec i s =
    .next (({ s.after (triggerDrives s.params bytes ++ firstPollDrives s.params s.pollContinuous ++
          closeDrives s.pollContinuous) with
        csN := true, fsm := .idle, pollCount := 1 } : State).emit (.resp .done))

/-- R161, R163, R165, R172: the operations with a page-only address (R78). -/
def Obligations.PageOperationsComplete : Prop :=
  ∀ (s : State) (buf : Buffer) (page : Half), s.Quiet → s.CommandReady → page.toNat ≤ 4095 →
    ∀ b0 b1, b0 = trunc8 (page.toNat >>> 6) → b1 = trunc8 (page.toNat <<< 2) →
    TriggeredDone (.bufToPageE buf page) s
      [if buf = .buffer1 then s.params.opB1ToPageE else s.params.opB2ToPageE, b0, b1, 0x00] ∧
    TriggeredDone (.bufToPageNE buf page) s
      [if buf = .buffer1 then s.params.opB1ToPageNE else s.params.opB2ToPageNE, b0, b1, 0x00] ∧
    TriggeredDone (.pageToBuf page buf) s
      [if buf = .buffer1 then s.params.opPageToB1 else s.params.opPageToB2, b0, b1, 0x00] ∧
    TriggeredDone (.pageErase page) s [s.params.opPageErase, b0, b1, 0x00]

/-- R174, R176, R177: block, sector and (with the capability flag set) chip erase. -/
def Obligations.LargeErasesComplete : Prop :=
  ∀ (s : State) (unit : Half), s.Quiet → s.CommandReady →
    (unit.toNat ≤ 511 → TriggeredDone (.blockErase unit) s
      [s.params.opBlockErase, trunc8 (unit.toNat >>> 3), trunc8 (unit.toNat <<< 5), 0x00]) ∧
    (1 ≤ unit.toNat → unit.toNat ≤ 15 → unit.toNat ≠ 10 → unit.toNat ≠ 11 →
      TriggeredDone (.sectorErase unit) s
        [s.params.opSectorErase, trunc8 (unit.toNat <<< 1), 0x00, 0x00]) ∧
    (unit.toNat = 10 ∨ unit.toNat = 11 →
      TriggeredDone (.sectorErase unit) s
        [s.params.opSectorErase, 0x00, trunc8 ((unit.toNat &&& 1) <<< 4), 0x00]) ∧
    (s.cfg.getLsbD 0 = true → TriggeredDone .chipErase s s.params.opChipErase)

/-- R170: COMPARE reads status once more after the synchroniser returned, and bit 6 of that byte clear
means match. -/
def Obligations.CompareReturnsInvertedBit : Prop :=
  ∀ (s : State) (page : Half) (buf : Buffer), s.Quiet → s.CommandReady → page.toNat ≤ 4095 →
    ∀ bytes, bytes = [if buf = .buffer1 then s.params.opCompareB1 else s.params.opCompareB2,
        trunc8 (page.toNat >>> 6), trunc8 (page.toNat <<< 2), 0x00] →
    (s.lastHeard (triggerDrives s.params bytes ++
        firstPollDrives s.params s.pollContinuous)).getLsbD 7 = true →
    ∀ ds, ds = triggerDrives s.params bytes ++ firstPollDrives s.params s.pollContinuous ++
        closeDrives s.pollContinuous ++ statusDrives s.params →
    exec (.compare page buf) s =
      .next (({ s.after ds with csN := true, fsm := .idle, pollCount := 1 } : State).emit
        (.resp (.bool (!(s.lastHeard ds).getLsbD 6))))

/-- R177: with the capability flag clear CHIP_ERASE only responds DISABLED. -/
def Obligations.ChipEraseDisabledDoesNothing : Prop :=
  ∀ s : State, s.Quiet → s.CommandReady → s.cfg.getLsbD 0 = false →
    exec .chipErase s = .next (s.emit (.resp .disabled))

/-- R123, R160: on a busy first status byte an operation that runs the synchroniser stays in progress, in
BUSY_WAIT, with no response. The bytes are those of its frame; WAIT_READY has none and no pulse. -/
def Obligations.BusyChipKeepsOperationInProgress : Prop :=
  ∀ (s : State) (i : Instr), s.Quiet → s.CommandReady → i.wellFormed s.params = true →
    usesSynchroniser i = true → (i = .chipErase → s.cfg.getLsbD 0 = true) →
    ∀ ds, ds = (if i = .waitReady then [] else triggerDrives s.params (busFrame s.params i)) ++
        firstPollDrives s.params s.pollContinuous →
    (s.lastHeard ds).getLsbD 7 = false →
    ∃ w, (w = .compare ↔ ∃ page buf, i = .compare page buf) ∧
      exec i s =
        .next { s.after (ds ++ gapDrives s.params) with
          csN := !s.pollContinuous, fsm := .busyWait, pollCount := 1, pending := some w }

/-! ### The synchroniser -/

/-- R123: a step on an operation in progress reads one more status byte; ready ends the operation, busy
keeps it in progress. -/
def Obligations.PendingOperationPollsOnce : Prop :=
  ∀ (s : State) (w : Waiter), s.Quiet → s.pending = some w → s.fsm = .busyWait →
    s.csN = (!s.pollContinuous) →
    ∀ ds, ds = nextPollDrives s.params s.pollContinuous →
    ((s.lastHeard ds).getLsbD 7 = false →
      step s = .next { s.after (ds ++ gapDrives s.params) with pollCount := s.pollCount + 1 }) ∧
    ((s.lastHeard ds).getLsbD 7 = true → w = .done →
      step s = .next (({ s.after (ds ++ closeDrives s.pollContinuous) with
          csN := true, fsm := .idle, pollCount := s.pollCount + 1, pending := none } : State).emit
        (.resp .done))) ∧
    ((s.lastHeard ds).getLsbD 7 = true → w = .compare →
      ∀ es, es = ds ++ closeDrives s.pollContinuous ++ statusDrives s.params →
      step s = .next (({ s.after es with
          csN := true, fsm := .idle, pollCount := s.pollCount + 1, pending := none } : State).emit
        (.resp (.bool (!(s.lastHeard es).getLsbD 6)))))

/-- R125: k busy answers and then a ready one: in RESELECT mode exactly k + 1 status transactions, in
CONTINUOUS mode one transaction with k + 1 status bytes, and POLL_COUNT = k + 1. That this takes k further
steps is the model's choice of a step (log 6). -/
def Obligations.WaitCountsItsPolls : Prop :=
  ∀ (s : State) (lines : List (Option ErrCode)) (draws : Nat) (rest : List Answer),
    s.Quiet → s.CommandReady →
    (∀ (busy : List (Byte × Byte)) (last : Byte × Byte),
      s.pollContinuous = false → (∀ x ∈ busy, x.2.getLsbD 7 = false) → last.2.getLsbD 7 = true →
      s.env = .oracle (reselectScript (busy ++ [last]) ++ rest) lines draws →
      ∃ t, runAfter busy.length (exec .waitReady s) = .next t ∧
        t.pollCount = busy.length + 1 ∧ t.fsm = .idle ∧ t.pending = none ∧
        t.env = .oracle rest lines draws ∧
        t.trace = s.trace ++
          busy.flatMap (fun x => statusEvents s.params x ++ gapEvents s.params) ++
          statusEvents s.params last ++ [.resp .done]) ∧
    (∀ (first : Byte) (busy : List Byte) (last : Byte),
      s.pollContinuous = true → (∀ x ∈ busy, x.getLsbD 7 = false) → last.getLsbD 7 = true →
      s.env = .oracle (continuousScript (first :: busy ++ [last]) ++ rest) lines draws →
      ∃ t, runAfter busy.length (exec .waitReady s) = .next t ∧
        t.pollCount = busy.length + 1 ∧ t.fsm = .idle ∧ t.pending = none ∧
        t.env = .oracle rest lines draws ∧
        t.trace = s.trace ++ pulseEvents s.params ++ [.xfer s.params.opStatus first] ++
          busy.flatMap (fun x => .xfer s.params.fill x :: gapEvents s.params) ++
          [.xfer s.params.fill last, .cs true, .resp .done])

/-- R126: the loop has no cap: after any number of busy answers the operation is still in progress and
has not responded. -/
def Obligations.WaitHasNoCap : Prop :=
  ∀ (s : State) (w : Waiter) (busy : List (Byte × Byte)) (rest : List Answer)
    (lines : List (Option ErrCode)) (draws : Nat),
    s.Quiet → s.pending = some w → s.fsm = .busyWait → s.csN = (!s.pollContinuous) →
    (∀ x ∈ busy, x.2.getLsbD 7 = false) →
    s.env = .oracle ((if s.pollContinuous then continuousScript (busy.map Prod.snd)
      else reselectScript busy) ++ rest) lines draws →
    ∃ t evs, Sys2Proof.core.run busy.length s = .next t ∧ t.pending = some w ∧
      t.fsm = .busyWait ∧ t.trace = s.trace ++ evs ∧ (∀ e ∈ evs, isResp e = false) ∧
      t.pollCount = s.pollCount + busy.length

/-- R53: whatever the environment does, an operation in progress that ends without a transport error has
received, in the step that ends it, a status byte with bit 7 set. -/
def Obligations.CompletionNeedsAReadyByte : Prop :=
  ∀ s t : State, s.pending ≠ none → s.resets = [] → step s = .next t → t.pending = none →
    t.faults = s.faults →
    ∃ evs b, t.trace = s.trace ++ evs ∧ Event.xfer s.params.fill b ∈ evs ∧ b.getLsbD 7 = true

/-! ### Power and reset -/

/-- R190, R192: DEEP_POWER_DOWN and RESUME send one opcode, deselect and delay. -/
def Obligations.PowerOperationsDeselectAndDelay : Prop :=
  ∀ s : State, s.Quiet → s.CommandReady →
    exec .deepPowerDown s =
      .next (({ s.after (frameDrives s.params [s.params.opDpd] ++
            [.line (.cs true), .line (.delayUs s.params.tDpdEnter)]) with
          csN := true, fsm := .idle } : State).emit (.resp .done)) ∧
    exec .resume s =
      .next (({ s.after (frameDrives s.params [s.params.opResume] ++
            [.line (.cs true), .line (.delayUs s.params.tDpdExit)]) with
          csN := true, fsm := .idle } : State).emit (.resp .done))

/-- R196: HARD_RESET's six events in their order, chip-select high before the reset line, ending in
SELECTED_BARE with chip-select asserted; from there every operation that sends an opcode is legal and
STREAM_XFER is not. -/
def Obligations.HardResetOrdersItsEvents : Prop :=
  ∀ s t : State, s.Quiet → s.CommandReady →
    t = ({ s.after [.line (.rst false), .line (.delayUs s.params.tResetHold), .line (.cs true),
            .line (.rst true), .line (.delayUs s.params.tResetRec), .line (.cs false)] with
          csN := false, resetN := true, fsm := .selectedBare } : State).emit (.resp .done) →
    exec .hardReset s = .next t ∧
    (∀ i, sendsOpcode i = true → t.allows i = true) ∧
    ∀ tx, exec (.streamXfer tx) t = .refused .illegalState

/-- R28, R240: what block reset leaves, for every instance and environment: the values the spec gives. -/
def Obligations.BlockResetLeavesStatedValues : Prop :=
  (∀ (p : Params) (e : Env),
    (State.resetWith p e).fsm = .uninit ∧ (State.resetWith p e).pinsEn = false ∧
    (State.resetWith p e).cfg = 0 ∧ (State.resetWith p e).pollCount = 0 ∧
    (State.resetWith p e).pending = none ∧ (State.resetWith p e).trace = []) ∧
  State.reset = State.resetWith Params.default (.oracle [] [] 0)

/-- R240: whenever the reset input arrives, the next step, an endless poll included, leaves UNINIT with
nothing in progress and emits nothing. That it arrives as often as a list says is the model's form
(log 7). -/
def Obligations.BlockResetLeavesAnyWait : Prop :=
  ∀ (s : State) (rest : List Nat), s.resets = 0 :: rest →
    ∃ t, step s = .next t ∧ t.fsm = .uninit ∧ t.pinsEn = false ∧ t.cfg = 0 ∧ t.pollCount = 0 ∧
      t.pending = none ∧ t.resets = rest ∧ t.trace = s.trace ∧ t.env = s.env ∧ t.host = s.host

/-- R240, U22: an operation cut short by block reset, when it is accepted or in a later poll, has emitted
exactly the events before it, gives no response, and leaves the block as reset does. The countdown is the
model's form (log 7). -/
def Obligations.BlockResetCutsOperationShort : Prop :=
  ∀ (s t : State) (n : Nat) (rest : List Nat), s.resets = n :: rest →
    ((∃ i, exec i s = .next t) ∨ step s = .next t) → t.resets = rest →
    t.fsm = .uninit ∧ t.pinsEn = false ∧ t.cfg = 0 ∧ t.pollCount = 0 ∧ t.pending = none ∧
    ∃ evs, t.trace = s.trace ++ evs ∧ evs.length = n ∧ ∀ e ∈ evs, isResp e = false

/-! ### Refusals and errors -/

/-- R213, R216: what is refused, and under which name: an operation while another is in progress, one
that R16 does not list in the present state (after a transport error all but INIT), then an operand
outside R91; nothing else is refused. -/
def Obligations.RefusedExactlyWhenMisused : Prop :=
  ∀ (s : State) (i : Instr), (∀ o, i ≠ .reserved o) →
    ((∃ t, exec i s = .next t) ↔
      s.pending = none ∧ s.allows i = true ∧ i.wellFormed s.params = true) ∧
    (s.pending ≠ none → exec i s = .refused .operationInProgress) ∧
    (s.pending = none → s.allows i = false → exec i s = .refused .illegalState) ∧
    (s.pending = none → s.allows i = true → i.wellFormed s.params = false →
      exec i s = .refused .operandOutOfRange)

/-- R16, R255: an operation is allowed exactly in the states R16 lists for it: INIT in every quiescent
state, RELEASE and END_STREAM in IDLE, ARMED_STREAM and SELECTED_BARE, STREAM_XFER in ARMED_STREAM, every
other one in IDLE and SELECTED_BARE, a reserved code in none. -/
def Obligations.LegalStatesAreThoseListed : Prop :=
  ∀ (s : State) (i : Instr), s.aborted = false →
    (s.allows i = true ↔
      ((∃ c, i = .init c) ∧
        (s.fsm = .uninit ∨ s.fsm = .idle ∨ s.fsm = .armedStream ∨ s.fsm = .selectedBare)) ∨
      ((i = .release ∨ i = .endStream) ∧
        (s.fsm = .idle ∨ s.fsm = .armedStream ∨ s.fsm = .selectedBare)) ∨
      ((∃ tx, i = .streamXfer tx) ∧ s.fsm = .armedStream) ∨
      ((∀ c, i ≠ .init c) ∧ i ≠ .release ∧ i ≠ .endStream ∧ (∀ tx, i ≠ .streamXfer tx) ∧
        (∀ o, i ≠ .reserved o) ∧ (s.fsm = .idle ∨ s.fsm = .selectedBare)))

/-- R91, R213(b): where commands are allowed, an operation is refused for its operands exactly when a page
is above 4095, an offset is PAGE_SIZE or more, a block is above 511, or a sector is 0 or above 15. -/
def Obligations.OperandsOutOfRangeAreRefused : Prop :=
  ∀ (s : State) (x y : Half) (buf : Buffer), s.CommandReady →
    ∀ size, size = (if s.params.pageSize = .standard then 528 else 512) →
    (∀ i ∈ [Instr.bufWrite buf y, .bufRead buf y],
      exec i s = .refused .operandOutOfRange ↔ size ≤ y.toNat) ∧
    (∀ i ∈ [Instr.pageRead x y, .contReadLow x y, .contReadHigh x y],
      exec i s = .refused .operandOutOfRange ↔ 4095 < x.toNat ∨ size ≤ y.toNat) ∧
    (∀ i ∈ [Instr.bufToPageE buf x, .bufToPageNE buf x, .pageToBuf x buf, .compare x buf, .pageErase x],
      exec i s = .refused .operandOutOfRange ↔ 4095 < x.toNat) ∧
    (exec (.blockErase x) s = .refused .operandOutOfRange ↔ 511 < x.toNat) ∧
    (exec (.sectorErase x) s = .refused .operandOutOfRange ↔ x.toNat = 0 ∨ 15 < x.toNat)

/-- R87, R213(c): a reserved OPSEL is refused in every state. -/
def Obligations.ReservedOpselRefused : Prop :=
  ∀ (s : State) (r : Request), 0x17 ≤ r.opsel.toNat →
    exec (decodeRequest r) s = .refused .reservedOpsel

/-- No operation and no step ends in a fault. The block raises no exception (R210); R211 calls a
transport error a fault, and that it is a next state with a record here is the model's reading (log 8). -/
def Obligations.NothingFaults : Prop :=
  (∀ (i : Instr) (s : State) (f : Fault), exec i s ≠ .fault f) ∧
  ∀ (s : State) (f : Fault), step s ≠ .fault f

/-- R212: an operation that ends in a transport error, when it is accepted or in a later poll, has given
RESP(XFER_ERROR, code) as its last event and no other response, has recorded the code beside the earlier
ones, and is not in progress. No operation is in progress while a transport error waits for INIT (the
invariant StepKeepsTheInvariant), hence the premise on polls. -/
def Obligations.TransportErrorEndsOperation : Prop :=
  ∀ s t : State, s.resets = [] →
    ((∃ i, exec i s = .next t) ∨ (s.pending ≠ none ∧ s.aborted = false ∧ step s = .next t)) →
    t.aborted = true →
    s.params.hasXferErr = true ∧
    ∃ code evs, t.faults = s.faults ++ [.transportError code] ∧
      t.trace = s.trace ++ evs ++ [.resp (.xferError code)] ∧ (∀ e ∈ evs, isResp e = false) ∧
      t.pending = none

/-- R212: after a transport error INIT is the only legal operation, in whatever state FSM was left, and
INIT is the way back: with four lines that do not fail it ends in IDLE with the mark clear and the record
kept; one whose lines fail again leaves everything but the pins as it was. That only INIT is legal in
ARMED_STREAM too is the model's reading (log 8). -/
def Obligations.OnlyInitAfterTransportError : Prop :=
  ∀ s : State, s.aborted = true → s.pending = none →
    (∀ i, (∀ c, i ≠ .init c) → (∀ o, i ≠ .reserved o) → exec i s = .refused .illegalState) ∧
    (∀ cfg t, s.resets = [] → exec (.init cfg) s = .next t →
      (t.aborted = false ∧ t.fsm = .idle ∧ t.cfg = cfg ∧ t.faults = s.faults) ∨
      (t.aborted = true ∧ t.fsm = s.fsm ∧ t.cfg = s.cfg)) ∧
    ∀ cfg answers lines draws, s.resets = [] → s.params.hasXferErr = true →
      s.env = .oracle answers (none :: none :: none :: none :: lines) draws →
      exec (.init cfg) s =
        .next { s with
          pinsEn := true, csN := true, resetN := true, wpN := true
          cfg := cfg, fsm := .idle, aborted := false, env := .oracle answers lines draws
          trace := s.trace ++ [.pins true, .cs true, .rst true, .wp true, .resp .done] }

/-- R212: a transfer that fails, at any place in the frame of any operation that sends an opcode, or the
transfer of FILL after the frame of STATUS_READ: the pins keep their levels, FSM stays FRAMING, and the
failing transfer is not on the trace (log 9). -/
def Obligations.FailedTransferKeepsLatches : Prop :=
  ∀ (s : State) (i : Instr) (pre post rx : List Byte) (b r : Byte) (code : ErrCode)
    (rest : List Answer) (lines : List (Option ErrCode)) (draws : Nat),
    s.params.hasXferErr = true → s.resets = [] → s.CommandReady → i.wellFormed s.params = true →
    sendsOpcode i = true → (i = .chipErase → s.cfg.getLsbD 0 = true) →
    busFrame s.params i ++ (if i = .statusRead then [s.params.fill] else []) = pre ++ b :: post →
    rx.length = pre.length →
    s.env = .oracle (rx.map (fun x => ⟨x, none⟩) ++ ⟨r, some code⟩ :: rest)
      (List.replicate (pulseEvents s.params).length none ++ lines) draws →
    exec i s =
      .next { s with
        csN := false, fsm := .framing, aborted := true
        env := .oracle rest lines draws
        faults := s.faults ++ [.transportError code]
        trace := s.trace ++ pulseEvents s.params ++ List.zipWith .xfer pre rx ++
          [.resp (.xferError code)] }

/-- R212's last sentence: a pin or delay primitive that fails, (a) before the first transfer of any
operation, or (b) after the frame of a triggered or power operation: the pins keep the levels of the
primitives before it, FSM and the other latches keep their values, and the failing primitive is not on
the trace (log 9). WAIT_READY has entered BUSY_WAIT with POLL_COUNT 0 before its first primitive
(R123). -/
def Obligations.FailedLineKeepsLatches : Prop :=
  ∀ (s : State) (i : Instr) (pre post : List Event) (ev : Event) (code : ErrCode)
    (rest : List Answer) (lines : List (Option ErrCode)) (draws : Nat),
    s.params.hasXferErr = true → s.resets = [] → s.pending = none → s.allows i = true →
    i.wellFormed s.params = true → (i = .chipErase → s.cfg.getLsbD 0 = true) →
    (firstLines s.params i = pre ++ ev :: post →
      s.env = .oracle rest (List.replicate pre.length none ++ some code :: lines) draws →
      ∀ u, u = (if i = .waitReady then { s with fsm := .busyWait, pollCount := 0 } else s) →
      exec i s =
        .next { pre.foldl State.latch u with
          aborted := true, env := .oracle rest lines draws
          faults := s.faults ++ [.transportError code]
          trace := s.trace ++ pre ++ [.resp (.xferError code)] }) ∧
    (linesAfterFrame s.params i = pre ++ ev :: post →
      ∀ (rx : List Byte) (sent : List Event), rx.length = (busFrame s.params i).length →
      sent = pulseEvents s.params ++ List.zipWith .xfer (busFrame s.params i) rx →
      s.env = .oracle (rx.map (fun x => ⟨x, none⟩) ++ rest)
        (List.replicate (pulseEvents s.params ++ pre).length none ++ some code :: lines) draws →
      exec i s =
        .next { pre.foldl State.latch { s with csN := false, fsm := .framing } with
          aborted := true, env := .oracle rest lines draws
          faults := s.faults ++ [.transportError code]
          trace := s.trace ++ sent ++ pre ++ [.resp (.xferError code)] })

/-! ### Every operation -/

/-- R16: the state in which each operation ends. -/
def Obligations.OperationsEndWhereListed : Prop :=
  ∀ (s t : State) (i : Instr), s.Quiet → exec i s = .next t → EndsWhereListed s t i

/-- R20, R21, R22, R57: what an operation leaves unchanged when it is not cut short by block reset: the
parameters, the operand latches, the host's requests; WP_N, PINS_EN and CFG but for INIT; RESET_N but for
INIT and HARD_RESET; POLL_COUNT but for the operations that run the synchroniser; and the fault record
but for a transport error. -/
def Obligations.OperationsLeaveTheRest : Prop :=
  ∀ (s t : State) (i : Instr), s.resets = [] → exec i s = .next t →
    t.params = s.params ∧ t.opsel = s.opsel ∧ t.a = s.a ∧ t.b = s.b ∧ t.buf = s.buf ∧
    t.txd = s.txd ∧ t.cfgIn = s.cfgIn ∧ t.host = s.host ∧ t.resets = [] ∧
    ((∀ c, i ≠ .init c) → t.wpN = s.wpN ∧ t.pinsEn = s.pinsEn ∧ t.cfg = s.cfg) ∧
    ((∀ c, i ≠ .init c) → i ≠ .hardReset → t.resetN = s.resetN) ∧
    (usesSynchroniser i = false → t.pollCount = s.pollCount) ∧
    (t.aborted = false → t.faults = s.faults)

/-- R20, R212: whatever the environment answers, and however an operation or a poll ends short of block
reset, each pin latch holds the level last driven on it, or what it held before. -/
def Obligations.PinsFollowTheirEvents : Prop :=
  ∀ s t : State, s.resets = [] → ((∃ i, exec i s = .next t) ∨ step s = .next t) →
    ∃ evs, t.trace = s.trace ++ evs ∧ ∀ u, u = evs.foldl State.latch s →
      t.pinsEn = u.pinsEn ∧ t.csN = u.csN ∧ t.resetN = u.resetN ∧ t.wpN = u.wpN

/-- R52: whatever happens, a step only appends to the trace. -/
def Obligations.TraceOnlyGrows : Prop :=
  ∀ s t : State, step s = .next t → ∃ evs, t.trace = s.trace ++ evs

/-- R92: an operation that is not cut short by block reset and is over, at once or in a later poll, has
given exactly one response, as its last event; one still in progress has given none. -/
def Obligations.OneResponsePerOperation : Prop :=
  ∀ s t : State, s.resets = [] →
    ((∃ i, exec i s = .next t) ∨ (s.pending ≠ none ∧ step s = .next t)) →
    ∃ evs, t.trace = s.trace ++ evs ∧
      (t.pending = none → ∃ pre r, evs = pre ++ [.resp r] ∧ ∀ e ∈ pre, isResp e = false) ∧
      (t.pending ≠ none → ∀ e ∈ evs, isResp e = false)

/-- R102: every operation that sends an opcode begins with the chip-select pulse, the opcode byte right
after it; WAIT_READY begins with that of its first status transaction. -/
def Obligations.OpcodeFollowsThePulse : Prop :=
  ∀ (s t : State) (i : Instr), s.Quiet → s.params.Legal → exec i s = .next t →
    (sendsOpcode i = true ∨ i = .waitReady) → (i = .chipErase → s.cfg.getLsbD 0 = true) →
    ∃ op r evs, t.trace = s.trace ++ pulseEvents s.params ++ [.xfer op r] ++ evs ∧
      op = (if i = .waitReady then s.params.opStatus else (busFrame s.params i).headD 0)

/-! ### Steps -/

/-- R10, R57, R87, R217: when the block is free and the host offers a request, whatever its unused latches
hold, a step loads the operand latches, takes the request off the host and is the meaning of the operation
it decodes to. -/
def Obligations.StepRunsTheOfferedOperation : Prop :=
  ∀ (s : State) (i : Instr) (r : Request) (rest : List Request), decodeRequest r = i →
    s.resets.head? ≠ some 0 → s.pending = none → s.host = r :: rest →
    step s = exec i { s with
      opsel := r.opsel, a := r.a, b := r.b, buf := r.buf, txd := r.txd, cfgIn := r.cfgIn
      host := rest }

/-- R217: while an operation is in progress the host is held off: its requests and the operand latches
stay; and with nothing to do a step changes nothing. -/
def Obligations.HostIsHeldOff : Prop :=
  ∀ s : State, s.resets = [] →
    (s.pending ≠ none → ∃ t, step s = .next t ∧ t.host = s.host ∧ t.opsel = s.opsel ∧ t.a = s.a ∧
      t.b = s.b ∧ t.buf = s.buf ∧ t.txd = s.txd ∧ t.cfgIn = s.cfgIn) ∧
    (s.pending = none → s.host = [] → step s = .next s)

/-- The invariant holds at block reset, in every environment whose memory is in canonical form. -/
def Obligations.ResetMeetsTheInvariant : Prop :=
  ∀ (p : Params) (e : Env), e.wf → (State.resetWith p e).Inv

/-- R14, R15, R20: every step keeps the invariant: FSM, the pins and the operation in progress agree, and
the environment's memories stay in canonical form. -/
def Obligations.StepKeepsTheInvariant : Prop :=
  ∀ s t : State, s.Inv → step s = .next t → t.Inv

/-! ### With the reference responder -/

/-- R60: in a buffer-write stream STREAM_XFER stores its byte at PTR and nothing else, and PTR moves on,
wrapping at PAGE_SIZE. -/
def Obligations.StreamWriteStoresOneByte : Prop :=
  ∀ (s : State) (c : Chip) (v op : Byte) (buf : Buffer) (sent : List Byte),
    s.Quiet → s.Streaming → s.HasChip c → c.wf → c.sel = true → c.cmd = op :: sent →
    3 ≤ sent.length → s.params.commandOf op = some (.bufWrite buf) → c.ptr.space = .buffer buf →
    ∃ c', exec (.streamXfer v) s =
        .next { s with
          env := .responder c', trace := s.trace ++ [.xfer v 0x00, .resp (.byte 0x00)] } ∧
      c'.read (.buffer buf) 0 c.ptr.offset = v ∧
      (∀ sp page offset, ¬(sp = .buffer buf ∧ offset = c.ptr.offset) →
        c'.read sp page offset = c.read sp page offset) ∧
      c'.ptr = ⟨c.ptr.space, c.ptr.page, (c.ptr.offset + 1) % s.params.pageSize.bytes⟩

/-- R60: in a read stream STREAM_XFER returns the byte at PTR and stores nothing; buffer and page reads
wrap at PAGE_SIZE, continuous reads go on into the next page. -/
def Obligations.StreamReadReturnsTheByte : Prop :=
  ∀ (s : State) (c : Chip) (v op : Byte) (k : Command) (sent : List Byte),
    s.Quiet → s.Streaming → s.HasChip c → c.sel = true → c.cmd = op :: sent →
    s.params.commandOf op = some k →
    ((∃ b, k = .bufRead b ∧ 3 ≤ sent.length) ∨ (k = .pageRead ∧ 7 ≤ sent.length) ∨
      (k = .contReadLow ∧ 3 ≤ sent.length) ∨ (k = .contReadHigh ∧ 4 ≤ sent.length)) →
    ∃ c', exec (.streamXfer v) s =
        .next { s with
          env := .responder c'
          trace := s.trace ++
            [.xfer v (c.read c.ptr.space c.ptr.page c.ptr.offset),
             .resp (.byte (c.read c.ptr.space c.ptr.page c.ptr.offset))] } ∧
      c.SameMemory c' ∧
      (k ≠ .contReadLow → k ≠ .contReadHigh →
        c'.ptr = ⟨c.ptr.space, c.ptr.page, (c.ptr.offset + 1) % s.params.pageSize.bytes⟩) ∧
      (k = .contReadLow ∨ k = .contReadHigh →
        c'.ptr = (if c.ptr.offset + 1 = s.params.pageSize.bytes
          then ⟨c.ptr.space, (c.ptr.page + 1) % 4096, 0⟩
          else ⟨c.ptr.space, c.ptr.page, c.ptr.offset + 1⟩))

/-- R60: with any command open but a buffer write, STREAM_XFER leaves every byte of the main array and of
both buffers as it was. -/
def Obligations.StreamXferStoresOnlyInBufferWrites : Prop :=
  ∀ (s t : State) (c : Chip) (v : Byte), s.Quiet → s.HasChip c →
    (∀ buf, c.cmd.head?.bind s.params.commandOf ≠ some (.bufWrite buf)) →
    exec (.streamXfer v) s = .next t → ∃ c', t.HasChip c' ∧ c.SameMemory c'

/-- R59 to R61: the later polls of an operation in progress store nothing: the open transaction of
CONTINUOUS mode is a status transaction, and in RESELECT mode nothing waits for chip-select to go
high. -/
def Obligations.PollsKeepMemory : Prop :=
  ∀ (s t : State) (c : Chip), s.Quiet → s.params.Legal → s.HasChip c → s.pending ≠ none →
    (if s.pollContinuous then ∃ rest, c.cmd = s.params.opStatus :: rest else c.Disarmed s.params) →
    step s = .next t → ∃ c', t.HasChip c' ∧ c.SameMemory c'

/-- R59, R60, R62: an operation that stores nothing leaves every byte of the main array and of both
buffers as it was, unless a triggered command of an operation cut short still waits for chip-select to go
high. -/
def Obligations.NonStoringOperationsKeepMemory : Prop :=
  ∀ (s t : State) (c : Chip) (i : Instr), s.Quiet → s.params.Legal → s.HasChip c →
    c.Disarmed s.params → storesNothing i = true → exec i s = .next t →
    ∃ c', t.HasChip c' ∧ c.SameMemory c'

/-- R62: what the transfers store, and that they leave every other byte as it was. -/
def Obligations.TransfersStoreOnePage : Prop :=
  ∀ (s t : State) (c : Chip) (buf : Buffer) (page : Half), s.Quiet → s.params.Legal → s.HasChip c →
    c.wf → c.Disarmed s.params → page.toNat ≤ 4095 →
    (exec (.bufToPageE buf page) s = .next t → ∃ c', t.HasChip c' ∧
      ∀ sp pg o, o < 1024 → c'.read sp pg o =
        if sp = .main ∧ pg = page.toNat ∧ o < s.params.pageSize.bytes
        then c.read (.buffer buf) 0 o else c.read sp pg o) ∧
    (exec (.bufToPageNE buf page) s = .next t → ∃ c', t.HasChip c' ∧
      ∀ sp pg o, o < 1024 → c'.read sp pg o =
        if sp = .main ∧ pg = page.toNat ∧ o < s.params.pageSize.bytes
        then c.read .main pg o &&& c.read (.buffer buf) 0 o else c.read sp pg o) ∧
    (exec (.pageToBuf page buf) s = .next t → ∃ c', t.HasChip c' ∧
      ∀ sp pg o, o < 1024 → c'.read sp pg o =
        if sp = .buffer buf ∧ o < s.params.pageSize.bytes
        then c.read .main page.toNat o else c.read sp pg o)

/-- R62: what the erases store, and that they leave every other byte as it was. -/
def Obligations.ErasesStoreBlankBytes : Prop :=
  ∀ (s t : State) (c : Chip) (unit : Half), s.Quiet → s.params.Legal → s.HasChip c → c.wf →
    c.Disarmed s.params →
    (exec (.pageErase unit) s = .next t → ∃ c', t.HasChip c' ∧
      ∀ sp pg o, o < 1024 → c'.read sp pg o =
        if sp = .main ∧ pg = unit.toNat ∧ o < s.params.pageSize.bytes then 0xFF
        else c.read sp pg o) ∧
    (exec (.blockErase unit) s = .next t → ∃ c', t.HasChip c' ∧
      ∀ sp pg o, o < 1024 → c'.read sp pg o =
        if sp = .main ∧ pg / 8 = unit.toNat ∧ o < s.params.pageSize.bytes then 0xFF
        else c.read sp pg o) ∧
    (s.cfg.getLsbD 0 = true → exec .chipErase s = .next t → ∃ c', t.HasChip c' ∧
      ∀ sp pg o, c'.read sp pg o = if sp = .main then 0xFF else c.read sp pg o)

/-- R61, R62, R170: with a responder that is never busy, COMPARE answers whether page and buffer agree at
every offset. -/
def Obligations.CompareComparesThePage : Prop :=
  ∀ (s : State) (c : Chip) (page : Half) (buf : Buffer), s.Quiet → s.params.Legal →
    s.CommandReady → s.HasChip c → c.Disarmed s.params → c.latency = 0 → page.toNat ≤ 4095 →
    ∃ t evs v, exec (.compare page buf) s = .next t ∧ t.pending = none ∧
      t.trace = s.trace ++ evs ++ [.resp (.bool v)] ∧
      (v = true ↔ ∀ o < s.params.pageSize.bytes,
        c.read .main page.toNat o = c.read (.buffer buf) 0 o)

/-- R53, R61, R125: with a responder of latency L, every triggered operation ends after exactly L further
polls, with POLL_COUNT = L + 1. That each further poll is one step is the model's choice (log 6). -/
def Obligations.TriggeredOperationEndsAfterLatency : Prop :=
  ∀ (s : State) (c : Chip) (i : Instr), s.Quiet → s.params.Legal → s.CommandReady → s.HasChip c →
    c.Disarmed s.params → i.wellFormed s.params = true → usesSynchroniser i = true →
    i ≠ .waitReady → (i = .chipErase → s.cfg.getLsbD 0 = true) →
    ∃ t, runAfter c.latency (exec i s) = .next t ∧ t.pending = none ∧ t.fsm = .idle ∧
      t.csN = true ∧ t.pollCount = c.latency + 1 ∧
      ∀ n u, n < c.latency → runAfter n (exec i s) = .next u → u.pending ≠ none

/-- The end-to-end scenario of the source (S7) for any contents, page, pair of buffers and instance: a
buffer written to a page with erase and the page read back into a buffer gives the same bytes. -/
def Obligations.PageRoundTripKeepsBytes : Prop :=
  ∀ (s : State) (c : Chip) (page : Half) (buf buf' : Buffer), s.Quiet → s.params.Legal →
    s.CommandReady → s.HasChip c → c.wf → c.Disarmed s.params → c.latency = 0 →
    page.toNat ≤ 4095 →
    ∃ t u c', exec (.bufToPageE buf page) s = .next t ∧ exec (.pageToBuf page buf') t = .next u ∧
      u.HasChip c' ∧ u.fsm = .idle ∧
      ∀ o < s.params.pageSize.bytes, c'.read (.buffer buf') 0 o = c.read (.buffer buf) 0 o
end

