-- ==== Sys2Proof/Laws/State.lean ====
section
/-! SUPPORT. What each named update of the state does to each field. -/

namespace Sys2Proof.Machine

/-! ### Appending an event -/

@[simp] theorem State.emit_params (s : State) (ev : Event) : (s.emit ev).params = s.params := rfl
@[simp] theorem State.emit_opsel (s : State) (ev : Event) : (s.emit ev).opsel = s.opsel := rfl
@[simp] theorem State.emit_a (s : State) (ev : Event) : (s.emit ev).a = s.a := rfl
@[simp] theorem State.emit_b (s : State) (ev : Event) : (s.emit ev).b = s.b := rfl
@[simp] theorem State.emit_buf (s : State) (ev : Event) : (s.emit ev).buf = s.buf := rfl
@[simp] theorem State.emit_txd (s : State) (ev : Event) : (s.emit ev).txd = s.txd := rfl
@[simp] theorem State.emit_cfgIn (s : State) (ev : Event) : (s.emit ev).cfgIn = s.cfgIn := rfl
@[simp] theorem State.emit_fsm (s : State) (ev : Event) : (s.emit ev).fsm = s.fsm := rfl
@[simp] theorem State.emit_pinsEn (s : State) (ev : Event) : (s.emit ev).pinsEn = s.pinsEn := rfl
@[simp] theorem State.emit_csN (s : State) (ev : Event) : (s.emit ev).csN = s.csN := rfl
@[simp] theorem State.emit_resetN (s : State) (ev : Event) : (s.emit ev).resetN = s.resetN := rfl
@[simp] theorem State.emit_wpN (s : State) (ev : Event) : (s.emit ev).wpN = s.wpN := rfl
@[simp] theorem State.emit_cfg (s : State) (ev : Event) : (s.emit ev).cfg = s.cfg := rfl
@[simp] theorem State.emit_pollCount (s : State) (ev : Event) : (s.emit ev).pollCount = s.pollCount := rfl
@[simp] theorem State.emit_pending (s : State) (ev : Event) : (s.emit ev).pending = s.pending := rfl
@[simp] theorem State.emit_faults (s : State) (ev : Event) : (s.emit ev).faults = s.faults := rfl
@[simp] theorem State.emit_aborted (s : State) (ev : Event) : (s.emit ev).aborted = s.aborted := rfl
@[simp] theorem State.emit_trace (s : State) (ev : Event) : (s.emit ev).trace = s.trace ++ [ev] := rfl
@[simp] theorem State.emit_host (s : State) (ev : Event) : (s.emit ev).host = s.host := rfl
@[simp] theorem State.emit_resets (s : State) (ev : Event) : (s.emit ev).resets = s.resets := rfl
@[simp] theorem State.emit_env (s : State) (ev : Event) : (s.emit ev).env = s.env := rfl

/-! ### Driving the ports -/

@[simp] theorem State.after_params (s : State) (ds : List Drive) : (s.after ds).params = s.params := rfl
@[simp] theorem State.after_opsel (s : State) (ds : List Drive) : (s.after ds).opsel = s.opsel := rfl
@[simp] theorem State.after_a (s : State) (ds : List Drive) : (s.after ds).a = s.a := rfl
@[simp] theorem State.after_b (s : State) (ds : List Drive) : (s.after ds).b = s.b := rfl
@[simp] theorem State.after_buf (s : State) (ds : List Drive) : (s.after ds).buf = s.buf := rfl
@[simp] theorem State.after_txd (s : State) (ds : List Drive) : (s.after ds).txd = s.txd := rfl
@[simp] theorem State.after_cfgIn (s : State) (ds : List Drive) : (s.after ds).cfgIn = s.cfgIn := rfl
@[simp] theorem State.after_fsm (s : State) (ds : List Drive) : (s.after ds).fsm = s.fsm := rfl
@[simp] theorem State.after_pinsEn (s : State) (ds : List Drive) : (s.after ds).pinsEn = s.pinsEn := rfl
@[simp] theorem State.after_csN (s : State) (ds : List Drive) : (s.after ds).csN = s.csN := rfl
@[simp] theorem State.after_resetN (s : State) (ds : List Drive) : (s.after ds).resetN = s.resetN := rfl
@[simp] theorem State.after_wpN (s : State) (ds : List Drive) : (s.after ds).wpN = s.wpN := rfl
@[simp] theorem State.after_cfg (s : State) (ds : List Drive) : (s.after ds).cfg = s.cfg := rfl
@[simp] theorem State.after_pollCount (s : State) (ds : List Drive) : (s.after ds).pollCount = s.pollCount := rfl
@[simp] theorem State.after_pending (s : State) (ds : List Drive) : (s.after ds).pending = s.pending := rfl
@[simp] theorem State.after_faults (s : State) (ds : List Drive) : (s.after ds).faults = s.faults := rfl
@[simp] theorem State.after_aborted (s : State) (ds : List Drive) : (s.after ds).aborted = s.aborted := rfl
@[simp] theorem State.after_trace (s : State) (ds : List Drive) : (s.after ds).trace = s.trace ++ (s.env.play s.params ds).events := rfl
@[simp] theorem State.after_host (s : State) (ds : List Drive) : (s.after ds).host = s.host := rfl
@[simp] theorem State.after_resets (s : State) (ds : List Drive) : (s.after ds).resets = s.resets := rfl
@[simp] theorem State.after_env (s : State) (ds : List Drive) : (s.after ds).env = (s.env.play s.params ds).env := rfl

/-! ### Cut short -/

@[simp] theorem transportAbort_params (c : ErrCode) (s : State) : (transportAbort c s).params = s.params := rfl
@[simp] theorem transportAbort_opsel (c : ErrCode) (s : State) : (transportAbort c s).opsel = s.opsel := rfl
@[simp] theorem transportAbort_a (c : ErrCode) (s : State) : (transportAbort c s).a = s.a := rfl
@[simp] theorem transportAbort_b (c : ErrCode) (s : State) : (transportAbort c s).b = s.b := rfl
@[simp] theorem transportAbort_buf (c : ErrCode) (s : State) : (transportAbort c s).buf = s.buf := rfl
@[simp] theorem transportAbort_txd (c : ErrCode) (s : State) : (transportAbort c s).txd = s.txd := rfl
@[simp] theorem transportAbort_cfgIn (c : ErrCode) (s : State) : (transportAbort c s).cfgIn = s.cfgIn := rfl
@[simp] theorem transportAbort_fsm (c : ErrCode) (s : State) : (transportAbort c s).fsm = s.fsm := rfl
@[simp] theorem transportAbort_pinsEn (c : ErrCode) (s : State) : (transportAbort c s).pinsEn = s.pinsEn := rfl
@[simp] theorem transportAbort_csN (c : ErrCode) (s : State) : (transportAbort c s).csN = s.csN := rfl
@[simp] theorem transportAbort_resetN (c : ErrCode) (s : State) : (transportAbort c s).resetN = s.resetN := rfl
@[simp] theorem transportAbort_wpN (c : ErrCode) (s : State) : (transportAbort c s).wpN = s.wpN := rfl
@[simp] theorem transportAbort_cfg (c : ErrCode) (s : State) : (transportAbort c s).cfg = s.cfg := rfl
@[simp] theorem transportAbort_pollCount (c : ErrCode) (s : State) : (transportAbort c s).pollCount = s.pollCount := rfl
@[simp] theorem transportAbort_pending (c : ErrCode) (s : State) : (transportAbort c s).pending = s.pending := rfl
@[simp] theorem transportAbort_faults (c : ErrCode) (s : State) : (transportAbort c s).faults = s.faults ++ [.transportError c] := rfl
@[simp] theorem transportAbort_aborted (c : ErrCode) (s : State) : (transportAbort c s).aborted = true := rfl
@[simp] theorem transportAbort_trace (c : ErrCode) (s : State) : (transportAbort c s).trace = s.trace ++ [.resp (.xferError c)] := rfl
@[simp] theorem transportAbort_host (c : ErrCode) (s : State) : (transportAbort c s).host = s.host := rfl
@[simp] theorem transportAbort_resets (c : ErrCode) (s : State) : (transportAbort c s).resets = s.resets := rfl
@[simp] theorem transportAbort_env (c : ErrCode) (s : State) : (transportAbort c s).env = s.env := rfl

@[simp] theorem blockReset_params (s : State) : (blockReset s).params = s.params := rfl
@[simp] theorem blockReset_opsel (s : State) : (blockReset s).opsel = 0 := rfl
@[simp] theorem blockReset_a (s : State) : (blockReset s).a = 0 := rfl
@[simp] theorem blockReset_b (s : State) : (blockReset s).b = 0 := rfl
@[simp] theorem blockReset_buf (s : State) : (blockReset s).buf = 0 := rfl
@[simp] theorem blockReset_txd (s : State) : (blockReset s).txd = 0 := rfl
@[simp] theorem blockReset_cfgIn (s : State) : (blockReset s).cfgIn = 0 := rfl
@[simp] theorem blockReset_fsm (s : State) : (blockReset s).fsm = .uninit := rfl
@[simp] theorem blockReset_pinsEn (s : State) : (blockReset s).pinsEn = false := rfl
@[simp] theorem blockReset_csN (s : State) : (blockReset s).csN = false := rfl
@[simp] theorem blockReset_resetN (s : State) : (blockReset s).resetN = false := rfl
@[simp] theorem blockReset_wpN (s : State) : (blockReset s).wpN = false := rfl
@[simp] theorem blockReset_cfg (s : State) : (blockReset s).cfg = 0 := rfl
@[simp] theorem blockReset_pollCount (s : State) : (blockReset s).pollCount = 0 := rfl
@[simp] theorem blockReset_pending (s : State) : (blockReset s).pending = none := rfl
@[simp] theorem blockReset_faults (s : State) : (blockReset s).faults = s.faults := rfl
@[simp] theorem blockReset_aborted (s : State) : (blockReset s).aborted = false := rfl
@[simp] theorem blockReset_trace (s : State) : (blockReset s).trace = s.trace := rfl
@[simp] theorem blockReset_host (s : State) : (blockReset s).host = s.host := rfl
@[simp] theorem blockReset_resets (s : State) : (blockReset s).resets = s.resets.tail := rfl
@[simp] theorem blockReset_env (s : State) : (blockReset s).env = s.env := rfl

/-! ### Accepting a request -/

@[simp] theorem acceptRequest_params (r : Request) (rest : List Request) (s : State) : (acceptRequest r rest s).params = s.params := rfl
@[simp] theorem acceptRequest_opsel (r : Request) (rest : List Request) (s : State) : (acceptRequest r rest s).opsel = r.opsel := rfl
@[simp] theorem acceptRequest_a (r : Request) (rest : List Request) (s : State) : (acceptRequest r rest s).a = r.a := rfl
@[simp] theorem acceptRequest_b (r : Request) (rest : List Request) (s : State) : (acceptRequest r rest s).b = r.b := rfl
@[simp] theorem acceptRequest_buf (r : Request) (rest : List Request) (s : State) : (acceptRequest r rest s).buf = r.buf := rfl
@[simp] theorem acceptRequest_txd (r : Request) (rest : List Request) (s : State) : (acceptRequest r rest s).txd = r.txd := rfl
@[simp] theorem acceptRequest_cfgIn (r : Request) (rest : List Request) (s : State) : (acceptRequest r rest s).cfgIn = r.cfgIn := rfl
@[simp] theorem acceptRequest_fsm (r : Request) (rest : List Request) (s : State) : (acceptRequest r rest s).fsm = s.fsm := rfl
@[simp] theorem acceptRequest_pinsEn (r : Request) (rest : List Request) (s : State) : (acceptRequest r rest s).pinsEn = s.pinsEn := rfl
@[simp] theorem acceptRequest_csN (r : Request) (rest : List Request) (s : State) : (acceptRequest r rest s).csN = s.csN := rfl
@[simp] theorem acceptRequest_resetN (r : Request) (rest : List Request) (s : State) : (acceptRequest r rest s).resetN = s.resetN := rfl
@[simp] theorem acceptRequest_wpN (r : Request) (rest : List Request) (s : State) : (acceptRequest r rest s).wpN = s.wpN := rfl
@[simp] theorem acceptRequest_cfg (r : Request) (rest : List Request) (s : State) : (acceptRequest r rest s).cfg = s.cfg := rfl
@[simp] theorem acceptRequest_pollCount (r : Request) (rest : List Request) (s : State) : (acceptRequest r rest s).pollCount = s.pollCount := rfl
@[simp] theorem acceptRequest_pending (r : Request) (rest : List Request) (s : State) : (acceptRequest r rest s).pending = s.pending := rfl
@[simp] theorem acceptRequest_faults (r : Request) (rest : List Request) (s : State) : (acceptRequest r rest s).faults = s.faults := rfl
@[simp] theorem acceptRequest_aborted (r : Request) (rest : List Request) (s : State) : (acceptRequest r rest s).aborted = s.aborted := rfl
@[simp] theorem acceptRequest_trace (r : Request) (rest : List Request) (s : State) : (acceptRequest r rest s).trace = s.trace := rfl
@[simp] theorem acceptRequest_host (r : Request) (rest : List Request) (s : State) : (acceptRequest r rest s).host = rest := rfl
@[simp] theorem acceptRequest_resets (r : Request) (rest : List Request) (s : State) : (acceptRequest r rest s).resets = s.resets := rfl
@[simp] theorem acceptRequest_env (r : Request) (rest : List Request) (s : State) : (acceptRequest r rest s).env = s.env := rfl

end Sys2Proof.Machine
end

