-- ==== Sys2Proof/Laws/Memory.lean ====
section
/-! SUPPORT. Reads after writes, and that every memory operation keeps the canonical form. -/

namespace Sys2Proof.Machine

/-! ### One byte -/

/-- Reading past a cell put in front of cells at other addresses. -/
theorem Memory.read_cons (a : Nat) (v : Byte) (m : Memory) (x : Nat)
    (hm : x = a → Memory.read m x = Memory.blank) :
    Memory.read (Memory.cons a v m) x = if x = a then v else Memory.read m x := by
  unfold Memory.cons
  by_cases hv : v = Memory.blank
  · by_cases hx : x = a
    · simp [hv, hx, ← hm hx]
    · simp [hv, hx]
  · by_cases hx : x = a
    · simp [hv, hx, Memory.read]
    · simp [hv, hx, Memory.read, Ne.symm hx]

/-- Every address below a rising list's first reads as an unlisted one. -/
theorem Memory.read_below (m : Memory) (x : Nat) (h : ∀ c ∈ m, x < c.1) :
    Memory.read m x = Memory.blank := by
  induction m with
  | nil => rfl
  | cons c m ih =>
    have hc := h c (by simp)
    simp only [Memory.read, Nat.ne_of_gt hc, if_false]
    exact ih fun d hd => h d (by simp [hd])

/-- A byte written reads back, and every other address reads as before. -/
theorem Memory.read_write (m : Memory) (hm : Memory.wf m) (a : Nat) (v : Byte) (x : Nat) :
    Memory.read (Memory.write m a v) x = if x = a then v else Memory.read m x := by
  induction m with
  | nil => exact Memory.read_cons a v [] x fun _ => rfl
  | cons c m ih =>
    obtain ⟨y, w⟩ := c
    obtain ⟨hp, hb⟩ := hm
    rw [List.pairwise_cons] at hp
    have hlow : ∀ z, z ≤ y → Memory.read m z = Memory.blank := fun z hz =>
      Memory.read_below m z fun d hd => Nat.lt_of_le_of_lt hz (hp.1 d hd)
    unfold Memory.write
    split
    · rename_i hlt
      refine Memory.read_cons a v _ x fun hx => ?_
      subst hx
      simp only [Memory.read, Nat.ne_of_gt hlt, if_false]
      exact hlow x (Nat.le_of_lt hlt)
    · split
      · rename_i heq
        subst heq
        rw [Memory.read_cons a v m x fun hx => hx ▸ hlow a (Nat.le_refl a)]
        by_cases hx : x = a
        · simp [hx]
        · simp [hx, Memory.read, Ne.symm hx]
      · rename_i hne
        simp only [Memory.read, ih ⟨hp.2, fun d hd => hb d (by simp [hd])⟩]
        by_cases hx : y = x
        · subst hx
          simp [Ne.symm hne]
        · simp [hx]

/-- Cells of a written memory are the written one or old ones. -/
theorem Memory.mem_write {m : Memory} {a : Nat} {v : Byte} {c : Host.Cell}
    (h : c ∈ Memory.write m a v) : (c = (a, v) ∧ v ≠ Memory.blank) ∨ c ∈ m := by
  induction m with
  | nil =>
    by_cases hv : v = Memory.blank <;> simp_all [Memory.write, Memory.cons]
  | cons d m ih =>
    obtain ⟨y, w⟩ := d
    unfold Memory.write Memory.cons at h
    split at h
    · split at h
      · exact .inr h
      · rename_i hv
        rcases List.mem_cons.1 h with h | h
        · exact .inl ⟨h, hv⟩
        · exact .inr h
    · split at h
      · split at h
        · exact .inr (List.mem_cons_of_mem _ h)
        · rename_i hv
          rcases List.mem_cons.1 h with h | h
          · exact .inl ⟨h, hv⟩
          · exact .inr (List.mem_cons_of_mem _ h)
      · simp only [List.mem_cons] at h ⊢
        rcases h with h | h
        · exact .inr (.inl h)
        · rcases ih h with h | h
          · exact .inl h
          · exact .inr (.inr h)

/-- Writing keeps the canonical form. -/
theorem Memory.write_wf (m : Memory) (hm : Memory.wf m) (a : Nat) (v : Byte) :
    Memory.wf (Memory.write m a v) := by
  refine ⟨?_, fun c hc => ?_⟩
  · induction m with
    | nil => by_cases hv : v = Memory.blank <;> simp [Memory.write, Memory.cons, hv]
    | cons d m ih =>
      obtain ⟨y, w⟩ := d
      obtain ⟨hp, hb⟩ := hm
      have hp' := hp
      rw [List.pairwise_cons] at hp
      unfold Memory.write Memory.cons
      split
      · rename_i hlt
        split
        · exact hp'
        · refine List.pairwise_cons.2 ⟨fun c hc => ?_, hp'⟩
          rcases List.mem_cons.1 hc with rfl | hc
          · exact hlt
          · exact Nat.lt_trans hlt (hp.1 c hc)
      · split
        · rename_i heq
          subst heq
          split
          · exact hp.2
          · exact List.pairwise_cons.2 ⟨hp.1, hp.2⟩
        · rename_i hnlt hne
          refine List.pairwise_cons.2
            ⟨fun c hc => ?_, ih ⟨hp.2, fun d hd => hb d (by simp [hd])⟩⟩
          rcases Memory.mem_write hc with ⟨rfl, -⟩ | hc
          · simp only
            omega
          · exact hp.1 c hc
  · rcases Memory.mem_write hc with ⟨rfl, hv⟩ | hc
    · exact hv
    · exact hm.2 c hc

/-! ### The responder's spaces -/

/-- The address of a byte within its space. -/
def Space.addr : Space → Nat → Nat → Nat
  | .main, page, offset => mainAddr page offset
  | .buffer _, _, offset => offset

/-- A byte written in a space reads back there, and every other byte of every space reads as before. -/
theorem Chip.read_write (c : Chip) (hc : c.wf) (sp : Space) (page offset : Nat) (v : Byte)
    (sp' : Space) (page' offset' : Nat) :
    (c.write sp page offset v).read sp' page' offset' =
      if sp' = sp ∧ sp.addr page' offset' = sp.addr page offset then v
      else c.read sp' page' offset' := by
  obtain ⟨h0, h1, h2⟩ := hc
  rcases sp with _ | (_ | _) <;> rcases sp' with _ | (_ | _) <;>
    simp [Chip.write, Chip.read, Space.addr, Memory.read_write _ h0, Memory.read_write _ h1,
      Memory.read_write _ h2]

/-- Writing keeps the canonical form of every space. -/
theorem Chip.write_wf (c : Chip) (hc : c.wf) (sp : Space) (page offset : Nat) (v : Byte) :
    (c.write sp page offset v).wf := by
  obtain ⟨h0, h1, h2⟩ := hc
  rcases sp with _ | (_ | _)
  · exact ⟨Memory.write_wf _ h0 _ _, h1, h2⟩
  · exact ⟨h0, Memory.write_wf _ h1 _ _, h2⟩
  · exact ⟨h0, h1, Memory.write_wf _ h2 _ _⟩

/-- A write touches nothing of the responder but its memories. -/
theorem Chip.write_rest (c : Chip) (sp : Space) (page offset : Nat) (v : Byte) :
    (c.write sp page offset v).sel = c.sel ∧ (c.write sp page offset v).cmd = c.cmd ∧
    (c.write sp page offset v).ptr = c.ptr ∧
    (c.write sp page offset v).busyLeft = c.busyLeft ∧
    (c.write sp page offset v).comp = c.comp ∧
    (c.write sp page offset v).latency = c.latency ∧
    (c.write sp page offset v).statusLow = c.statusLow ∧
    (c.write sp page offset v).idBytes = c.idBytes := by
  rcases sp with _ | (_ | _) <;> simp [Chip.write]

/-- Filling a page one offset further. -/
theorem Chip.fillPage_succ (c : Chip) (sp : Space) (page n : Nat) (f : Chip → Nat → Byte) :
    c.fillPage sp page (n + 1) f =
      (c.fillPage sp page n f).write sp page n (f (c.fillPage sp page n f) n) := by
  simp [Chip.fillPage, List.range_succ]

/-- Filling a page keeps the canonical form. -/
theorem Chip.fillPage_wf (c : Chip) (hc : c.wf) (sp : Space) (page n : Nat)
    (f : Chip → Nat → Byte) : (c.fillPage sp page n f).wf := by
  induction n with
  | zero => exact hc
  | succ n ih =>
    rw [Chip.fillPage_succ]
    exact Chip.write_wf _ ih _ _ _ _

/-- Filling a page touches nothing of the responder but its memories. -/
theorem Chip.fillPage_rest (c : Chip) (sp : Space) (page n : Nat) (f : Chip → Nat → Byte) :
    (c.fillPage sp page n f).sel = c.sel ∧ (c.fillPage sp page n f).cmd = c.cmd ∧
    (c.fillPage sp page n f).ptr = c.ptr ∧
    (c.fillPage sp page n f).busyLeft = c.busyLeft ∧
    (c.fillPage sp page n f).comp = c.comp ∧
    (c.fillPage sp page n f).latency = c.latency ∧
    (c.fillPage sp page n f).statusLow = c.statusLow ∧
    (c.fillPage sp page n f).idBytes = c.idBytes := by
  induction n with
  | zero => simp [Chip.fillPage]
  | succ n ih =>
    rw [Chip.fillPage_succ]
    obtain ⟨h1, h2, h3, h4, h5, h6, h7, h8⟩ :=
      Chip.write_rest (c.fillPage sp page n f) sp page n (f (c.fillPage sp page n f) n)
    simp [h1, h2, h3, h4, h5, h6, h7, h8, ih]

/-- Reading after a page was filled with bytes that depend only on the offset and on what the filling
does not touch: the page holds them, everything else reads as before. -/
theorem Chip.read_fillPage (c : Chip) (hc : c.wf) (sp : Space) (page n : Nat)
    (f : Chip → Nat → Byte) (g : Nat → Byte) (hn : n ≤ 1024)
    (hf : ∀ k < n, f (c.fillPage sp page k f) k = g k)
    (sp' : Space) (page' offset' : Nat) (ho : offset' < 1024) :
    (c.fillPage sp page n f).read sp' page' offset' =
      if sp' = sp ∧ (sp = .main → page' = page) ∧ offset' < n then g offset'
      else c.read sp' page' offset' := by
  induction n with
  | zero => simp [Chip.fillPage]
  | succ n ih =>
    rw [Chip.fillPage_succ, Chip.read_write _ (Chip.fillPage_wf c hc sp page n f),
      hf n (Nat.lt_succ_self n),
      ih (by omega) fun k hk => hf k (by omega)]
    have key : sp.addr page' offset' = sp.addr page n ↔
        (sp = .main → page' = page) ∧ offset' = n := by
      rcases sp with _ | b
      · simp only [Space.addr, mainAddr, forall_const]
        omega
      · simp [Space.addr]
    simp only [key]
    by_cases h1 : sp' = sp
    · by_cases h2 : sp = .main → page' = page
      · rcases Nat.lt_trichotomy offset' n with h3 | h3 | h3
        · simp [h1, h3, Nat.ne_of_lt h3, Nat.lt_succ_of_lt h3]
        · simp [h1, h3]
        · have : ¬ offset' < n + 1 := by omega
          simp [h1, Nat.ne_of_gt h3, Nat.lt_asymm h3, this]
      · simp [h1, h2]
    · simp [h1]

end Sys2Proof.Machine
end

