-- ==== Sys2Proof/Laws/Env.lean ====
section
/-! SUPPORT. The environment keeps its memories in canonical form, and reports an error only in an
instance with an error line. -/

namespace Sys2Proof.Machine

/-- A chip that differs outside its memories only. -/
theorem Chip.wf_of_mem {c c' : Chip} (h : c.wf) (h0 : c'.mem = c.mem) (h1 : c'.buf1 = c.buf1)
    (h2 : c'.buf2 = c.buf2) : c'.wf := by
  simpa [Chip.wf, h0, h1, h2] using h

/-- Erasing a page keeps the canonical form. -/
theorem Chip.erasePage_wf (p : Params) (page : Nat) (c : Chip) (h : c.wf) : (c.erasePage p page).wf :=
  Chip.fillPage_wf c h _ _ _ _

/-- Erasing several pages keeps the canonical form. -/
theorem Chip.erasePages_wf (p : Params) (f : Nat → Nat) (l : List Nat) (c : Chip) (h : c.wf) :
    (l.foldl (fun c i => c.erasePage p (f i)) c).wf := by
  induction l generalizing c with
  | nil => exact h
  | cons i l ih => exact ih _ (Chip.erasePage_wf p _ c h)

/-- The effect of a triggered command keeps the canonical form. -/
theorem Chip.effect_wf {p : Params} {k : Command} {a : Nat} {c c' : Chip} (h : c.wf)
    (he : c.effect p k a = some c') : c'.wf := by
  unfold Chip.effect at he
  cases k <;> simp only [Option.some.injEq, reduceCtorEq] at he <;> subst he
  · exact Chip.fillPage_wf _ h _ _ _ _
  · exact Chip.fillPage_wf _ h _ _ _ _
  · exact Chip.fillPage_wf _ h _ _ _ _
  · exact Chip.wf_of_mem h rfl rfl rfl
  · exact Chip.erasePage_wf _ _ _ h
  · exact Chip.erasePages_wf _ _ _ _ h
  · exact h

/-- What waits in CMD for chip-select to go high keeps the canonical form. -/
theorem Chip.triggered_wf {p : Params} {c c' : Chip} (h : c.wf) (he : c.triggered p = some c') :
    c'.wf := by
  unfold Chip.triggered at he
  split at he
  · cases he
    exact ⟨⟨List.Pairwise.nil, by simp⟩, h.2.1, h.2.2⟩
  · split at he
    · split at he
      · exact Chip.effect_wf h he
      · cases he
    · cases he

/-- A pin or delay event keeps the canonical form. -/
theorem Chip.onLine_wf (p : Params) (ev : Event) (c : Chip) (h : c.wf) : (c.onLine p ev).wf := by
  unfold Chip.onLine
  split
  · split
    · exact h
    · exact Chip.wf_of_mem h rfl rfl rfl
  · split
    · split
      · rename_i c' hc'
        exact Chip.wf_of_mem (Chip.triggered_wf h hc') rfl rfl rfl
      · exact Chip.wf_of_mem h rfl rfl rfl
    · exact h
  · exact Chip.wf_of_mem h rfl rfl rfl
  · exact h

/-- The next stream position is outside the memories. -/
theorem Chip.nextPosition_mem (p : Params) (c : Chip) :
    (c.nextPosition p).mem = c.mem ∧ (c.nextPosition p).buf1 = c.buf1 ∧
    (c.nextPosition p).buf2 = c.buf2 := by
  unfold Chip.nextPosition
  split <;> simp

/-- A byte of the data phase keeps the canonical form. -/
theorem Chip.data_wf (p : Params) (k : Command) (t : Byte) (c : Chip) (h : c.wf) :
    (Chip.data p k t c).2.wf := by
  obtain ⟨h0, h1, h2⟩ := Chip.nextPosition_mem p c
  cases k with
  | bufWrite b =>
    exact Chip.wf_of_mem (Chip.write_wf c h c.ptr.space c.ptr.page c.ptr.offset t) rfl rfl rfl
  | contReadLow => exact Chip.wf_of_mem h h0 h1 h2
  | contReadHigh => exact Chip.wf_of_mem h h0 h1 h2
  | _ => exact Chip.wf_of_mem h rfl rfl rfl

/-- A byte after the opcode keeps the canonical form. -/
theorem Chip.afterOpcode_wf (p : Params) (k : Command) (n : Nat) (t : Byte) (c : Chip) (h : c.wf) :
    (Chip.afterOpcode p k n t c).2.wf := by
  unfold Chip.afterOpcode
  split
  · exact Chip.wf_of_mem h rfl rfl rfl
  · exact h
  · split
    · split
      · exact h
      · split
        · exact Chip.wf_of_mem h rfl rfl rfl
        · split
          · exact h
          · exact Chip.data_wf _ _ _ _ h
    · exact h

/-- A transfer keeps the canonical form. -/
theorem Chip.xfer_wf (p : Params) (t : Byte) (c : Chip) (h : c.wf) : (c.xfer p t).2.wf := by
  unfold Chip.xfer
  split
  · split
    · exact Chip.wf_of_mem h rfl rfl rfl
    · rename_i op rest hcmd
      simp only
      have h' : Chip.wf { c with cmd := op :: rest ++ [t] } := Chip.wf_of_mem h rfl rfl rfl
      split
      · exact h'
      · exact Chip.afterOpcode_wf _ _ _ _ _ h'
  · exact h

/-- A transfer keeps the environment's memories in canonical form. -/
theorem Env.xfer_wf (p : Params) (t : Byte) (e : Env) (h : e.wf) : (e.xfer p t).2.wf := by
  rcases e with ⟨_ | _, _, _⟩ | c
  · exact trivial
  · exact trivial
  · exact Chip.xfer_wf p t c h

/-- A pin or delay primitive keeps the environment's memories in canonical form. -/
theorem Env.line_wf (p : Params) (ev : Event) (e : Env) (h : e.wf) : (e.line p ev).2.wf := by
  rcases e with ⟨_, lines, _⟩ | c
  · rcases hp : p.hasXferErr with _ | _ <;> rcases lines with _ | ⟨_, _⟩ <;>
      simp [Env.line, hp, Env.wf]
  · exact Chip.onLine_wf p ev c h

/-- A transfer fails only where there is an error line. -/
theorem Env.xfer_error {p : Params} {t : Byte} {e : Env} {c : ErrCode}
    (h : (e.xfer p t).1 = .error c) : p.hasXferErr = true := by
  rcases e with ⟨_ | _, _, _⟩ | _ <;> rcases hp : p.hasXferErr <;>
    simp_all [Env.xfer, Answer.outcome]

/-- A pin or delay primitive fails only where there is an error line. -/
theorem Env.line_error {p : Params} {ev : Event} {e : Env} {c : ErrCode}
    (h : (e.line p ev).1 = some c) : p.hasXferErr = true := by
  rcases e with ⟨_, _, _⟩ | _ <;> rcases hp : p.hasXferErr <;> simp_all [Env.line]

end Sys2Proof.Machine
end

