-- ==== Sys2Proof/Laws/Quiet.lean ====
section
/-! SUPPORT. What each composite does in a quiet state (no error line, no reset on its way): it succeeds,
the environment answers exactly its drives, and the latches take the values its rule gives. -/

namespace Sys2Proof.Machine

/-! ### Running pieces one after another -/

/-- A piece that succeeds hands its state to the next. -/
theorem bind_ok {α β : Type} {m : Act α} {f : α → Act β} {s t : State} {x : α}
    (h : m.run s = .ok x t) : (m >>= f).run s = (f x).run t := by
  simp only [EStateM.run] at h ⊢
  simp [bind, EStateM.bind, h]

/-- A piece that succeeds, and what the rest makes of its state. -/
theorem run_bind {α β : Type} {m : Act α} {f : α → Act β} {s t : State} {x : α}
    {r : EStateM.Result Stop State β} (h : m.run s = .ok x t) (k : (f x).run t = r) :
    (m >>= f).run s = r := (bind_ok h).trans k

/-- `modify` changes the state and succeeds. -/
@[simp] theorem modify_run (f : State → State) (s : State) :
    (modify f : Act Unit).run s = .ok () (f s) := rfl

/-- `get` gives the state. -/
@[simp] theorem get_run (s : State) : (get : Act State).run s = .ok s s := rfl

/-- `pure` gives its value. -/
@[simp] theorem pure_run {α : Type} (x : α) (s : State) : (pure x : Act α).run s = .ok x s := rfl

/-- `setFsm` sets FSM. -/
@[simp] theorem setFsm_run (f : Fsm) (s : State) :
    (setFsm f).run s = .ok () { s with fsm := f } := rfl

/-- `getParams` gives the parameters. -/
@[simp] theorem getParams_run (s : State) : getParams.run s = .ok s.params s := rfl

/-- `countPoll` counts one status byte. -/
@[simp] theorem countPoll_run (s : State) :
    countPoll.run s = .ok () { s with pollCount := s.pollCount + 1 } := rfl

/-- `startWait` sets BUSY_WAIT and clears POLL_COUNT. -/
@[simp] theorem startWait_run (s : State) :
    startWait.run s = .ok () { s with fsm := .busyWait, pollCount := 0 } := rfl

/-- An operation that runs to its end. -/
theorem settle_ok {m : Act Unit} {s t : State} (h : m.run s = .ok () t) : settle m s = t := by
  simp [settle, h]

/-! ### Playing drives -/

/-- Drives in two parts. -/
theorem Env.play_append (p : Params) (ds ds' : List Drive) (e : Env) :
    Env.play p (ds ++ ds') e =
      ⟨(Env.play p ds e).events ++ (Env.play p ds' (Env.play p ds e).env).events,
       (Env.play p ds e).rx ++ (Env.play p ds' (Env.play p ds e).env).rx,
       (Env.play p ds' (Env.play p ds e).env).env⟩ := by
  induction ds generalizing e with
  | nil => simp [Env.play]
  | cons d ds ih => cases d <;> simp [Env.play, ih]

/-- Driving in two parts. -/
theorem State.after_after (s : State) (ds ds' : List Drive) :
    (s.after ds).after ds' = s.after (ds ++ ds') := by
  simp [State.after, Env.play_append]

/-- Driving nothing. -/
@[simp] theorem State.after_nil (s : State) : s.after [] = s := by
  simp [State.after, Env.play]

/-- What is heard in two parts. -/
theorem State.heard_append (s : State) (ds ds' : List Drive) :
    s.heard (ds ++ ds') = s.heard ds ++ (s.after ds).heard ds' := by
  simp [State.heard, State.after, Env.play_append]

/-- Without an error line no transfer fails. -/
theorem Env.xfer_ok {p : Params} (h : p.hasXferErr = false) (t : Byte) (e : Env) :
    e.xfer p t = (.ok (received (e.xfer p t).1), (e.xfer p t).2) := by
  rcases e with ⟨_ | _, _, _⟩ | _ <;> simp [Env.xfer, Answer.outcome, h, received]

/-- Without an error line no pin or delay primitive fails. -/
theorem Env.line_ok {p : Params} (h : p.hasXferErr = false) (ev : Event) (e : Env) :
    e.line p ev = (none, (e.line p ev).2) := by
  rcases e with ⟨_, _, _⟩ | _ <;> simp [Env.line, h]

/-! ### Primitives -/

/-- No reset arrives. -/
theorem tick_quiet {s : State} (h : s.Quiet) : tick.run s = .ok () s := by
  simp [EStateM.run, tick, h.2]

/-- A pin or delay primitive. -/
theorem lineOp_quiet {s : State} (h : s.Quiet) (ev : Event) (latch : State → State) :
    (lineOp ev latch).run s = .ok () (latch (s.after [.line ev])) := by
  have ha : (askLine ev).run s = .ok () { s with env := (s.env.line s.params ev).2 } := by
    simp only [EStateM.run, askLine]
    rw [Env.line_ok h.1]
  unfold lineOp
  rw [bind_ok (tick_quiet h), bind_ok ha]
  rfl

/-- A byte transfer. -/
theorem xfer_quiet {s : State} (h : s.Quiet) (t : Byte) :
    (xfer t).run s = .ok (s.lastHeard [.send t]) (s.after [.send t]) := by
  unfold xfer
  rw [bind_ok (tick_quiet h)]
  simp only [EStateM.run, answerXfer]
  rw [Env.xfer_ok h.1]
  rfl

/-- A response. -/
theorem respond_quiet {s : State} (h : s.Quiet) (r : Response) :
    (respond r).run s = .ok () (s.emit (.resp r)) := by
  unfold respond
  rw [bind_ok (tick_quiet h)]
  rfl

theorem csDeassert_quiet {s : State} (h : s.Quiet) :
    csDeassert.run s = .ok () { s.after [.line (.cs true)] with csN := true } := lineOp_quiet h _ _

theorem csAssert_quiet {s : State} (h : s.Quiet) :
    csAssert.run s = .ok () { s.after [.line (.cs false)] with csN := false } := lineOp_quiet h _ _

theorem rstLow_quiet {s : State} (h : s.Quiet) :
    rstLow.run s = .ok () { s.after [.line (.rst false)] with resetN := false } := lineOp_quiet h _ _

theorem rstHigh_quiet {s : State} (h : s.Quiet) :
    rstHigh.run s = .ok () { s.after [.line (.rst true)] with resetN := true } := lineOp_quiet h _ _

theorem wpDrive_quiet {s : State} (h : s.Quiet) (v : Bool) :
    (wpDrive v).run s = .ok () { s.after [.line (.wp v)] with wpN := v } := lineOp_quiet h _ _

theorem pinsEnable_quiet {s : State} (h : s.Quiet) :
    pinsEnable.run s = .ok () { s.after [.line (.pins true)] with pinsEn := true } :=
  lineOp_quiet h _ _

theorem delayUs_quiet {s : State} (h : s.Quiet) (n : Nat) :
    (delayUs n).run s = .ok () (s.after [.line (.delayUs n)]) := lineOp_quiet h _ _

/-! ### Composites -/

/-- The delay inside a pulse, where there is one. -/
theorem csHighDelay_quiet {s : State} (h : s.Quiet) :
    csHighDelay.run s =
      .ok () (s.after (csHighDrives s.params)) := by
  unfold csHighDelay csHighDrives
  refine run_bind (getParams_run _) ?_
  by_cases hc : 0 < s.params.tCsHigh
  · simp only [hc, if_true, delayUs_quiet h]
  · simp only [hc, if_false, pure_run, State.after_nil]

/-- `pulse()` leaves chip-select asserted (R102). -/
theorem pulse_quiet {s : State} (h : s.Quiet) :
    pulse.run s = .ok () { s.after (pulseDrives s.params) with csN := false } := by
  unfold pulse
  refine run_bind (csDeassert_quiet h) ?_
  refine run_bind (csHighDelay_quiet (by exact ⟨h.1, h.2⟩)) ?_
  refine (csAssert_quiet (by exact ⟨h.1, h.2⟩)).trans ?_
  simp [pulseDrives, State.after, Env.play_append, Env.play]

/-- Sending bytes changes no latch (R103). -/
theorem sendBytes_quiet {s : State} (h : s.Quiet) (bytes : List Byte) :
    (sendBytes bytes).run s = .ok () (s.after (bytes.map .send)) := by
  induction bytes generalizing s with
  | nil => simp [sendBytes]
  | cons t ts ih =>
    unfold sendBytes
    refine run_bind (xfer_quiet h t) ?_
    refine (ih (by exact ⟨h.1, h.2⟩)).trans ?_
    rw [State.after_after]
    rfl

/-- FSM after `frame`: FRAMING, or still BUSY_WAIT inside the synchroniser (R103). -/
def framed (f : Fsm) : Fsm := if f = .busyWait then .busyWait else .framing

/-- R103's change of FSM. -/
theorem enterFraming_run (s : State) :
    enterFraming.run s = .ok () { s with fsm := framed s.fsm } := by
  by_cases hf : s.fsm = .busyWait
  · simp only [enterFraming, modify_run, framed, hf, if_true]
    rw [← hf]
  · simp [enterFraming, framed, hf]

/-- `frame(bytes)` (R103). -/
theorem frame_quiet {s : State} (h : s.Quiet) (bytes : List Byte) :
    (frame bytes).run s =
      .ok () { s.after (frameDrives s.params bytes) with csN := false, fsm := framed s.fsm } := by
  unfold frame
  refine run_bind (pulse_quiet h) ?_
  refine run_bind (enterFraming_run _) ?_
  refine (sendBytes_quiet (by exact ⟨h.1, h.2⟩) _).trans ?_
  simp [frameDrives, State.after, Env.play_append]

/-- `status_txn()` (R121): the byte is the last one received, and chip-select ends deasserted. -/
theorem statusTxn_quiet {s : State} (h : s.Quiet) :
    statusTxn.run s = .ok (s.lastHeard (statusDrives s.params))
      { s.after (statusDrives s.params) with csN := true, fsm := framed s.fsm } := by
  unfold statusTxn
  refine run_bind (getParams_run _) ?_
  refine run_bind (frame_quiet h _) ?_
  refine run_bind (xfer_quiet (by exact ⟨h.1, h.2⟩) _) ?_
  refine run_bind (csDeassert_quiet (by exact ⟨h.1, h.2⟩)) ?_
  simp [statusDrives, State.after, State.lastHeard, State.heard, Env.play_append, Env.play,
    Params.opcode]

/-- What an operation drives after its synchroniser returned: COMPARE reads status once more (R170). -/
def afterDrives (p : Params) : Waiter → List Drive
  | .done => []
  | .compare => statusDrives p

/-- The response of an operation whose synchroniser has returned (R124, R160, R170). -/
def waiterResponse (w : Waiter) (s : State) : Response :=
  match w with
  | .done => .done
  | .compare => .bool (compareMatch (s.lastHeard (statusDrives s.params)))

/-- After the synchroniser: FSM is IDLE and the response is given. -/
theorem afterWait_quiet {s : State} (h : s.Quiet) (hc : s.csN = true) (w : Waiter) :
    (afterWait w).run s =
      .ok () (({ s.after (afterDrives s.params w) with fsm := .idle } : State).emit
        (.resp (waiterResponse w s))) := by
  cases w with
  | done =>
    unfold afterWait
    refine run_bind (setFsm_run _ _) ?_
    refine (respond_quiet (by exact ⟨h.1, h.2⟩) _).trans ?_
    simp [afterDrives, waiterResponse]
  | compare =>
    unfold afterWait
    refine run_bind (setFsm_run _ _) ?_
    refine run_bind (statusTxn_quiet (by exact ⟨h.1, h.2⟩)) ?_
    refine run_bind (setFsm_run _ _) ?_
    refine (respond_quiet (by exact ⟨h.1, h.2⟩) _).trans ?_
    simp [afterDrives, waiterResponse, State.after, State.lastHeard, State.heard, hc]

/-- The delay after a busy byte, where there is one (R123). -/
theorem pollGap_quiet {s : State} (h : s.Quiet) :
    pollGap.run s = .ok () (s.after (gapDrives s.params)) := by
  unfold pollGap gapDrives
  refine run_bind (getParams_run _) ?_
  by_cases hc : 0 < s.params.pollInterval
  · simp only [hc, if_true, delayUs_quiet h]
  · simp only [hc, if_false, pure_run, State.after_nil]

/-- After a busy byte the operation stays in progress (R123). -/
theorem park_quiet {s : State} (h : s.Quiet) (w : Waiter) :
    (park w).run s = .ok () { s.after (gapDrives s.params) with pending := some w } := by
  unfold park
  refine run_bind (pollGap_quiet h) ?_
  rw [modify_run]

/-- One turn of the synchroniser's loop on a ready byte: the operation ends (R123). -/
theorem pollOnce_ready {s : State} (h : s.Quiet)
    (w : Waiter) (hr : ready (s.lastHeard (nextPollDrives s.params s.pollContinuous)) = true) :
    (pollOnce w).run s =
      .ok () (({ s.after (nextPollDrives s.params s.pollContinuous ++
            closeDrives s.pollContinuous ++ afterDrives s.params w) with
          fsm := .idle, csN := true, pollCount := s.pollCount + 1 } : State).emit
        (.resp (waiterResponse w
          (s.after (nextPollDrives s.params s.pollContinuous ++ closeDrives s.pollContinuous))))) := by
  unfold pollOnce
  refine run_bind (get_run _) ?_
  by_cases hp : s.pollContinuous = true
  · simp only [hp, if_true, nextPollDrives, closeDrives] at hr ⊢
    unfold pollContinuous
    refine run_bind (getParams_run _) ?_
    refine run_bind (xfer_quiet h _) ?_
    refine run_bind (countPoll_run _) ?_
    simp only [hr, if_true]
    unfold closeAndEnd
    refine run_bind (csDeassert_quiet (by exact ⟨h.1, h.2⟩)) ?_
    refine (afterWait_quiet (by exact ⟨h.1, h.2⟩) (by rfl) w).trans ?_
    cases w <;>
      simp [State.after, afterDrives, waiterResponse, State.lastHeard, State.heard,
        Env.play, State.emit]
  · simp only [hp, nextPollDrives, closeDrives] at hr ⊢
    simp only [Bool.false_eq_true, if_false] at hr ⊢
    unfold pollReselect
    refine run_bind (statusTxn_quiet h) ?_
    refine run_bind (countPoll_run _) ?_
    simp only [hr, if_true]
    refine (afterWait_quiet (by exact ⟨h.1, h.2⟩) (by rfl) w).trans ?_
    cases w <;>
      simp [State.after, afterDrives, waiterResponse, State.lastHeard, State.heard,
        Env.play_append, Env.play, State.emit]

/-- One turn of the synchroniser's loop on a busy byte: the operation stays in progress (R123). -/
theorem pollOnce_busy {s : State} (h : s.Quiet) (hf : s.fsm = .busyWait) (w : Waiter)
    (hr : ready (s.lastHeard (nextPollDrives s.params s.pollContinuous)) = false) :
    (pollOnce w).run s =
      .ok () { s.after (nextPollDrives s.params s.pollContinuous ++ gapDrives s.params) with
        csN := if s.pollContinuous then s.csN else true
        pollCount := s.pollCount + 1, pending := some w } := by
  unfold pollOnce
  refine run_bind (get_run _) ?_
  by_cases hp : s.pollContinuous = true
  · simp only [hp, if_true, nextPollDrives] at hr ⊢
    unfold pollContinuous
    refine run_bind (getParams_run _) ?_
    refine run_bind (xfer_quiet h _) ?_
    refine run_bind (countPoll_run _) ?_
    simp only [hr, Bool.false_eq_true, if_false]
    refine (park_quiet (by exact ⟨h.1, h.2⟩) w).trans ?_
    simp [State.after, Env.play]
  · simp only [hp, nextPollDrives, Bool.false_eq_true, if_false] at hr ⊢
    unfold pollReselect
    refine run_bind (statusTxn_quiet h) ?_
    refine run_bind (countPoll_run _) ?_
    simp only [hr, Bool.false_eq_true, if_false]
    refine (park_quiet (by exact ⟨h.1, h.2⟩) w).trans ?_
    simp [State.after, Env.play_append, hf, framed]

end Sys2Proof.Machine
end

