-- ==== Sys2Proof/Laws/Exec.lean ====
section
/-! SUPPORT. What is accepted and what refused, and what the shapes shared by whole families of
operations leave in a quiet state. -/

namespace Sys2Proof.Machine

/-! ### Accepting and refusing -/

/-- An accepted operation answers the state its events leave. -/
theorem accepted_next {i : Instr} {s : State} (h : misuse i s = none) (m : Act Unit) :
    accepted i m s = .next (settle m s) := by
  simp [accepted, h]

/-- An accepted operation that runs to its end. -/
theorem accepted_ok {i : Instr} {s t : State} {m : Act Unit} (h : misuse i s = none)
    (hm : m.run s = .ok () t) : accepted i m s = .next t := by
  rw [accepted_next h, settle_ok hm]

/-- When an operation is accepted (R213). -/
theorem misuse_none {i : Instr} {s : State} :
    misuse i s = none ↔ s.pending = none ∧ s.allows i = true ∧ i.wellFormed s.params = true := by
  unfold misuse operandsInRange
  rcases hp : s.pending with _ | w
  · rcases ha : s.allows i <;> rcases hw : i.wellFormed s.params <;> simp
  · simp

/-- `accepted` answers a next state only for an accepted operation. -/
theorem accepted_eq_next {i : Instr} {s t : State} {m : Act Unit} :
    accepted i m s = .next t ↔ misuse i s = none ∧ settle m s = t := by
  unfold accepted
  cases misuse i s <;> simp

/-- `accepted` never answers a fault. -/
theorem accepted_ne_fault (i : Instr) (m : Act Unit) (s : State) (f : Fault) :
    accepted i m s ≠ .fault f := by
  unfold accepted
  cases misuse i s <;> simp

/-- A command whose operands are in range is accepted where commands are (R16). -/
theorem misuse_command {i : Instr} {s : State} (hs : s.CommandReady)
    (hl : ∀ f, f = .idle ∨ f = .selectedBare → legalFrom i f = true)
    (hw : i.wellFormed s.params = true) : misuse i s = none :=
  misuse_none.2 ⟨hs.1, by simp [State.allows, hs.2.1, hl s.fsm hs.2.2], hw⟩

/-- FSM is not BUSY_WAIT where commands are accepted. -/
theorem State.CommandReady.framed {s : State} (hs : s.CommandReady) : framed s.fsm = .framing := by
  rcases hs.2.2 with h | h <;> simp [Machine.framed, h]

/-! ### Hearing -/

/-- The last byte heard, when the last part hears something. -/
theorem State.lastHeard_append (s : State) (ds ds' : List Drive)
    (h : (s.after ds).heard ds' ≠ []) :
    s.lastHeard (ds ++ ds') = (s.after ds).lastHeard ds' := by
  unfold State.lastHeard
  rw [State.heard_append]
  rcases List.eq_nil_or_concat ((s.after ds).heard ds') with h' | ⟨l, x, h'⟩
  · exact absurd h' h
  · simp [h']

/-- A line drive is not heard. -/
theorem State.heard_line (s : State) (ds : List Drive) (ev : Event) :
    s.heard (ds ++ [.line ev]) = s.heard ds := by
  simp [State.heard, Env.play_append, Env.play]

/-- Every poll hears something. -/
theorem State.heard_nextPoll (s : State) (p : Params) (c : Bool) (hp : s.params = p) :
    s.heard (nextPollDrives p c) ≠ [] := by
  subst hp
  cases c
  · simp [nextPollDrives, State.heard, statusDrives, Env.play_append, Env.play]
  · simp [nextPollDrives, State.heard, Env.play]

/-! ### Shapes of operations -/

/-- R104(a): a stream-arming operation. -/
theorem armStream_quiet {s : State} (h : s.Quiet) (bytes : List Byte) :
    (armStream bytes).run s =
      .ok () (({ s.after (frameDrives s.params bytes) with csN := false, fsm := .armedStream } :
        State).emit (.resp .done)) := by
  unfold armStream
  refine run_bind (frame_quiet h bytes) ?_
  refine run_bind (setFsm_run _ _) ?_
  exact respond_quiet (by exact ⟨h.1, h.2⟩) _

/-- R104(d): a power operation. -/
theorem frameAndDelay_quiet {s : State} (h : s.Quiet) (bytes : List Byte) (n : Nat) :
    (frameAndDelay bytes n).run s =
      .ok () (({ s.after (frameDrives s.params bytes ++ [.line (.cs true), .line (.delayUs n)]) with
        csN := true, fsm := .idle } : State).emit (.resp .done)) := by
  unfold frameAndDelay
  refine run_bind (frame_quiet h bytes) ?_
  refine run_bind (csDeassert_quiet (by exact ⟨h.1, h.2⟩)) ?_
  refine run_bind (delayUs_quiet (by exact ⟨h.1, h.2⟩) _) ?_
  refine run_bind (setFsm_run _ _) ?_
  refine (respond_quiet (by exact ⟨h.1, h.2⟩) _).trans ?_
  simp [State.after, Env.play_append, Env.play]

/-- What CONTINUOUS mode drives before its first status byte (R123). -/
def openDrives (p : Params) (continuous : Bool) : List Drive :=
  if continuous then frameDrives p [p.opStatus] else []

/-- The first poll is the opening of the transaction, if any, and a poll like every other. -/
theorem firstPollDrives_eq (p : Params) (c : Bool) :
    firstPollDrives p c = openDrives p c ++ nextPollDrives p c := by
  cases c <;> simp [firstPollDrives, openDrives, nextPollDrives]

/-- Opening the status transaction: chip-select is as every poll finds it. -/
theorem openStatus_quiet {s : State} (h : s.Quiet) (hf : s.fsm = .busyWait) :
    openStatus.run s =
      .ok () { s.after (openDrives s.params s.pollContinuous) with
        csN := if s.pollContinuous then false else s.csN } := by
  unfold openStatus openDrives
  refine run_bind (get_run _) ?_
  by_cases hc : s.pollContinuous = true
  · simp only [hc, if_true]
    refine (frame_quiet h _).trans ?_
    simp [framed, hf, Params.opcode]
  · simp [hc]

/-- `wait_ready` on a chip that is ready at the first status byte, and what follows it (R123). -/
theorem waitReady_ready {s : State} (h : s.Quiet) (w : Waiter)
    (hr : ready (s.lastHeard (firstPollDrives s.params s.pollContinuous)) = true) :
    (waitReady w).run s =
      .ok () (({ s.after (firstPollDrives s.params s.pollContinuous ++
            closeDrives s.pollContinuous ++ afterDrives s.params w) with
          fsm := .idle, csN := true, pollCount := 1 } : State).emit
        (.resp (waiterResponse w
          (s.after (firstPollDrives s.params s.pollContinuous ++ closeDrives s.pollContinuous))))) := by
  rw [firstPollDrives_eq, State.lastHeard_append s _ _ (State.heard_nextPoll _ s.params _ rfl)] at hr
  unfold waitReady
  refine run_bind (startWait_run _) ?_
  refine run_bind (openStatus_quiet (by exact ⟨h.1, h.2⟩) rfl) ?_
  refine (pollOnce_ready (by exact ⟨h.1, h.2⟩) w (by exact hr)).trans ?_
  rw [firstPollDrives_eq]
  cases w <;>
    simp [State.after, State.pollContinuous, afterDrives, waiterResponse, State.lastHeard,
      State.heard, Env.play_append, State.emit]

/-- `wait_ready` on a chip that is busy at the first status byte (R123). -/
theorem waitReady_busy {s : State} (h : s.Quiet) (w : Waiter)
    (hr : ready (s.lastHeard (firstPollDrives s.params s.pollContinuous)) = false) :
    (waitReady w).run s =
      .ok () { s.after (firstPollDrives s.params s.pollContinuous ++ gapDrives s.params) with
        fsm := .busyWait, csN := !s.pollContinuous, pollCount := 1, pending := some w } := by
  rw [firstPollDrives_eq, State.lastHeard_append s _ _ (State.heard_nextPoll _ s.params _ rfl)] at hr
  unfold waitReady
  refine run_bind (startWait_run _) ?_
  refine run_bind (openStatus_quiet (by exact ⟨h.1, h.2⟩) rfl) ?_
  refine (pollOnce_busy (by exact ⟨h.1, h.2⟩) (by rfl) w (by exact hr)).trans ?_
  rw [firstPollDrives_eq]
  cases hp : s.pollContinuous <;>
    simp_all [State.after, State.pollContinuous, Env.play_append]

/-- Every first poll hears something. -/
theorem State.heard_firstPoll (s : State) (p : Params) (c : Bool) (hp : s.params = p) :
    s.heard (firstPollDrives p c) ≠ [] := by
  rw [firstPollDrives_eq, State.heard_append]
  simp only [ne_eq, List.append_eq_nil_iff, not_and]
  exact fun _ => State.heard_nextPoll _ p c (by simp [hp])

/-- `triggered` (R160) up to its synchroniser. -/
theorem triggered_run {s : State} (h : s.Quiet) (bytes : List Byte) (w : Waiter) :
    (triggered bytes w).run s =
      (waitReady w).run { s.after (triggerDrives s.params bytes) with
        csN := false, fsm := framed s.fsm } := by
  unfold triggered
  refine run_bind (frame_quiet h bytes) ?_
  refine run_bind (pulse_quiet (by exact ⟨h.1, h.2⟩)) ?_
  simp [triggerDrives, State.after, Env.play_append]

/-- A triggered operation whose first status byte is ready (R160). -/
theorem triggered_ready {s : State} (h : s.Quiet) (bytes : List Byte) (w : Waiter)
    (hr : ready (s.lastHeard (triggerDrives s.params bytes ++
      firstPollDrives s.params s.pollContinuous)) = true) :
    (triggered bytes w).run s =
      .ok () (({ s.after (triggerDrives s.params bytes ++
            firstPollDrives s.params s.pollContinuous ++
            closeDrives s.pollContinuous ++ afterDrives s.params w) with
          fsm := .idle, csN := true, pollCount := 1 } : State).emit
        (.resp (waiterResponse w (s.after (triggerDrives s.params bytes ++
          firstPollDrives s.params s.pollContinuous ++ closeDrives s.pollContinuous))))) := by
  rw [State.lastHeard_append s _ _ (State.heard_firstPoll _ s.params _ rfl)] at hr
  rw [triggered_run h]
  refine (waitReady_ready (by exact ⟨h.1, h.2⟩) w (by exact hr)).trans ?_
  cases w <;>
    simp [State.after, State.pollContinuous, afterDrives, waiterResponse, State.lastHeard,
      State.heard, Env.play_append, State.emit]

/-- A triggered operation whose first status byte is busy (R160). -/
theorem triggered_busy {s : State} (h : s.Quiet) (bytes : List Byte) (w : Waiter)
    (hr : ready (s.lastHeard (triggerDrives s.params bytes ++
      firstPollDrives s.params s.pollContinuous)) = false) :
    (triggered bytes w).run s =
      .ok () { s.after (triggerDrives s.params bytes ++
          firstPollDrives s.params s.pollContinuous ++ gapDrives s.params) with
        fsm := .busyWait, csN := !s.pollContinuous, pollCount := 1, pending := some w } := by
  rw [State.lastHeard_append s _ _ (State.heard_firstPoll _ s.params _ rfl)] at hr
  rw [triggered_run h]
  refine (waitReady_busy (by exact ⟨h.1, h.2⟩) w (by exact hr)).trans ?_
  simp [State.after, State.pollContinuous, Env.play_append]

end Sys2Proof.Machine
end

