-- ==== Sys2Proof/Laws/Pieces.lean ====
section
/-! SUPPORT. What an operation can do, whatever the environment answers and whenever the reset input
arrives: one inversion lemma for every operation (`exec_whole`, `settle_cases`), put together from its pieces. -/

namespace Sys2Proof.Machine

/-! ### What no piece of an operation changes -/

/-- The fields no operation changes but by a transport error or block reset, and the trace and the
environment, which only move on. -/
structure Onward (s t : State) (evs : List Event) : Prop where
  params : t.params = s.params
  opsel : t.opsel = s.opsel
  a : t.a = s.a
  b : t.b = s.b
  buf : t.buf = s.buf
  txd : t.txd = s.txd
  cfgIn : t.cfgIn = s.cfgIn
  host : t.host = s.host
  faults : t.faults = s.faults
  wf : s.env.wf → t.env.wf
  trace : t.trace = s.trace ++ evs
  never : s.resets = [] → t.resets = []

/-- Nothing done. -/
theorem Onward.refl (s : State) : Onward s s [] := by
  constructor <;> simp

/-- One thing after another. -/
theorem Onward.trans {s t u : State} {es fs : List Event} (h : Onward s t es) (k : Onward t u fs) :
    Onward s u (es ++ fs) where
  params := k.params.trans h.params
  opsel := k.opsel.trans h.opsel
  a := k.a.trans h.a
  b := k.b.trans h.b
  buf := k.buf.trans h.buf
  txd := k.txd.trans h.txd
  cfgIn := k.cfgIn.trans h.cfgIn
  host := k.host.trans h.host
  faults := k.faults.trans h.faults
  wf := fun hw => k.wf (h.wf hw)
  trace := by rw [k.trace, h.trace, List.append_assoc]
  never := fun hn => k.never (h.never hn)

/-- A piece of an operation that ran to its end: no response, no change of what is in progress, and one
event counted off for each event appended. -/
structure Piece (s t : State) (evs : List Event) : Prop extends Onward s t evs where
  pending : t.pending = s.pending
  silent : ∀ e ∈ evs, isResp e = false
  counted : ∀ n rest, s.resets = n :: rest → ∃ k, t.resets = k :: rest ∧ k + evs.length = n

/-- A piece of an operation that was cut short. -/
structure Cut (st : Stop) (s t : State) (evs : List Event) : Prop extends Onward s t evs where
  pending : t.pending = s.pending
  silent : ∀ e ∈ evs, isResp e = false
  transport : ∀ c, st = .transport c → s.params.hasXferErr = true
  counted : ∀ c, st = .transport c → ∀ n rest, s.resets = n :: rest → ∃ k, t.resets = k :: rest
  reset : st = .blockReset → ∃ rest, s.resets = evs.length :: rest ∧ t.resets = 0 :: rest

theorem Piece.refl (s : State) : Piece s s [] :=
  { Onward.refl s with
    pending := rfl
    silent := by simp
    counted := fun n rest hn => ⟨n, hn, by simp⟩ }

theorem Piece.trans {s t u : State} {es fs : List Event} (h : Piece s t es) (k : Piece t u fs) :
    Piece s u (es ++ fs) :=
  { h.toOnward.trans k.toOnward with
    pending := k.pending.trans h.pending
    silent := fun e he => (List.mem_append.1 he).elim (h.silent e) (k.silent e)
    counted := fun n rest hn => by
      obtain ⟨m, hm, hmn⟩ := h.counted n rest hn
      obtain ⟨l, hl, hlm⟩ := k.counted m rest hm
      exact ⟨l, hl, by simp only [List.length_append]; omega⟩ }

theorem Piece.cut {st : Stop} {s t u : State} {es fs : List Event} (h : Piece s t es)
    (k : Cut st t u fs) : Cut st s u (es ++ fs) :=
  { h.toOnward.trans k.toOnward with
    pending := k.pending.trans h.pending
    silent := fun e he => (List.mem_append.1 he).elim (h.silent e) (k.silent e)
    transport := fun c hc => h.params ▸ k.transport c hc
    counted := fun c hc n rest hn => by
      obtain ⟨m, hm, -⟩ := h.counted n rest hn
      exact k.counted c hc m rest hm
    reset := fun hr => by
      obtain ⟨rest, ht, hu⟩ := k.reset hr
      rcases hn : s.resets with _ | ⟨n, rest'⟩
      · simp [h.never hn] at ht
      · obtain ⟨m, hm, hmn⟩ := h.counted n rest' hn
        rw [hm, List.cons.injEq] at ht
        obtain ⟨rfl, rfl⟩ := ht
        exact ⟨rest', by simp only [List.length_append]; rw [← hmn, Nat.add_comm], hu⟩ }

/-- What one run of a piece from `s` gives. -/
def Ran {α : Type} (s : State) : EStateM.Result Stop State α → Prop
  | .ok _ t => ∃ evs, Piece s t evs
  | .error st t => ∃ evs, Cut st s t evs

/-- A piece that gives no response and leaves what is in progress. -/
def Silent {α : Type} (m : Act α) : Prop := ∀ s, Ran s (m.run s)

theorem Silent.ok {α : Type} {m : Act α} (h : Silent m) {s t : State} {x : α}
    (hr : m.run s = .ok x t) : ∃ evs, Piece s t evs := by
  have := h s
  rwa [hr] at this

theorem Silent.error {α : Type} {m : Act α} (h : Silent m) {s t : State} {st : Stop}
    (hr : m.run s = .error st t) : ∃ evs, Cut st s t evs := by
  have := h s
  rwa [hr] at this

/-- The run of two pieces, by the run of the first. -/
theorem run_bind_eq {α β : Type} (m : Act α) (f : α → Act β) (s : State) :
    (m >>= f).run s =
      match m.run s with
      | .ok x t => (f x).run t
      | .error st t => .error st t := by
  simp only [EStateM.run, bind, EStateM.bind]
  rcases m s with ⟨_, _⟩ | ⟨_, _⟩ <;> rfl

theorem Silent.bind {α β : Type} {m : Act α} {f : α → Act β} (h : Silent m)
    (k : ∀ x, Silent (f x)) : Silent (m >>= f) := by
  intro s
  rw [run_bind_eq]
  rcases hm : m.run s with ⟨x, t⟩ | ⟨st, t⟩
  · obtain ⟨es, he⟩ := h.ok hm
    simp only
    rcases hf : (f x).run t with ⟨y, u⟩ | ⟨st, u⟩
    · obtain ⟨fs, hfs⟩ := (k x).ok hf
      exact ⟨_, he.trans hfs⟩
    · obtain ⟨fs, hfs⟩ := (k x).error hf
      exact ⟨_, he.cut hfs⟩
  · exact h.error hm

theorem Silent.pure {α : Type} (x : α) : Silent (pure x : Act α) := fun s => ⟨[], Piece.refl s⟩

/-- A change of latches only. -/
theorem Silent.modify {f : State → State}
    (h : ∀ s, Piece s (f s) []) : Silent (modify f : Act Unit) := fun s => ⟨[], h s⟩

theorem Silent.ite {α : Type} {c : Prop} [Decidable c] {m k : Act α} (hm : Silent m)
    (hk : Silent k) : Silent (if c then m else k) := by
  split
  · exact hm
  · exact hk

theorem setFsm_silent (f : Fsm) : Silent (setFsm f) :=
  Silent.modify fun s => { Piece.refl s with }

theorem getParams_silent : Silent getParams := fun s => ⟨[], Piece.refl s⟩

theorem get_silent : Silent (get : Act State) := fun s => ⟨[], Piece.refl s⟩

theorem countPoll_silent : Silent countPoll := Silent.modify fun s => { Piece.refl s with }

theorem startWait_silent : Silent startWait := Silent.modify fun s => { Piece.refl s with }

theorem enterFraming_silent : Silent enterFraming := by
  refine Silent.modify fun s => ?_
  split
  · exact Piece.refl s
  · exact { Piece.refl s with }

/-- A pin or delay primitive whose latch change touches latches only. -/
theorem lineOp_silent {ev : Event} {latch : State → State} (hev : isResp ev = false)
    (h : ∀ s, Piece s (latch s) []) : Silent (lineOp ev latch) := by
  intro s
  unfold lineOp
  rw [run_bind_eq]
  have key : ∀ u : State, Onward s u [] → u.pending = s.pending →
      ((s.resets = [] ∧ u.resets = []) ∨
        ∃ n rest, s.resets = (n + 1) :: rest ∧ u.resets = n :: rest) →
      Ran s ((askLine ev >>= fun _ => modify fun s => latch (s.emit ev) : Act Unit).run u) := by
    intro u hu hup hc
    rw [run_bind_eq]
    rcases hl : u.env.line u.params ev with ⟨_ | c, e⟩
    · have hrun : (askLine ev).run u = .ok () { u with env := e } := by
        simp only [EStateM.run, askLine, hl]
      have he : u.env.wf → e.wf := fun hw => by simpa [hl] using Env.line_wf u.params ev u.env hw
      simp only [hrun, modify_run]
      have h1 : Piece s (State.emit { u with env := e } ev) [ev] :=
        { params := hu.params, opsel := hu.opsel, a := hu.a, b := hu.b, buf := hu.buf
          txd := hu.txd, cfgIn := hu.cfgIn, host := hu.host, faults := hu.faults
          wf := fun hw => he (hu.wf hw)
          trace := by simp [hu.trace]
          never := hu.never
          pending := hup
          silent := by simpa using hev
          counted := fun n rest hn => by
            rcases hc with ⟨h0, -⟩ | ⟨m, rest', hm, hum⟩
            · simp [h0] at hn
            · rw [hm, List.cons.injEq] at hn
              exact ⟨m, hn.2 ▸ hum, by simpa using hn.1⟩ }
      exact ⟨_, h1.trans (h _)⟩
    · have hrun : (askLine ev).run u = .error (.transport c) { u with env := e } := by
        simp only [EStateM.run, askLine, hl]
      have he : u.env.wf → e.wf := fun hw => by simpa [hl] using Env.line_wf u.params ev u.env hw
      simp only [hrun]
      refine ⟨[], { hu with
        wf := fun hw => he (hu.wf hw), pending := hup, silent := by simp
        transport := fun c _ => by
          rw [← hu.params]
          exact Env.line_error (show (u.env.line u.params ev).1 = some _ by rw [hl])
        counted := fun _ _ n rest hs => ?_
        reset := fun hr => by simp at hr }⟩
      rcases hc with ⟨h0, -⟩ | ⟨m, rest', hm, hum⟩
      · simp [h0] at hs
      · rw [hm, List.cons.injEq] at hs
        exact ⟨m, hs.2 ▸ hum⟩
  rcases hr : s.resets with _ | ⟨_ | n, rest⟩
  · have ht : tick.run s = .ok () s := by simp [EStateM.run, tick, hr]
    simp only [ht]
    exact key s (Onward.refl s) rfl (.inl ⟨hr, hr⟩)
  · have ht : tick.run s = .error .blockReset s := by simp [EStateM.run, tick, hr]
    rw [ht]
    exact ⟨[], { Onward.refl s with
      pending := rfl, silent := by simp, transport := fun _ h => by simp at h
      counted := fun _ h => by simp at h, reset := fun _ => ⟨rest, by simp [hr], hr⟩ }⟩
  · have ht : tick.run s = .ok () { s with resets := n :: rest } := by
      simp [EStateM.run, tick, hr]
    simp only [ht]
    exact key { s with resets := n :: rest } { Onward.refl s with never := fun h => by simp [hr] at h }
      rfl (.inr ⟨n, rest, hr, rfl⟩)

/-- A byte transfer. -/
theorem xfer_silent (t : Byte) : Silent (xfer t) := by
  intro s
  unfold xfer
  rw [run_bind_eq]
  have key : ∀ u : State, Onward s u [] → u.pending = s.pending →
      ((s.resets = [] ∧ u.resets = []) ∨
        ∃ n rest, s.resets = (n + 1) :: rest ∧ u.resets = n :: rest) →
      Ran s ((answerXfer t).run u) := by
    intro u hu hup hc
    have he : u.env.wf → (u.env.xfer u.params t).2.wf := Env.xfer_wf u.params t u.env
    rcases hl : u.env.xfer u.params t with ⟨c | r, e⟩
    · have hrun : (answerXfer t).run u = .error (.transport c) { u with env := e } := by
        simp only [EStateM.run, answerXfer, hl]
      rw [hrun]
      rw [hl] at he
      refine ⟨[], { hu with
        wf := fun hw => he (hu.wf hw), pending := hup, silent := by simp
        transport := fun c _ => by
          rw [← hu.params]
          exact Env.xfer_error (show (u.env.xfer u.params t).1 = .error _ by rw [hl])
        counted := fun _ _ n rest hs => ?_
        reset := fun hr => by simp at hr }⟩
      rcases hc with ⟨h0, -⟩ | ⟨m, rest', hm, hum⟩
      · simp [h0] at hs
      · rw [hm, List.cons.injEq] at hs
        exact ⟨m, hs.2 ▸ hum⟩
    · have hrun : (answerXfer t).run u = .ok r ({ u with env := e }.emit (.xfer t r)) := by
        simp only [EStateM.run, answerXfer, hl]
      rw [hrun]
      rw [hl] at he
      exact ⟨[.xfer t r],
        { params := hu.params, opsel := hu.opsel, a := hu.a, b := hu.b, buf := hu.buf
          txd := hu.txd, cfgIn := hu.cfgIn, host := hu.host, faults := hu.faults
          wf := fun hw => he (hu.wf hw)
          trace := by simp [hu.trace]
          never := hu.never
          pending := hup
          silent := by simp [isResp]
          counted := fun n rest hn => by
            rcases hc with ⟨h0, -⟩ | ⟨m, rest', hm, hum⟩
            · simp [h0] at hn
            · rw [hm, List.cons.injEq] at hn
              exact ⟨m, hn.2 ▸ hum, by simpa using hn.1⟩ }⟩
  rcases hr : s.resets with _ | ⟨_ | n, rest⟩
  · have ht : tick.run s = .ok () s := by simp [EStateM.run, tick, hr]
    simp only [ht]
    exact key s (Onward.refl s) rfl (.inl ⟨hr, hr⟩)
  · have ht : tick.run s = .error .blockReset s := by simp [EStateM.run, tick, hr]
    rw [ht]
    exact ⟨[], { Onward.refl s with
      pending := rfl, silent := by simp, transport := fun _ h => by simp at h
      counted := fun _ h => by simp at h, reset := fun _ => ⟨rest, by simp [hr], hr⟩ }⟩
  · have ht : tick.run s = .ok () { s with resets := n :: rest } := by
      simp [EStateM.run, tick, hr]
    simp only [ht]
    exact key { s with resets := n :: rest } { Onward.refl s with never := fun h => by simp [hr] at h }
      rfl (.inr ⟨n, rest, hr, rfl⟩)

theorem csDeassert_silent : Silent csDeassert := lineOp_silent rfl fun s => { Piece.refl s with }
theorem csAssert_silent : Silent csAssert := lineOp_silent rfl fun s => { Piece.refl s with }
theorem rstLow_silent : Silent rstLow := lineOp_silent rfl fun s => { Piece.refl s with }
theorem rstHigh_silent : Silent rstHigh := lineOp_silent rfl fun s => { Piece.refl s with }
theorem wpDrive_silent (v : Bool) : Silent (wpDrive v) :=
  lineOp_silent rfl fun s => { Piece.refl s with }
theorem pinsEnable_silent : Silent pinsEnable := lineOp_silent rfl fun s => { Piece.refl s with }
theorem delayUs_silent (n : Nat) : Silent (delayUs n) := lineOp_silent rfl Piece.refl

theorem csHighDelay_silent : Silent csHighDelay :=
  getParams_silent.bind fun _ => Silent.ite (delayUs_silent _) (Silent.pure _)

theorem pulse_silent : Silent pulse :=
  csDeassert_silent.bind fun _ => csHighDelay_silent.bind fun _ => csAssert_silent

theorem sendBytes_silent (bytes : List Byte) : Silent (sendBytes bytes) := by
  induction bytes with
  | nil => exact Silent.pure _
  | cons t ts ih => exact (xfer_silent t).bind fun _ => ih

theorem frame_silent (bytes : List Byte) : Silent (frame bytes) :=
  pulse_silent.bind fun _ => enterFraming_silent.bind fun _ => sendBytes_silent bytes

theorem statusTxn_silent : Silent statusTxn :=
  getParams_silent.bind fun _ => (frame_silent _).bind fun _ => (xfer_silent _).bind fun _ =>
    csDeassert_silent.bind fun _ => Silent.pure _

theorem pollGap_silent : Silent pollGap :=
  getParams_silent.bind fun _ => Silent.ite (delayUs_silent _) (Silent.pure _)

theorem openStatus_silent : Silent openStatus :=
  get_silent.bind fun _ => Silent.ite (frame_silent _) (Silent.pure _)

theorem idEnd_silent (n : Byte) : Silent (idEnd n) :=
  Silent.ite (csDeassert_silent.bind fun _ => setFsm_silent _) (setFsm_silent _)

/-! ### Whole operations -/

/-- How an operation ends from `s`: with one response as its last event, still in progress, or cut
short. -/
inductive Ends (s : State) : EStateM.Result Stop State Unit → Prop
  | responded {t : State} {evs : List Event} {r : Response}
      (onward : Onward s t (evs ++ [.resp r])) (pending : t.pending = s.pending)
      (silent : ∀ e ∈ evs, isResp e = false)
      (counted : ∀ n rest, s.resets = n :: rest → ∃ k, t.resets = k :: rest) : Ends s (.ok () t)
  | parked {w : Waiter} {t : State} {evs : List Event} (onward : Onward s t evs)
      (pending : t.pending = some w) (silent : ∀ e ∈ evs, isResp e = false)
      (counted : ∀ n rest, s.resets = n :: rest → ∃ k, t.resets = k :: rest) : Ends s (.ok () t)
  | cut {st : Stop} {t : State} {evs : List Event} (h : Cut st s t evs) : Ends s (.error st t)

/-- A piece that ends the operation. -/
def Whole (m : Act Unit) : Prop := ∀ s, Ends s (m.run s)

theorem Silent.andThen {α : Type} {m : Act α} {f : α → Act Unit} (h : Silent m)
    (k : ∀ x, Whole (f x)) : Whole (m >>= f) := by
  intro s
  rw [run_bind_eq]
  rcases hm : m.run s with ⟨x, t⟩ | ⟨st, t⟩
  · obtain ⟨es, he⟩ := h.ok hm
    have hk := k x t
    simp only
    have count : ∀ u : State, (∀ n rest, t.resets = n :: rest → ∃ k, u.resets = k :: rest) →
        ∀ n rest, s.resets = n :: rest → ∃ k, u.resets = k :: rest := fun u hu n rest hn => by
      obtain ⟨m, hm, -⟩ := he.counted n rest hn
      exact hu m rest hm
    have quiet : ∀ fs : List Event, (∀ e ∈ fs, isResp e = false) → ∀ e ∈ es ++ fs, isResp e = false :=
      fun fs hf e hm => (List.mem_append.1 hm).elim (he.silent e) (hf e)
    generalize (f x).run t = r at hk
    cases hk with
    | responded o p q c =>
      exact .responded (by simpa using he.toOnward.trans o) (p.trans he.pending) (quiet _ q) (count _ c)
    | parked o p q c => exact .parked (he.toOnward.trans o) p (quiet _ q) (count _ c)
    | cut c => exact .cut (he.cut c)
  · obtain ⟨es, he⟩ := h.error hm
    exact .cut he

theorem Whole.ite {c : Prop} [Decidable c] {m k : Act Unit} (hm : Whole m) (hk : Whole k) :
    Whole (if c then m else k) := by
  split
  · exact hm
  · exact hk

/-- The response ends the operation. -/
theorem respond_whole (r : Response) : Whole (respond r) := by
  intro s
  unfold respond
  rw [run_bind_eq]
  rcases hr : s.resets with _ | ⟨_ | n, rest⟩
  · have ht : tick.run s = .ok () s := by simp [EStateM.run, tick, hr]
    simp only [ht, modify_run]
    exact .responded (evs := []) (r := r) { Onward.refl s with trace := by simp } rfl (by simp)
      (fun n rest hn => by simp [hr] at hn)
  · have ht : tick.run s = .error .blockReset s := by simp [EStateM.run, tick, hr]
    rw [ht]
    exact .cut (evs := []) { Onward.refl s with
      pending := rfl, silent := by simp, transport := fun _ h => by simp at h
      counted := fun _ h => by simp at h, reset := fun _ => ⟨rest, by simp [hr], hr⟩ }
  · have ht : tick.run s = .ok () { s with resets := n :: rest } := by
      simp [EStateM.run, tick, hr]
    simp only [ht, modify_run]
    exact .responded (evs := []) (r := r)
      { Onward.refl s with trace := by simp, never := fun h => by simp [hr] at h } rfl (by simp)
      (fun k rest' hn => by rw [hr, List.cons.injEq] at hn; exact ⟨n, by simp [hn.2]⟩)

/-- A busy byte keeps the operation in progress. -/
theorem park_whole (w : Waiter) : Whole (park w) := by
  unfold park
  refine pollGap_silent.andThen fun _ s => ?_
  rw [modify_run]
  exact .parked (evs := []) { Onward.refl s with } rfl (by simp) (fun n rest hn => ⟨n, by simp [hn]⟩)

theorem afterWait_whole : (w : Waiter) → Whole (afterWait w)
  | .done => (setFsm_silent _).andThen fun _ => respond_whole _
  | .compare => (setFsm_silent _).andThen fun _ => statusTxn_silent.andThen fun _ =>
      (setFsm_silent _).andThen fun _ => respond_whole _

theorem pollReselect_whole (w : Waiter) : Whole (pollReselect w) :=
  statusTxn_silent.andThen fun _ => countPoll_silent.andThen fun _ =>
    Whole.ite (afterWait_whole w) (park_whole w)

theorem pollContinuous_whole (w : Waiter) : Whole (pollContinuous w) :=
  getParams_silent.andThen fun _ => (xfer_silent _).andThen fun _ => countPoll_silent.andThen fun _ =>
    Whole.ite (csDeassert_silent.andThen fun _ => afterWait_whole w) (park_whole w)

theorem pollOnce_whole (w : Waiter) : Whole (pollOnce w) :=
  get_silent.andThen fun _ => Whole.ite (pollContinuous_whole w) (pollReselect_whole w)

theorem waitReady_whole (w : Waiter) : Whole (waitReady w) :=
  startWait_silent.andThen fun _ => openStatus_silent.andThen fun _ => pollOnce_whole w

theorem triggered_whole (bytes : List Byte) (w : Waiter) : Whole (triggered bytes w) :=
  (frame_silent _).andThen fun _ => pulse_silent.andThen fun _ => waitReady_whole w

theorem armStream_whole (bytes : List Byte) : Whole (armStream bytes) :=
  (frame_silent _).andThen fun _ => (setFsm_silent _).andThen fun _ => respond_whole _

theorem frameAndDelay_whole (bytes : List Byte) (n : Nat) : Whole (frameAndDelay bytes n) :=
  (frame_silent _).andThen fun _ => csDeassert_silent.andThen fun _ =>
    (delayUs_silent n).andThen fun _ => (setFsm_silent _).andThen fun _ => respond_whole _

theorem initAct_whole (cfg : BitVec 2) : Whole (initAct cfg) :=
  pinsEnable_silent.andThen fun _ => csDeassert_silent.andThen fun _ =>
    rstHigh_silent.andThen fun _ => (wpDrive_silent _).andThen fun _ =>
      (Silent.modify (f := fun s => { s with cfg := cfg, fsm := .idle, aborted := false })
        fun s => { Piece.refl s with }).andThen fun _ => respond_whole _

theorem statusReadAct_whole : Whole statusReadAct :=
  statusTxn_silent.andThen fun _ => (setFsm_silent _).andThen fun _ => respond_whole _

theorem idReadAct_whole : Whole idReadAct :=
  getParams_silent.andThen fun _ => (frame_silent _).andThen fun _ =>
    (xfer_silent _).andThen fun _ => (xfer_silent _).andThen fun _ => (xfer_silent _).andThen fun _ =>
      (xfer_silent _).andThen fun _ => (idEnd_silent _).andThen fun _ => respond_whole _

theorem hardResetAct_whole (p : Params) : Whole (hardResetAct p) :=
  rstLow_silent.andThen fun _ => (delayUs_silent _).andThen fun _ => csDeassert_silent.andThen fun _ =>
    rstHigh_silent.andThen fun _ => (delayUs_silent _).andThen fun _ => csAssert_silent.andThen fun _ =>
      (setFsm_silent _).andThen fun _ => respond_whole _

theorem chipEraseAct_whole (s : State) : Whole (chipEraseAct s) :=
  Whole.ite (triggered_whole _ _) (respond_whole _)

/-- Every operation that is accepted is run as a whole operation. -/
theorem exec_whole {i : Instr} {s t : State} (h : exec i s = .next t) :
    misuse i s = none ∧ ∃ m, Whole m ∧ settle m s = t := by
  cases i with
  | init cfg => exact (accepted_eq_next.1 h).imp_right fun k => ⟨_, initAct_whole cfg, k⟩
  | release =>
    exact (accepted_eq_next.1 h).imp_right fun k => ⟨_, csDeassert_silent.andThen fun _ =>
      (setFsm_silent _).andThen fun _ => respond_whole _, k⟩
  | streamXfer tx =>
    exact (accepted_eq_next.1 h).imp_right fun k => ⟨_, (xfer_silent _).andThen fun _ =>
      respond_whole _, k⟩
  | endStream =>
    exact (accepted_eq_next.1 h).imp_right fun k => ⟨_, csDeassert_silent.andThen fun _ =>
      (setFsm_silent _).andThen fun _ => respond_whole _, k⟩
  | statusRead => exact (accepted_eq_next.1 h).imp_right fun k => ⟨_, statusReadAct_whole, k⟩
  | waitReady => exact (accepted_eq_next.1 h).imp_right fun k => ⟨_, waitReady_whole _, k⟩
  | idRead => exact (accepted_eq_next.1 h).imp_right fun k => ⟨_, idReadAct_whole, k⟩
  | bufWrite buf offset => exact (accepted_eq_next.1 h).imp_right fun k => ⟨_, armStream_whole _, k⟩
  | bufRead buf offset => exact (accepted_eq_next.1 h).imp_right fun k => ⟨_, armStream_whole _, k⟩
  | pageRead page offset => exact (accepted_eq_next.1 h).imp_right fun k => ⟨_, armStream_whole _, k⟩
  | contReadLow page offset =>
    exact (accepted_eq_next.1 h).imp_right fun k => ⟨_, armStream_whole _, k⟩
  | contReadHigh page offset =>
    exact (accepted_eq_next.1 h).imp_right fun k => ⟨_, armStream_whole _, k⟩
  | bufToPageE buf page => exact (accepted_eq_next.1 h).imp_right fun k => ⟨_, triggered_whole _ _, k⟩
  | bufToPageNE buf page =>
    exact (accepted_eq_next.1 h).imp_right fun k => ⟨_, triggered_whole _ _, k⟩
  | pageToBuf page buf => exact (accepted_eq_next.1 h).imp_right fun k => ⟨_, triggered_whole _ _, k⟩
  | compare page buf => exact (accepted_eq_next.1 h).imp_right fun k => ⟨_, triggered_whole _ _, k⟩
  | pageErase page => exact (accepted_eq_next.1 h).imp_right fun k => ⟨_, triggered_whole _ _, k⟩
  | blockErase block => exact (accepted_eq_next.1 h).imp_right fun k => ⟨_, triggered_whole _ _, k⟩
  | sectorErase sector => exact (accepted_eq_next.1 h).imp_right fun k => ⟨_, triggered_whole _ _, k⟩
  | chipErase => exact (accepted_eq_next.1 h).imp_right fun k => ⟨_, chipEraseAct_whole _, k⟩
  | deepPowerDown => exact (accepted_eq_next.1 h).imp_right fun k => ⟨_, frameAndDelay_whole _ _, k⟩
  | resume => exact (accepted_eq_next.1 h).imp_right fun k => ⟨_, frameAndDelay_whole _ _, k⟩
  | hardReset => exact (accepted_eq_next.1 h).imp_right fun k => ⟨_, hardResetAct_whole _, k⟩
  | reserved o => exact absurd h (by simp [exec, execReserved])

/-- What a whole operation leaves: an answer, a wait, a transport error, or block reset. -/
theorem settle_cases {m : Act Unit} (h : Whole m) (s : State) :
    (∃ evs r, Onward s (settle m s) (evs ++ [.resp r]) ∧ (∀ e ∈ evs, isResp e = false) ∧
      (settle m s).pending = s.pending ∧ (∀ n rest, s.resets = n :: rest → ∃ k, (settle m s).resets = k :: rest)) ∨
    (∃ evs w, Onward s (settle m s) evs ∧ (∀ e ∈ evs, isResp e = false) ∧
      (settle m s).pending = some w ∧ (∀ n rest, s.resets = n :: rest → ∃ k, (settle m s).resets = k :: rest)) ∨
    (∃ c u evs, Cut (.transport c) s u evs ∧ settle m s = transportAbort c u) ∨
    (∃ u evs, Cut .blockReset s u evs ∧ settle m s = blockReset u) := by
  have hw := h s
  unfold settle
  generalize m.run s = r at hw
  cases hw with
  | responded o p q c => exact .inl ⟨_, _, o, q, p, c⟩
  | parked o p q c => exact .inr (.inl ⟨_, _, o, q, p, c⟩)
  | @cut st u evs c =>
    cases st with
    | transport code => exact .inr (.inr (.inl ⟨code, u, evs, c, rfl⟩))
    | blockReset => exact .inr (.inr (.inr ⟨u, evs, c, rfl⟩))

end Sys2Proof.Machine
end

