-- ==== Sys2Proof/Laws/Failing.lean ====
section
/-! SUPPORT. What the pin and delay primitives and the transfers do on scripted answers, failures among
them (R212): runs of lines (`lineSeq`) and of bytes, each once where every answer is good and once where
one fails. -/

namespace Sys2Proof.Machine

/-- An instance with an error line and no reset on its way, whose environment answers from a script. -/
structure Scripted (s : State) (answers : List Answer) (lines : List (Option ErrCode)) (draws : Nat) :
    Prop where
  errs : s.params.hasXferErr = true
  calm : s.resets = []
  script : s.env = .oracle answers lines draws

/-- `s` with another trace and environment. -/
def State.put (s : State) (tr : List Event) (e : Env) : State := { s with trace := tr, env := e }

/-- `s` after the events `evs`, with what is left of the script. -/
def State.drove (s : State) (evs : List Event) (e : Env) : State :=
  (evs.foldl State.latch s).put (s.trace ++ evs) e

/-- Trace and environment play no part in the latches. -/
theorem latch_put (s : State) (tr : List Event) (e : Env) (ev : Event) :
    (s.put tr e).latch ev = (s.latch ev).put tr e := by
  cases ev <;> rfl

theorem foldl_latch_put (evs : List Event) (s : State) (tr : List Event) (e : Env) :
    evs.foldl State.latch (s.put tr e) = (evs.foldl State.latch s).put tr e := by
  induction evs generalizing s with
  | nil => rfl
  | cons ev evs ih => rw [List.foldl_cons, latch_put, ih, List.foldl_cons]

/-- Events change the pin latches only. -/
theorem foldl_latch_keeps {β : Type} (f : State → β) (hf : ∀ s ev, f (State.latch s ev) = f s)
    (evs : List Event) (s : State) : f (evs.foldl State.latch s) = f s := by
  induction evs generalizing s with
  | nil => rfl
  | cons ev evs ih => exact (ih _).trans (hf s ev)

/-- More events after some. -/
theorem drove_drove (s : State) (evs evs' : List Event) (e e' : Env) :
    (s.drove evs e).drove evs' e' = s.drove (evs ++ evs') e' := by
  simp only [State.drove, foldl_latch_put, List.foldl_append, ← List.append_assoc]
  rfl

theorem Scripted.drove {s : State} {as : List Answer} {ls : List (Option ErrCode)} {n : Nat}
    (h : Scripted s as ls n) (evs : List Event) (as' : List Answer) (ls' : List (Option ErrCode)) :
    Scripted (s.drove evs (.oracle as' ls' n)) as' ls' n where
  errs := (foldl_latch_keeps (fun s => s.params.hasXferErr) (fun _ ev => by cases ev <;> rfl) evs s).trans
    h.errs
  calm := (foldl_latch_keeps State.resets (fun _ ev => by cases ev <;> rfl) evs s).trans h.calm
  script := rfl

/-- A pin or delay primitive that does not fail. -/
theorem lineOp_answers {s : State} {as : List Answer} {ls : List (Option ErrCode)} {n : Nat}
    (h : Scripted s as (none :: ls) n) (ev : Event) (latch : State → State) :
    (lineOp ev latch).run s = .ok () (latch (s.put (s.trace ++ [ev]) (.oracle as ls n))) := by
  simp [lineOp, tick, askLine, EStateM.run, bind, EStateM.bind, modify, modifyGet,
    MonadStateOf.modifyGet, EStateM.modifyGet, h.calm, h.script, h.errs, Env.line, State.put,
    State.emit]

/-- A pin or delay primitive that fails (R212). -/
theorem lineOp_fails {s : State} {as : List Answer} {ls : List (Option ErrCode)} {n : Nat}
    {c : ErrCode} (h : Scripted s as (some c :: ls) n) (ev : Event) (latch : State → State) :
    (lineOp ev latch).run s = .error (.transport c) { s with env := .oracle as ls n } := by
  simp [lineOp, tick, askLine, EStateM.run, bind, EStateM.bind, h.calm, h.script, h.errs, Env.line]

/-- A transfer that does not fail. -/
theorem xfer_answers {s : State} {r : Byte} {as : List Answer} {ls : List (Option ErrCode)} {n : Nat}
    (h : Scripted s (⟨r, none⟩ :: as) ls n) (t : Byte) :
    (xfer t).run s = .ok r (s.drove [.xfer t r] (.oracle as ls n)) := by
  simp [xfer, tick, answerXfer, EStateM.run, bind, EStateM.bind, h.calm, h.script, Env.xfer,
    Answer.outcome, State.drove, State.latch, State.emit, State.put]

/-- A transfer that fails (R212). -/
theorem xfer_fails {s : State} {r : Byte} {as : List Answer} {ls : List (Option ErrCode)} {n : Nat}
    {c : ErrCode} (h : Scripted s (⟨r, some c⟩ :: as) ls n) (t : Byte) :
    (xfer t).run s = .error (.transport c) { s with env := .oracle as ls n } := by
  simp [xfer, tick, answerXfer, EStateM.run, bind, EStateM.bind, h.calm, h.script, h.errs, Env.xfer,
    Answer.outcome]

/-- A piece that is cut short cuts the whole short. -/
theorem bind_error {α β : Type} {m : Act α} {s t : State} {st : Stop} (h : m.run s = .error st t)
    (f : α → Act β) : (m >>= f).run s = .error st t := by
  simp only [EStateM.run] at h ⊢
  simp [bind, EStateM.bind, h]

/-! ### Runs of lines -/

/-- Pin and delay primitives in order. -/
def lineSeq : List Event → Act Unit
  | [] => pure ()
  | ev :: evs => do
    lineOp ev fun s => s.latch ev
    lineSeq evs

/-- None of them fails. -/
theorem lineSeq_answers (evs : List Event) {s : State} {as : List Answer}
    {ls : List (Option ErrCode)} {n : Nat}
    (h : Scripted s as (List.replicate evs.length none ++ ls) n) :
    (lineSeq evs).run s = .ok () (s.drove evs (.oracle as ls n)) := by
  induction evs generalizing s with
  | nil =>
    have he : s.env = .oracle as ls n := by simpa using h.script
    simp [lineSeq, State.drove, State.put, ← he]
  | cons ev evs ih =>
    refine run_bind (lineOp_answers (ls := List.replicate evs.length none ++ ls)
      (by simpa [List.replicate_succ] using h) ev _) ?_
    rw [latch_put]
    exact (ih (h.drove [ev] as _)).trans (by rw [drove_drove]; rfl)

/-- One of them fails: the ones before it stand. -/
theorem lineSeq_fails (pre : List Event) {ev : Event} {post : List Event} {s : State}
    {as : List Answer} {ls : List (Option ErrCode)} {n : Nat} {c : ErrCode}
    (h : Scripted s as (List.replicate pre.length none ++ some c :: ls) n) :
    (lineSeq (pre ++ ev :: post)).run s = .error (.transport c) (s.drove pre (.oracle as ls n)) := by
  induction pre generalizing s with
  | nil =>
    refine bind_error ((lineOp_fails (by simpa using h) ev _).trans ?_) _
    simp [State.drove, State.put]
  | cons e pre ih =>
    refine run_bind (lineOp_answers (ls := List.replicate pre.length none ++ some c :: ls)
      (by simpa [List.replicate_succ] using h) e _) ?_
    rw [latch_put]
    exact (ih (h.drove [e] as _)).trans (by rw [drove_drove]; rfl)

/-- The pulse is a run of lines (R102). -/
theorem pulse_eq_lineSeq (s : State) : pulse.run s = (lineSeq (pulseEvents s.params)).run s := by
  unfold pulse
  simp only [pulseEvents, lineSeq]
  have e : (lineOp (.cs true) fun s => s.latch (.cs true)) = csDeassert := rfl
  rw [e, run_bind_eq, run_bind_eq]
  rcases h : csDeassert.run s with ⟨_, t⟩ | ⟨_, t⟩
  · obtain ⟨_, ht⟩ := csDeassert_silent.ok h
    simp only
    unfold csHighDelay
    rw [bind_assoc, run_bind (getParams_run t) rfl, ht.params]
    by_cases hc : 0 < s.params.tCsHigh
    · simp only [hc, if_true, List.cons_append, List.nil_append, lineSeq, bind_pure_unit]
      rfl
    · simp only [hc, if_false, List.nil_append, lineSeq, bind_pure_unit, pure_bind]
      rfl
  · rfl

/-! ### Runs of bytes -/

/-- Good answers to some transfers. -/
def goodAnswers (rx : List Byte) : List Answer := rx.map fun x => ⟨x, none⟩

/-- Every byte is sent. -/
theorem sendBytes_answers (bytes rx : List Byte) (hl : rx.length = bytes.length) {s : State}
    {as : List Answer} {ls : List (Option ErrCode)} {n : Nat}
    (h : Scripted s (goodAnswers rx ++ as) ls n) :
    (sendBytes bytes).run s =
      .ok () (s.drove (List.zipWith .xfer bytes rx) (.oracle as ls n)) := by
  induction bytes generalizing s rx with
  | nil =>
    obtain rfl : rx = [] := List.length_eq_zero_iff.1 hl
    have he : s.env = .oracle as ls n := by simpa [goodAnswers] using h.script
    simp [sendBytes, State.drove, State.put, ← he]
  | cons t ts ih =>
    obtain _ | ⟨r, rs⟩ := rx
    · simp at hl
    refine run_bind (xfer_answers (as := goodAnswers rs ++ as) (by simpa [goodAnswers] using h) t) ?_
    exact (ih rs (by simpa using hl) (h.drove _ _ _)).trans (by rw [drove_drove]; rfl)

/-- One of the transfers fails: the ones before it stand. -/
theorem sendBytes_fails (pre rx : List Byte) (hl : rx.length = pre.length) {b r : Byte}
    {post : List Byte} {s : State} {as : List Answer} {ls : List (Option ErrCode)} {n : Nat}
    {c : ErrCode} (h : Scripted s (goodAnswers rx ++ ⟨r, some c⟩ :: as) ls n) :
    (sendBytes (pre ++ b :: post)).run s =
      .error (.transport c) (s.drove (List.zipWith .xfer pre rx) (.oracle as ls n)) := by
  induction pre generalizing s rx with
  | nil =>
    obtain rfl : rx = [] := List.length_eq_zero_iff.1 hl
    refine bind_error ((xfer_fails (by simpa [goodAnswers] using h) b).trans ?_) _
    simp [State.drove, State.put]
  | cons t ts ih =>
    obtain _ | ⟨x, rs⟩ := rx
    · simp at hl
    refine run_bind (xfer_answers (as := goodAnswers rs ++ ⟨r, some c⟩ :: as)
      (by simpa [goodAnswers] using h) t) ?_
    exact (ih rs (by simpa using hl) (h.drove _ _ _)).trans (by rw [drove_drove]; rfl)

/-! ### Frames -/

/-- What the pulse leaves. -/
theorem pulse_answers {s : State} {as : List Answer} {ls : List (Option ErrCode)} {n : Nat}
    (h : Scripted s as (List.replicate (pulseEvents s.params).length none ++ ls) n) :
    pulse.run s = .ok () (s.drove (pulseEvents s.params) (.oracle as ls n)) := by
  rw [pulse_eq_lineSeq, lineSeq_answers _ h]

/-- The pulse asserts chip-select and changes no other latch. -/
theorem drove_pulse (s : State) (e : Env) :
    s.drove (pulseEvents s.params) e =
      ({ s with csN := false } : State).put (s.trace ++ pulseEvents s.params) e := by
  unfold State.drove pulseEvents
  by_cases hc : 0 < s.params.tCsHigh <;> simp [hc, State.latch, State.put]

/-- Transfers change no latch. -/
theorem drove_xfers (s : State) (bytes rx : List Byte) (e : Env) :
    s.drove (List.zipWith .xfer bytes rx) e = s.put (s.trace ++ List.zipWith .xfer bytes rx) e := by
  have : ∀ (bytes rx : List Byte) (s : State),
      (List.zipWith Event.xfer bytes rx).foldl State.latch s = s := by
    intro bytes
    induction bytes with
    | nil => simp
    | cons t ts ih =>
      intro rx s
      cases rx with
      | nil => rfl
      | cons r rs => exact ih rs s
  unfold State.drove
  rw [this]

/-- A frame whose answers are good (R103): chip-select asserted, FRAMING, its events on the trace. -/
theorem frame_answers {s : State} (hf : s.fsm ≠ .busyWait) (bytes rx : List Byte)
    (hl : rx.length = bytes.length) {as : List Answer} {ls : List (Option ErrCode)} {n : Nat}
    (h : Scripted s (goodAnswers rx ++ as)
      (List.replicate (pulseEvents s.params).length none ++ ls) n) :
    (frame bytes).run s = .ok () (({ s with csN := false, fsm := .framing } : State).put
      (s.trace ++ pulseEvents s.params ++ List.zipWith .xfer bytes rx) (.oracle as ls n)) := by
  unfold frame
  refine run_bind (pulse_answers h) ?_
  rw [drove_pulse]
  refine run_bind (modify_run _ _) ?_
  simp only [State.put, hf, if_false]
  refine (sendBytes_answers bytes rx hl (as := as) (ls := ls) (n := n) (by
    exact ⟨h.errs, h.calm, rfl⟩)).trans ?_
  rw [drove_xfers]
  rfl

/-- A frame in which a transfer fails (R212). -/
theorem frame_fails {s : State} (hf : s.fsm ≠ .busyWait) (pre rx : List Byte)
    (hl : rx.length = pre.length) {b r : Byte} {post : List Byte} {as : List Answer}
    {ls : List (Option ErrCode)} {n : Nat} {c : ErrCode}
    (h : Scripted s (goodAnswers rx ++ ⟨r, some c⟩ :: as)
      (List.replicate (pulseEvents s.params).length none ++ ls) n) :
    (frame (pre ++ b :: post)).run s =
      .error (.transport c) (({ s with csN := false, fsm := .framing } : State).put
        (s.trace ++ pulseEvents s.params ++ List.zipWith .xfer pre rx) (.oracle as ls n)) := by
  unfold frame
  refine run_bind (pulse_answers h) ?_
  rw [drove_pulse]
  refine run_bind (modify_run _ _) ?_
  simp only [State.put, hf, if_false]
  refine (sendBytes_fails pre rx hl (r := r) (as := as) (ls := ls) (n := n) (c := c) (by
    exact ⟨h.errs, h.calm, rfl⟩)).trans ?_
  rw [drove_xfers]
  rfl

/-- A frame in whose pulse a primitive fails (R212). -/
theorem frame_line_fails {s : State} {pre post : List Event} {ev : Event}
    (hp : pulseEvents s.params = pre ++ ev :: post) (bytes : List Byte) {as : List Answer}
    {ls : List (Option ErrCode)} {n : Nat} {c : ErrCode}
    (h : Scripted s as (List.replicate pre.length none ++ some c :: ls) n) :
    (frame bytes).run s = .error (.transport c) (s.drove pre (.oracle as ls n)) := by
  refine bind_error ?_ _
  rw [pulse_eq_lineSeq, hp, lineSeq_fails pre h]

/-- An operation that a transport error ends. -/
theorem settle_error {m : Act Unit} {s t : State} {c : ErrCode}
    (h : m.run s = .error (.transport c) t) : settle m s = transportAbort c t := by
  simp [settle, h]

end Sys2Proof.Machine
end

