-- ==== Sys2Proof/Laws/Keeps.lean ====
section
/-! SUPPORT. What a piece of an operation leaves unchanged, whether it runs to its end or is cut short. -/

namespace Sys2Proof.Machine

/-- The state a run ends in, whichever way it ends. -/
def finalState {α : Type} : EStateM.Result Stop State α → State
  | .ok _ t => t
  | .error _ t => t

/-- `m` never changes `f` of the state. -/
def Keeps {α β : Type} (f : State → β) (m : Act α) : Prop := ∀ s, f (finalState (m.run s)) = f s

/-- `f` looks at nothing a frame touches. -/
structure Still {β : Type} (f : State → β) : Prop where
  moved : ∀ s e tr r, f { s with env := e, trace := tr, resets := r } = f s
  csN : ∀ s v, f { s with csN := v } = f s
  fsm : ∀ s v, f { s with fsm := v } = f s

/-- `f` looks at nothing the synchroniser touches either. -/
structure Steady {β : Type} (f : State → β) : Prop extends Still f where
  pollCount : ∀ s v, f { s with pollCount := v } = f s
  pending : ∀ s v, f { s with pending := v } = f s

variable {α β : Type} {f : State → β}

theorem Keeps.bind {γ : Type} {m : Act α} {k : α → Act γ} (h : Keeps f m) (hk : ∀ x, Keeps f (k x)) :
    Keeps f (m >>= k) := by
  intro s
  have hs := h s
  simp only [EStateM.run, Bind.bind, EStateM.bind] at hs ⊢
  split <;> rename_i hm <;> rw [hm] at hs
  · exact (hk _ _).trans hs
  · exact hs

theorem Keeps.pure (x : α) : Keeps f (pure x : Act α) := fun _ => rfl

theorem Keeps.get : Keeps f (get : Act State) := fun _ => rfl

theorem Keeps.getParams : Keeps f getParams := fun _ => rfl

theorem Keeps.modify {g : State → State} (h : ∀ s, f (g s) = f s) : Keeps f (modify g : Act Unit) := h

theorem Keeps.ite {c : Prop} [Decidable c] {m k : Act α} (hm : Keeps f m) (hk : Keeps f k) :
    Keeps f (if c then m else k) := by
  split
  · exact hm
  · exact hk

theorem Keeps.tick (h : ∀ s e tr r, f { s with env := e, trace := tr, resets := r } = f s) :
    Keeps f tick := by
  intro s
  rcases hr : s.resets with _ | ⟨_ | n, rest⟩ <;> simp only [EStateM.run, Machine.tick, hr, finalState]
  exact h s s.env s.trace _

theorem Keeps.lineOp {ev : Event} {latch : State → State}
    (h : ∀ s e tr r, f { s with env := e, trace := tr, resets := r } = f s)
    (hl : ∀ s, f (latch s) = f s) : Keeps f (lineOp ev latch) := by
  refine (Keeps.tick h).bind fun _ => Keeps.bind (fun s => ?_) fun _ =>
    Keeps.modify fun s => (hl _).trans (h s s.env _ s.resets)
  simp only [EStateM.run, askLine]
  split <;> exact h s _ s.trace s.resets

theorem Keeps.respond (h : ∀ s e tr r, f { s with env := e, trace := tr, resets := r } = f s)
    (r : Response) : Keeps f (respond r) :=
  (Keeps.tick h).bind fun _ => Keeps.modify fun s => h s s.env _ s.resets

theorem Keeps.xfer (h : ∀ s e tr r, f { s with env := e, trace := tr, resets := r } = f s) (t : Byte) :
    Keeps f (xfer t) := by
  refine (Keeps.tick h).bind fun _ s => ?_
  simp only [EStateM.run, answerXfer]
  split <;> exact h s _ _ s.resets

namespace Still

variable (h : Still f)
include h

theorem respond (r : Response) : Keeps f (respond r) := Keeps.respond h.moved r
theorem xfer (t : Byte) : Keeps f (xfer t) := Keeps.xfer h.moved t
theorem setFsm (v : Fsm) : Keeps f (setFsm v) := Keeps.modify fun s => h.fsm s v
theorem csDeassert : Keeps f csDeassert := Keeps.lineOp h.moved fun s => h.csN s _
theorem csAssert : Keeps f csAssert := Keeps.lineOp h.moved fun s => h.csN s _
theorem delayUs (n : Nat) : Keeps f (delayUs n) := Keeps.lineOp h.moved fun _ => rfl

theorem csHighDelay : Keeps f csHighDelay :=
  Keeps.getParams.bind fun _ => Keeps.ite (h.delayUs _) (Keeps.pure _)

theorem pollGap : Keeps f pollGap :=
  Keeps.getParams.bind fun _ => Keeps.ite (h.delayUs _) (Keeps.pure _)

theorem pulse : Keeps f pulse := h.csDeassert.bind fun _ => h.csHighDelay.bind fun _ => h.csAssert

theorem sendBytes (bytes : List Byte) : Keeps f (sendBytes bytes) := by
  induction bytes with
  | nil => exact Keeps.pure _
  | cons t ts ih => exact (h.xfer t).bind fun _ => ih

theorem enterFraming : Keeps f enterFraming := Keeps.modify fun s => by
  split
  · rfl
  · exact h.fsm s _

theorem frame (bytes : List Byte) : Keeps f (frame bytes) :=
  h.pulse.bind fun _ => h.enterFraming.bind fun _ => h.sendBytes bytes

theorem statusTxn : Keeps f statusTxn :=
  Keeps.getParams.bind fun _ => (h.frame _).bind fun _ => (h.xfer _).bind fun _ =>
    h.csDeassert.bind fun _ => Keeps.pure _

theorem armStream (bytes : List Byte) : Keeps f (armStream bytes) :=
  (h.frame _).bind fun _ => (h.setFsm _).bind fun _ => h.respond _

theorem frameAndDelay (bytes : List Byte) (n : Nat) : Keeps f (frameAndDelay bytes n) :=
  (h.frame _).bind fun _ => h.csDeassert.bind fun _ => (h.delayUs n).bind fun _ =>
    (h.setFsm _).bind fun _ => h.respond _

theorem statusReadAct : Keeps f statusReadAct :=
  h.statusTxn.bind fun _ => (h.setFsm _).bind fun _ => h.respond _

theorem idReadAct : Keeps f idReadAct :=
  Keeps.getParams.bind fun _ => (h.frame _).bind fun _ => (h.xfer _).bind fun _ =>
    (h.xfer _).bind fun _ => (h.xfer _).bind fun _ => (h.xfer _).bind fun _ =>
      Keeps.bind (Keeps.ite (h.csDeassert.bind fun _ => h.setFsm _) (h.setFsm _)) fun _ => h.respond _

end Still

namespace Steady

variable (h : Steady f)
include h

theorem afterWait : (w : Waiter) → Keeps f (afterWait w)
  | .done => (h.setFsm _).bind fun _ => h.respond _
  | .compare => (h.setFsm _).bind fun _ => h.statusTxn.bind fun _ => (h.setFsm _).bind fun _ =>
      h.respond _

theorem park (w : Waiter) : Keeps f (park w) :=
  h.pollGap.bind fun _ => Keeps.modify fun s => h.pending s _

theorem countPoll : Keeps f countPoll := Keeps.modify fun s => h.pollCount s _

theorem pollOnce (w : Waiter) : Keeps f (pollOnce w) :=
  Keeps.get.bind fun _ => Keeps.ite
    (Keeps.getParams.bind fun _ => (h.xfer _).bind fun _ => h.countPoll.bind fun _ =>
      Keeps.ite (h.csDeassert.bind fun _ => h.afterWait w) (h.park w))
    (h.statusTxn.bind fun _ => h.countPoll.bind fun _ => Keeps.ite (h.afterWait w) (h.park w))

theorem waitReady (w : Waiter) : Keeps f (waitReady w) :=
  Keeps.bind (Keeps.modify fun s => (h.pollCount { s with fsm := .busyWait } 0).trans (h.fsm s _))
    fun _ => Keeps.bind (Keeps.get.bind fun _ => Keeps.ite (h.frame _) (Keeps.pure _)) fun _ =>
      h.pollOnce w

theorem triggered (bytes : List Byte) (w : Waiter) : Keeps f (triggered bytes w) :=
  (h.frame _).bind fun _ => h.pulse.bind fun _ => h.waitReady w

theorem chipEraseAct (s : State) : Keeps f (chipEraseAct s) :=
  Keeps.ite (h.triggered _ _) (h.respond _)

end Steady

end Sys2Proof.Machine
end

