-- ==== Sys2Proof/Laws/Latches.lean ====
section
/-! SUPPORT. The latches after a piece that succeeds, whatever the environment answers and whenever the
reset input is to arrive: as in a quiet state. -/

namespace Sys2Proof.Machine

/-- The state moved on in its environment, trace and countdown only. -/
def Moved (s t : State) : Prop :=
  ∃ e tr r, t = { s with env := e, trace := tr, resets := r }

theorem Moved.refl (s : State) : Moved s s := ⟨s.env, s.trace, s.resets, rfl⟩

theorem Moved.trans {s t u : State} (h : Moved s t) (k : Moved t u) : Moved s u := by
  obtain ⟨_, _, _, rfl⟩ := h
  obtain ⟨e, tr, r, rfl⟩ := k
  exact ⟨e, tr, r, rfl⟩

/-- A sequence that succeeds is two pieces that succeed. -/
theorem bind_eq_ok {α β : Type} {m : Act α} {f : α → Act β} {s u : State} {y : β}
    (h : (m >>= f).run s = .ok y u) : ∃ x t, m.run s = .ok x t ∧ (f x).run t = .ok y u := by
  simp only [EStateM.run, bind, EStateM.bind] at h ⊢
  split at h
  · rename_i x t hm
    exact ⟨x, t, hm, h⟩
  · cases h

theorem tick_ok {s t : State} (h : tick.run s = .ok () t) : Moved s t := by
  rcases hr : s.resets with _ | ⟨_ | n, rest⟩ <;> simp [EStateM.run, tick, hr] at h <;> subst h
  · exact .refl _
  · exact ⟨_, _, _, rfl⟩

theorem lineOp_ok {ev : Event} {latch : State → State} {s t : State}
    (h : (lineOp ev latch).run s = .ok () t) : ∃ u, Moved s u ∧ t = latch u := by
  obtain ⟨_, u, hu, h⟩ := bind_eq_ok h
  obtain ⟨_, v, hv, h⟩ := bind_eq_ok h
  rw [modify_run] at h
  cases h
  simp only [EStateM.run, askLine] at hv
  split at hv
  · cases hv
    exact ⟨_, (tick_ok hu).trans ⟨_, _, _, rfl⟩, rfl⟩
  · cases hv

theorem xfer_ok {b r : Byte} {s t : State} (h : (xfer b).run s = .ok r t) :
    Moved s t ∧ t.trace = s.trace ++ [.xfer b r] := by
  obtain ⟨_, u, hu, h⟩ := bind_eq_ok h
  have htr : u.trace = s.trace := by
    rcases hr : s.resets with _ | ⟨_ | n, rest⟩ <;> simp [EStateM.run, tick, hr] at hu <;> subst hu <;> rfl
  simp only [EStateM.run, answerXfer] at h
  split at h
  · cases h
    exact ⟨(tick_ok hu).trans ⟨_, _, _, rfl⟩, by simp [htr]⟩
  · cases h

theorem respond_ok {r : Response} {s t : State} (h : (respond r).run s = .ok () t) : Moved s t := by
  obtain ⟨_, u, hu, h⟩ := bind_eq_ok h
  rw [modify_run] at h
  cases h
  exact (tick_ok hu).trans ⟨_, _, _, rfl⟩

theorem delayUs_ok {n : Nat} {s t : State} (h : (delayUs n).run s = .ok () t) : Moved s t := by
  obtain ⟨u, hu, rfl⟩ := lineOp_ok h
  exact hu

theorem csDeassert_ok {s t : State} (h : csDeassert.run s = .ok () t) :
    Moved { s with csN := true } t := by
  obtain ⟨_, ⟨_, _, _, rfl⟩, rfl⟩ := lineOp_ok h
  exact ⟨_, _, _, rfl⟩

theorem csAssert_ok {s t : State} (h : csAssert.run s = .ok () t) :
    Moved { s with csN := false } t := by
  obtain ⟨_, ⟨_, _, _, rfl⟩, rfl⟩ := lineOp_ok h
  exact ⟨_, _, _, rfl⟩

theorem rstLow_ok {s t : State} (h : rstLow.run s = .ok () t) :
    Moved { s with resetN := false } t := by
  obtain ⟨_, ⟨_, _, _, rfl⟩, rfl⟩ := lineOp_ok h
  exact ⟨_, _, _, rfl⟩

theorem rstHigh_ok {s t : State} (h : rstHigh.run s = .ok () t) :
    Moved { s with resetN := true } t := by
  obtain ⟨_, ⟨_, _, _, rfl⟩, rfl⟩ := lineOp_ok h
  exact ⟨_, _, _, rfl⟩

theorem wpDrive_ok {v : Bool} {s t : State} (h : (wpDrive v).run s = .ok () t) :
    Moved { s with wpN := v } t := by
  obtain ⟨_, ⟨_, _, _, rfl⟩, rfl⟩ := lineOp_ok h
  exact ⟨_, _, _, rfl⟩

theorem pinsEnable_ok {s t : State} (h : pinsEnable.run s = .ok () t) :
    Moved { s with pinsEn := true } t := by
  obtain ⟨_, ⟨_, _, _, rfl⟩, rfl⟩ := lineOp_ok h
  exact ⟨_, _, _, rfl⟩

theorem csHighDelay_ok {s t : State} (h : csHighDelay.run s = .ok () t) : Moved s t := by
  obtain ⟨_, _, hp, h⟩ := bind_eq_ok h
  rw [getParams_run] at hp
  cases hp
  split at h
  · exact delayUs_ok h
  · rw [pure_run] at h
    cases h
    exact .refl _

theorem pulse_ok {s t : State} (h : pulse.run s = .ok () t) : Moved { s with csN := false } t := by
  obtain ⟨_, u, hu, h⟩ := bind_eq_ok h
  obtain ⟨_, v, hv, h⟩ := bind_eq_ok h
  obtain ⟨_, _, _, rfl⟩ := csDeassert_ok hu
  obtain ⟨_, _, _, rfl⟩ := csHighDelay_ok hv
  obtain ⟨_, _, _, rfl⟩ := csAssert_ok h
  exact ⟨_, _, _, rfl⟩

theorem sendBytes_ok {bytes : List Byte} {s t : State} (h : (sendBytes bytes).run s = .ok () t) :
    Moved s t := by
  induction bytes generalizing s with
  | nil =>
    rw [sendBytes, pure_run] at h
    cases h
    exact .refl _
  | cons b bs ih =>
    obtain ⟨_, u, hu, h⟩ := bind_eq_ok h
    exact (xfer_ok hu).1.trans (ih h)

theorem frame_ok {bytes : List Byte} {s t : State} (h : (frame bytes).run s = .ok () t) :
    Moved { s with csN := false, fsm := framed s.fsm } t := by
  obtain ⟨_, u, hu, h⟩ := bind_eq_ok h
  obtain ⟨_, v, hv, h⟩ := bind_eq_ok h
  obtain ⟨_, _, _, rfl⟩ := pulse_ok hu
  rw [enterFraming_run] at hv
  cases hv
  exact sendBytes_ok h |>.elim fun e ⟨tr, r, he⟩ => ⟨e, tr, r, he⟩

/-- The byte of a status transaction is on the trace. -/
theorem statusTxn_ok {b : Byte} {s t : State} (h : statusTxn.run s = .ok b t) :
    Moved { s with csN := true, fsm := framed s.fsm } t := by
  obtain ⟨_, _, hp, h⟩ := bind_eq_ok h
  rw [getParams_run] at hp
  cases hp
  obtain ⟨_, u, hu, h⟩ := bind_eq_ok h
  obtain ⟨_, v, hv, h⟩ := bind_eq_ok h
  obtain ⟨_, w, hw, h⟩ := bind_eq_ok h
  rw [pure_run] at h
  cases h
  obtain ⟨_, _, _, rfl⟩ := frame_ok hu
  obtain ⟨_, _, _, rfl⟩ := (xfer_ok hv).1
  obtain ⟨_, _, _, rfl⟩ := csDeassert_ok hw
  exact ⟨_, _, _, rfl⟩

theorem pollGap_ok {s t : State} (h : pollGap.run s = .ok () t) : Moved s t := by
  obtain ⟨_, _, hp, h⟩ := bind_eq_ok h
  rw [getParams_run] at hp
  cases hp
  split at h
  · exact delayUs_ok h
  · rw [pure_run] at h
    cases h
    exact .refl _

theorem park_ok {w : Waiter} {s t : State} (h : (park w).run s = .ok () t) :
    Moved { s with pending := some w } t := by
  obtain ⟨_, u, hu, h⟩ := bind_eq_ok h
  obtain ⟨_, _, _, rfl⟩ := pollGap_ok hu
  rw [modify_run] at h
  cases h
  exact ⟨_, _, _, rfl⟩

/-- After the synchroniser: IDLE, and chip-select deasserted if it was. -/
theorem afterWait_ok {w : Waiter} {s t : State} (hc : s.csN = true)
    (h : (afterWait w).run s = .ok () t) : Moved { s with fsm := .idle } t := by
  cases w with
  | done =>
    obtain ⟨_, u, hu, h⟩ := bind_eq_ok h
    rw [setFsm_run] at hu
    cases hu
    exact respond_ok h
  | compare =>
    obtain ⟨_, u, hu, h⟩ := bind_eq_ok h
    rw [setFsm_run] at hu
    cases hu
    obtain ⟨_, v, hv, h⟩ := bind_eq_ok h
    obtain ⟨_, _, _, rfl⟩ := statusTxn_ok hv
    obtain ⟨_, x, hx, h⟩ := bind_eq_ok h
    rw [setFsm_run] at hx
    cases hx
    obtain ⟨_, _, _, rfl⟩ := respond_ok h
    rcases s
    cases hc
    exact ⟨_, _, _, rfl⟩

/-- One turn of the synchroniser's loop: the operation is over, or still in progress. -/
theorem pollOnce_ok {w : Waiter} {s t : State} (hf : s.fsm = .busyWait)
    (h : (pollOnce w).run s = .ok () t) :
    Moved { s with fsm := .idle, csN := true, pollCount := s.pollCount + 1 } t ∨
    Moved { s with
      csN := if s.pollContinuous then s.csN else true
      pollCount := s.pollCount + 1, pending := some w } t := by
  obtain ⟨_, _, hg, h⟩ := bind_eq_ok h
  rw [get_run] at hg
  cases hg
  by_cases hp : s.pollContinuous = true
  · simp only [hp, if_true] at h ⊢
    obtain ⟨_, _, hq, h⟩ := bind_eq_ok h
    rw [getParams_run] at hq
    cases hq
    obtain ⟨b, u, hu, h⟩ := bind_eq_ok h
    obtain ⟨_, _, _, rfl⟩ := (xfer_ok hu).1
    obtain ⟨_, _, hq, h⟩ := bind_eq_ok h
    rw [countPoll_run] at hq
    cases hq
    split at h
    · obtain ⟨_, v, hv, h⟩ := bind_eq_ok h
      obtain ⟨_, _, _, rfl⟩ := csDeassert_ok hv
      obtain ⟨_, _, _, rfl⟩ := afterWait_ok (by rfl) h
      exact .inl ⟨_, _, _, rfl⟩
    · obtain ⟨_, _, _, rfl⟩ := park_ok h
      exact .inr ⟨_, _, _, rfl⟩
  · simp only [hp] at h ⊢
    simp only [Bool.false_eq_true, if_false] at h ⊢
    obtain ⟨b, u, hu, h⟩ := bind_eq_ok h
    obtain ⟨_, _, _, rfl⟩ := statusTxn_ok hu
    obtain ⟨_, _, hq, h⟩ := bind_eq_ok h
    rw [countPoll_run] at hq
    cases hq
    split at h
    · obtain ⟨_, _, _, rfl⟩ := afterWait_ok (by rfl) h
      exact .inl ⟨_, _, _, rfl⟩
    · obtain ⟨e, tr, r, rfl⟩ := park_ok h
      refine .inr ⟨e, tr, r, ?_⟩
      rcases s
      cases hf
      rfl

/-- `wait_ready` up to and with its first turn. -/
theorem waitReady_ok {w : Waiter} {s t : State} (h : (waitReady w).run s = .ok () t) :
    Moved { s with fsm := .idle, csN := true, pollCount := 1 } t ∨
    Moved { s with
      fsm := .busyWait, csN := !s.pollContinuous, pollCount := 1, pending := some w } t := by
  obtain ⟨_, _, hq, h⟩ := bind_eq_ok h
  rw [startWait_run] at hq
  cases hq
  obtain ⟨_, u, hu, h⟩ := bind_eq_ok h
  obtain ⟨_, _, hq, hu⟩ := bind_eq_ok hu
  rw [get_run] at hq
  cases hq
  have hu' : Moved { s with
      fsm := .busyWait, pollCount := 0, csN := if s.pollContinuous then false else s.csN } u := by
    rcases hp : s.pollContinuous
    · have hp' : State.pollContinuous { s with fsm := .busyWait, pollCount := 0 } = false := hp
      simp only [hp', Bool.false_eq_true, if_false, pure_run] at hu ⊢
      cases hu
      exact .refl _
    · have hp' : State.pollContinuous { s with fsm := .busyWait, pollCount := 0 } = true := hp
      simp only [hp', if_true] at hu ⊢
      obtain ⟨_, _, _, rfl⟩ := frame_ok hu
      exact ⟨_, _, _, rfl⟩
  obtain ⟨e, tr, r, rfl⟩ := hu'
  rcases pollOnce_ok (by rfl) h with ⟨_, _, _, rfl⟩ | ⟨e', tr', r', rfl⟩
  · exact .inl ⟨_, _, _, rfl⟩
  · refine .inr ⟨e', tr', r', ?_⟩
    have hc : State.pollContinuous { s with
        fsm := .busyWait, pollCount := 0, csN := if s.pollContinuous then false else s.csN
        env := e, trace := tr, resets := r } = s.pollContinuous := rfl
    rw [hc]
    rcases s.pollContinuous <;> rfl

/-- `triggered` (R160) up to and with the first turn of its synchroniser. -/
theorem triggered_ok {bytes : List Byte} {w : Waiter} {s t : State}
    (h : (triggered bytes w).run s = .ok () t) :
    Moved { s with fsm := .idle, csN := true, pollCount := 1 } t ∨
    Moved { s with
      fsm := .busyWait, csN := !s.pollContinuous, pollCount := 1, pending := some w } t := by
  obtain ⟨_, u, hu, h⟩ := bind_eq_ok h
  obtain ⟨_, _, _, rfl⟩ := frame_ok hu
  obtain ⟨_, v, hv, h⟩ := bind_eq_ok h
  obtain ⟨_, _, _, rfl⟩ := pulse_ok hv
  rcases waitReady_ok h with ⟨_, _, _, rfl⟩ | ⟨_, _, _, rfl⟩
  · exact .inl ⟨_, _, _, rfl⟩
  · exact .inr ⟨_, _, _, rfl⟩

theorem armStream_ok {bytes : List Byte} {s t : State} (h : (armStream bytes).run s = .ok () t) :
    Moved { s with fsm := .armedStream, csN := false } t := by
  obtain ⟨_, u, hu, h⟩ := bind_eq_ok h
  obtain ⟨_, _, _, rfl⟩ := frame_ok hu
  obtain ⟨_, _, hq, h⟩ := bind_eq_ok h
  rw [setFsm_run] at hq
  cases hq
  obtain ⟨_, _, _, rfl⟩ := respond_ok h
  exact ⟨_, _, _, rfl⟩

theorem frameAndDelay_ok {bytes : List Byte} {n : Nat} {s t : State}
    (h : (frameAndDelay bytes n).run s = .ok () t) :
    Moved { s with fsm := .idle, csN := true } t := by
  obtain ⟨_, u, hu, h⟩ := bind_eq_ok h
  obtain ⟨_, _, _, rfl⟩ := frame_ok hu
  obtain ⟨_, v, hv, h⟩ := bind_eq_ok h
  obtain ⟨_, _, _, rfl⟩ := csDeassert_ok hv
  obtain ⟨_, x, hx, h⟩ := bind_eq_ok h
  obtain ⟨_, _, _, rfl⟩ := delayUs_ok hx
  obtain ⟨_, _, hq, h⟩ := bind_eq_ok h
  rw [setFsm_run] at hq
  cases hq
  obtain ⟨_, _, _, rfl⟩ := respond_ok h
  exact ⟨_, _, _, rfl⟩

theorem initAct_ok {cfg : BitVec 2} {s t : State} (h : (initAct cfg).run s = .ok () t) :
    Moved { s with
      pinsEn := true, csN := true, resetN := true, wpN := true, cfg := cfg, fsm := .idle
      aborted := false } t := by
  obtain ⟨_, u, hu, h⟩ := bind_eq_ok h
  obtain ⟨_, _, _, rfl⟩ := pinsEnable_ok hu
  obtain ⟨_, v, hv, h⟩ := bind_eq_ok h
  obtain ⟨_, _, _, rfl⟩ := csDeassert_ok hv
  obtain ⟨_, x, hx, h⟩ := bind_eq_ok h
  obtain ⟨_, _, _, rfl⟩ := rstHigh_ok hx
  obtain ⟨_, y, hy, h⟩ := bind_eq_ok h
  obtain ⟨_, _, _, rfl⟩ := wpDrive_ok hy
  obtain ⟨_, _, hq, h⟩ := bind_eq_ok h
  rw [modify_run] at hq
  cases hq
  obtain ⟨_, _, _, rfl⟩ := respond_ok h
  exact ⟨_, _, _, rfl⟩

theorem statusReadAct_ok {s t : State} (h : statusReadAct.run s = .ok () t) :
    Moved { s with fsm := .idle, csN := true } t := by
  obtain ⟨_, u, hu, h⟩ := bind_eq_ok h
  obtain ⟨_, _, _, rfl⟩ := statusTxn_ok hu
  obtain ⟨_, _, hq, h⟩ := bind_eq_ok h
  rw [setFsm_run] at hq
  cases hq
  obtain ⟨_, _, _, rfl⟩ := respond_ok h
  exact ⟨_, _, _, rfl⟩

/-- ID_READ ends deselected in IDLE or with the stream open (R127). -/
theorem idReadAct_ok {s t : State} (h : idReadAct.run s = .ok () t) :
    Moved { s with fsm := .idle, csN := true } t ∨
    Moved { s with fsm := .armedStream, csN := false } t := by
  obtain ⟨_, _, hp, h⟩ := bind_eq_ok h
  rw [getParams_run] at hp
  cases hp
  obtain ⟨_, u, hu, h⟩ := bind_eq_ok h
  obtain ⟨_, _, _, rfl⟩ := frame_ok hu
  obtain ⟨_, u, hu, h⟩ := bind_eq_ok h
  obtain ⟨_, _, _, rfl⟩ := (xfer_ok hu).1
  obtain ⟨_, u, hu, h⟩ := bind_eq_ok h
  obtain ⟨_, _, _, rfl⟩ := (xfer_ok hu).1
  obtain ⟨_, u, hu, h⟩ := bind_eq_ok h
  obtain ⟨_, _, _, rfl⟩ := (xfer_ok hu).1
  obtain ⟨n, u, hu, h⟩ := bind_eq_ok h
  obtain ⟨_, _, _, rfl⟩ := (xfer_ok hu).1
  obtain ⟨_, v, hv, h⟩ := bind_eq_ok h
  unfold idEnd at hv
  split at hv
  · obtain ⟨_, y, hy, hv⟩ := bind_eq_ok hv
    obtain ⟨_, _, _, rfl⟩ := csDeassert_ok hy
    rw [setFsm_run] at hv
    cases hv
    obtain ⟨_, _, _, rfl⟩ := respond_ok h
    exact .inl ⟨_, _, _, rfl⟩
  · rw [setFsm_run] at hv
    cases hv
    obtain ⟨_, _, _, rfl⟩ := respond_ok h
    exact .inr ⟨_, _, _, rfl⟩

theorem hardResetAct_ok {p : Params} {s t : State} (h : (hardResetAct p).run s = .ok () t) :
    Moved { s with fsm := .selectedBare, csN := false, resetN := true } t := by
  obtain ⟨_, u, hu, h⟩ := bind_eq_ok h
  obtain ⟨_, _, _, rfl⟩ := rstLow_ok hu
  obtain ⟨_, u, hu, h⟩ := bind_eq_ok h
  obtain ⟨_, _, _, rfl⟩ := delayUs_ok hu
  obtain ⟨_, u, hu, h⟩ := bind_eq_ok h
  obtain ⟨_, _, _, rfl⟩ := csDeassert_ok hu
  obtain ⟨_, u, hu, h⟩ := bind_eq_ok h
  obtain ⟨_, _, _, rfl⟩ := rstHigh_ok hu
  obtain ⟨_, u, hu, h⟩ := bind_eq_ok h
  obtain ⟨_, _, _, rfl⟩ := delayUs_ok hu
  obtain ⟨_, u, hu, h⟩ := bind_eq_ok h
  obtain ⟨_, _, _, rfl⟩ := csAssert_ok hu
  obtain ⟨_, _, hq, h⟩ := bind_eq_ok h
  rw [setFsm_run] at hq
  cases hq
  obtain ⟨_, _, _, rfl⟩ := respond_ok h
  exact ⟨_, _, _, rfl⟩

end Sys2Proof.Machine
end

