-- ==== Sys2Proof/Laws/PerInstr.lean ====
section
/-! SUPPORT. One lemma per constructor on the frame an operation sends. -/

namespace Sys2Proof.Laws.Frames

/-- How many bytes an operation's frame has (R70, R74). -/
def frameBytes (p : Params) : Instr → Nat
  | .init _ => 0
  | .release => 0
  | .streamXfer _ => 0
  | .endStream => 0
  | .statusRead => 1
  | .waitReady => 0
  | .idRead => 1
  | .bufWrite _ _ => 4
  | .bufRead _ _ => 4
  | .pageRead _ _ => 8
  | .contReadLow _ _ => 4
  | .contReadHigh _ _ => 5
  | .bufToPageE _ _ => 4
  | .bufToPageNE _ _ => 4
  | .pageToBuf _ _ => 4
  | .compare _ _ => 4
  | .pageErase _ => 4
  | .blockErase _ => 4
  | .sectorErase _ => 4
  | .chipErase => p.opChipErase.length
  | .deepPowerDown => 1
  | .resume => 1
  | .hardReset => 0
  | .reserved _ => 0

/-- The command whose opcode an operation's frame begins with (R83, R86); none for F0. -/
def frameCommand : Instr → Option Command
  | .init _ => none
  | .release => none
  | .streamXfer _ => none
  | .endStream => none
  | .statusRead => some .status
  | .waitReady => none
  | .idRead => some .id
  | .bufWrite buf _ => some (.bufWrite buf)
  | .bufRead buf _ => some (.bufRead buf)
  | .pageRead _ _ => some .pageRead
  | .contReadLow _ _ => some .contReadLow
  | .contReadHigh _ _ => some .contReadHigh
  | .bufToPageE buf _ => some (.bufToPageE buf)
  | .bufToPageNE buf _ => some (.bufToPageNE buf)
  | .pageToBuf _ buf => some (.pageToBuf buf)
  | .compare _ buf => some (.compare buf)
  | .pageErase _ => some .pageErase
  | .blockErase _ => some .blockErase
  | .sectorErase _ => some .sectorErase
  | .chipErase => some .chipErase
  | .deepPowerDown => some .deepPowerDown
  | .resume => some .resume
  | .hardReset => none
  | .reserved _ => none

/-- The frame has the bytes its format says, and begins with its opcode (R70, R83). -/
def Statement (i : Instr) : Prop :=
  ∀ p : Params, (busFrame p i).length = frameBytes p i ∧
    (p.opChipErase ≠ [] → (busFrame p i).head? = (frameCommand i).map p.opcode)

theorem init (cfg : BitVec 2) : Statement (.init cfg) := fun _ => ⟨rfl, fun _ => rfl⟩
theorem release : Statement .release := fun _ => ⟨rfl, fun _ => rfl⟩
theorem streamXfer (tx : Byte) : Statement (.streamXfer tx) := fun _ => ⟨rfl, fun _ => rfl⟩
theorem endStream : Statement .endStream := fun _ => ⟨rfl, fun _ => rfl⟩
theorem statusRead : Statement .statusRead := fun _ => ⟨rfl, fun _ => rfl⟩
theorem waitReady : Statement .waitReady := fun _ => ⟨rfl, fun _ => rfl⟩
theorem idRead : Statement .idRead := fun _ => ⟨rfl, fun _ => rfl⟩
theorem bufWrite (buf : Buffer) (offset : Half) :
    Statement (.bufWrite buf offset) := fun _ => ⟨rfl, fun _ => rfl⟩
theorem bufRead (buf : Buffer) (offset : Half) :
    Statement (.bufRead buf offset) := fun _ => ⟨rfl, fun _ => rfl⟩
theorem pageRead (page offset : Half) :
    Statement (.pageRead page offset) := fun _ => ⟨rfl, fun _ => rfl⟩
theorem contReadLow (page offset : Half) :
    Statement (.contReadLow page offset) := fun _ => ⟨rfl, fun _ => rfl⟩
theorem contReadHigh (page offset : Half) :
    Statement (.contReadHigh page offset) := fun _ => ⟨rfl, fun _ => rfl⟩
theorem bufToPageE (buf : Buffer) (page : Half) :
    Statement (.bufToPageE buf page) := fun _ => ⟨rfl, fun _ => rfl⟩
theorem bufToPageNE (buf : Buffer) (page : Half) :
    Statement (.bufToPageNE buf page) := fun _ => ⟨rfl, fun _ => rfl⟩
theorem pageToBuf (page : Half) (buf : Buffer) :
    Statement (.pageToBuf page buf) := fun _ => ⟨rfl, fun _ => rfl⟩
theorem compare (page : Half) (buf : Buffer) :
    Statement (.compare page buf) := fun _ => ⟨rfl, fun _ => rfl⟩
theorem pageErase (page : Half) : Statement (.pageErase page) := fun _ => ⟨rfl, fun _ => rfl⟩
theorem blockErase (block : Half) : Statement (.blockErase block) := fun _ => ⟨rfl, fun _ => rfl⟩
theorem sectorErase (sector : Half) : Statement (.sectorErase sector) := fun p => by
  rw [busFrame, addrS]
  by_cases h : sector.toNat = 10 ∨ sector.toNat = 11
  · rw [if_pos h]
    exact ⟨rfl, fun _ => rfl⟩
  · rw [if_neg h]
    exact ⟨rfl, fun _ => rfl⟩
theorem chipErase : Statement .chipErase := fun p => ⟨rfl, fun h => by
  obtain ⟨b, bs, hb⟩ := List.exists_cons_of_ne_nil h
  simp [busFrame, frameCommand, Params.opcode, hb]⟩
theorem deepPowerDown : Statement .deepPowerDown := fun _ => ⟨rfl, fun _ => rfl⟩
theorem resume : Statement .resume := fun _ => ⟨rfl, fun _ => rfl⟩
theorem hardReset : Statement .hardReset := fun _ => ⟨rfl, fun _ => rfl⟩
theorem reserved (opsel : BitVec 5) : Statement (.reserved opsel) := fun _ => ⟨rfl, fun _ => rfl⟩

end Sys2Proof.Laws.Frames
end

