-- ==== Sys2Proof/Laws/Pins.lean ====
section
/-! SUPPORT. The pin latches hold the level last driven on each (R20), however a piece of an operation
ends. -/

namespace Sys2Proof.Machine

/-- The pin latches (R20). -/
def State.pins (s : State) : Bool × Bool × Bool × Bool := (s.pinsEn, s.csN, s.resetN, s.wpN)

/-- The trace grew by events after which the pins are as they are. -/
def PinsFollow (s t : State) : Prop :=
  ∃ evs, t.trace = s.trace ++ evs ∧ t.pins = (evs.foldl State.latch s).pins

theorem PinsFollow.refl (s : State) : PinsFollow s s := ⟨[], by simp, rfl⟩

/-- A change of neither trace nor pins. -/
theorem PinsFollow.still {s t : State} (ht : t.trace = s.trace) (hp : t.pins = s.pins) :
    PinsFollow s t := ⟨[], by simp [ht], hp⟩

/-- What events do to the pins depends on the pins alone. -/
theorem foldl_latch_pins (evs : List Event) {s t : State} (h : s.pins = t.pins) :
    (evs.foldl State.latch s).pins = (evs.foldl State.latch t).pins := by
  induction evs generalizing s t with
  | nil => exact h
  | cons ev evs ih =>
    refine ih ?_
    simp only [State.pins, Prod.mk.injEq] at h ⊢
    cases ev <;> simp [State.latch, h]

theorem PinsFollow.trans {s t u : State} (h : PinsFollow s t) (k : PinsFollow t u) : PinsFollow s u := by
  obtain ⟨es, ht, hp⟩ := h
  obtain ⟨fs, hu, hq⟩ := k
  exact ⟨es ++ fs, by rw [hu, ht, List.append_assoc],
    by rw [hq, List.foldl_append, foldl_latch_pins fs hp]⟩

/-- A piece that drives the pins by events only. -/
def Follows {α : Type} (m : Act α) : Prop := ∀ s, PinsFollow s (finalState (m.run s))

variable {α β : Type}

theorem Follows.bind {m : Act α} {k : α → Act β} (h : Follows m) (hk : ∀ x, Follows (k x)) :
    Follows (m >>= k) := by
  intro s
  have hs := h s
  simp only [EStateM.run, Bind.bind, EStateM.bind] at hs ⊢
  split <;> rename_i hm <;> rw [hm] at hs
  · exact hs.trans (hk _ _)
  · exact hs

theorem Follows.pure (x : α) : Follows (pure x : Act α) := fun s => .refl s
theorem Follows.get : Follows (get : Act State) := fun s => .refl s
theorem Follows.getParams : Follows getParams := fun s => .refl s

theorem Follows.modify {g : State → State} (h : ∀ s, (g s).trace = s.trace ∧ (g s).pins = s.pins) :
    Follows (modify g : Act Unit) := fun s => .still (h s).1 (h s).2

theorem Follows.ite {c : Prop} [Decidable c] {m k : Act α} (hm : Follows m) (hk : Follows k) :
    Follows (if c then m else k) := by
  split
  · exact hm
  · exact hk

theorem tick_follows : Follows tick := by
  intro s
  rcases hr : s.resets with _ | ⟨_ | n, rest⟩ <;>
    simp only [EStateM.run, tick, hr, finalState] <;> exact .still rfl rfl

theorem lineOp_follows (ev : Event) : Follows (lineOp ev fun s => s.latch ev) := by
  refine tick_follows.bind fun _ => Follows.bind (fun s => ?_) fun _ s => ⟨[ev], ?_, ?_⟩
  · simp only [EStateM.run, askLine]
    split <;> exact .still rfl rfl
  · cases ev <;> rfl
  · cases ev <;> rfl

theorem xfer_follows (t : Byte) : Follows (xfer t) := by
  refine tick_follows.bind fun _ s => ?_
  simp only [EStateM.run, answerXfer]
  split
  · exact ⟨_, rfl, rfl⟩
  · exact .still rfl rfl

theorem respond_follows (r : Response) : Follows (respond r) :=
  tick_follows.bind fun _ _ => ⟨[.resp r], rfl, rfl⟩

theorem setFsm_follows (f : Fsm) : Follows (setFsm f) := Follows.modify fun _ => ⟨rfl, rfl⟩
theorem countPoll_follows : Follows countPoll := Follows.modify fun _ => ⟨rfl, rfl⟩
theorem startWait_follows : Follows startWait := Follows.modify fun _ => ⟨rfl, rfl⟩
theorem csDeassert_follows : Follows csDeassert := lineOp_follows (.cs true)
theorem csAssert_follows : Follows csAssert := lineOp_follows (.cs false)
theorem rstLow_follows : Follows rstLow := lineOp_follows (.rst false)
theorem rstHigh_follows : Follows rstHigh := lineOp_follows (.rst true)
theorem wpDrive_follows (v : Bool) : Follows (wpDrive v) := lineOp_follows (.wp v)
theorem pinsEnable_follows : Follows pinsEnable := lineOp_follows (.pins true)
theorem delayUs_follows (n : Nat) : Follows (delayUs n) := lineOp_follows (.delayUs n)

theorem csHighDelay_follows : Follows csHighDelay :=
  Follows.getParams.bind fun _ => Follows.ite (delayUs_follows _) (Follows.pure _)

theorem pulse_follows : Follows pulse :=
  csDeassert_follows.bind fun _ => csHighDelay_follows.bind fun _ => csAssert_follows

theorem sendBytes_follows (bytes : List Byte) : Follows (sendBytes bytes) := by
  induction bytes with
  | nil => exact Follows.pure _
  | cons t ts ih => exact (xfer_follows t).bind fun _ => ih

theorem enterFraming_follows : Follows enterFraming := Follows.modify fun s => by
  split <;> exact ⟨rfl, rfl⟩

theorem frame_follows (bytes : List Byte) : Follows (frame bytes) :=
  pulse_follows.bind fun _ => enterFraming_follows.bind fun _ => sendBytes_follows bytes

theorem statusTxn_follows : Follows statusTxn :=
  Follows.getParams.bind fun _ => (frame_follows _).bind fun _ => (xfer_follows _).bind fun _ =>
    csDeassert_follows.bind fun _ => Follows.pure _

theorem armStream_follows (bytes : List Byte) : Follows (armStream bytes) :=
  (frame_follows _).bind fun _ => (setFsm_follows _).bind fun _ => respond_follows _

theorem frameAndDelay_follows (bytes : List Byte) (n : Nat) : Follows (frameAndDelay bytes n) :=
  (frame_follows _).bind fun _ => csDeassert_follows.bind fun _ => (delayUs_follows n).bind fun _ =>
    (setFsm_follows _).bind fun _ => respond_follows _

theorem afterWait_follows : (w : Waiter) → Follows (afterWait w)
  | .done => (setFsm_follows _).bind fun _ => respond_follows _
  | .compare => (setFsm_follows _).bind fun _ => statusTxn_follows.bind fun _ =>
      (setFsm_follows _).bind fun _ => respond_follows _

theorem park_follows (w : Waiter) : Follows (park w) :=
  (Follows.getParams.bind fun _ => Follows.ite (delayUs_follows _) (Follows.pure _)).bind fun _ =>
    Follows.modify fun _ => ⟨rfl, rfl⟩

/-- One turn of the synchroniser's loop. -/
theorem pollOnce_follows (w : Waiter) : Follows (pollOnce w) :=
  Follows.get.bind fun _ => Follows.ite
    (Follows.getParams.bind fun _ => (xfer_follows _).bind fun _ =>
      countPoll_follows.bind fun _ =>
        Follows.ite (csDeassert_follows.bind fun _ => afterWait_follows w) (park_follows w))
    (statusTxn_follows.bind fun _ => countPoll_follows.bind fun _ =>
      Follows.ite (afterWait_follows w) (park_follows w))

theorem waitReady_follows (w : Waiter) : Follows (waitReady w) :=
  startWait_follows.bind fun _ =>
    (Follows.get.bind fun _ => Follows.ite (frame_follows _) (Follows.pure _)).bind fun _ =>
      pollOnce_follows w

theorem triggered_follows (bytes : List Byte) (w : Waiter) : Follows (triggered bytes w) :=
  (frame_follows _).bind fun _ => pulse_follows.bind fun _ => waitReady_follows w

/-- A whole operation without a reset on its way. -/
theorem Follows.settle {m : Act Unit} (h : Follows m) {s : State}
    (hr : ∀ t, m.run s ≠ .error .blockReset t) : PinsFollow s (settle m s) := by
  have hs := h s
  unfold Machine.settle
  rcases hm : m.run s with ⟨_, t⟩ | ⟨c | _, t⟩
  · simpa [hm, finalState] using hs
  · rw [hm] at hs
    exact PinsFollow.trans hs ⟨[.resp (.xferError c)], rfl, rfl⟩
  · exact absurd hm (hr t)

end Sys2Proof.Machine
end

