-- ==== Sys2Proof/Laws/Responder.lean ====
section
/-! SUPPORT. What the reference responder makes of a pulse, a frame, a trigger and a status
transaction. -/

namespace Sys2Proof.Machine

/-! ### Opcodes -/

/-- The first match of an injective key. -/
theorem find_key {α β : Type} [DecidableEq β] (f : α → β) (l : List α) (h : (l.map f).Nodup) (a : α)
    (ha : a ∈ l) : l.find? (fun k => f k == f a) = some a := by
  induction l with
  | nil => cases ha
  | cons x l ih =>
    rw [List.map_cons, List.nodup_cons] at h
    rcases List.mem_cons.1 ha with rfl | hm
    · simp
    · have hx : f x ≠ f a := fun he => h.1 (he ▸ List.mem_map_of_mem hm)
      rw [List.find?_cons_of_neg (by simpa using hx)]
      exact ih h.2 hm

/-- Every command is in the list of all. -/
theorem Command.mem_all (k : Command) : k ∈ Command.all := by
  cases k <;> first | decide | (rename_i b; cases b <;> decide)

/-- A listener tells every command by its opcode (R74). -/
theorem Params.commandOf_opcode {p : Params} (h : p.Legal) (k : Command) :
    p.commandOf (p.opcode k) = some k :=
  find_key p.opcode Command.all h.2 k (Command.mem_all k)

/-- No command but CHIP_ERASE starts with the first byte of OP_CHIP_ERASE. -/
theorem Params.ne_chipErase {p : Params} (h : p.Legal) {k : Command} (hk : k ≠ .chipErase)
    (bytes : List Byte) : p.opcode k :: bytes ≠ p.opChipErase := by
  intro he
  have h1 : p.opcode .chipErase = p.opcode k := by
    rw [Params.opcode, ← he]
    rfl
  have h2 := Params.commandOf_opcode h .chipErase
  rw [h1, Params.commandOf_opcode h k] at h2
  exact hk (Option.some.inj h2)

/-! ### Lines -/

/-- Chip-select high, with nothing waiting for it. -/
theorem Chip.onLine_cs_true {p : Params} {c : Chip} (h : c.Disarmed p) :
    c.onLine p (.cs true) = { c with sel := false } := by
  rcases hs : c.sel with _ | _
  · simp only [Chip.onLine, hs]
    rcases c
    cases hs
    rfl
  · simp [Chip.onLine, hs, h hs]

/-- Chip-select high on a triggered command. -/
theorem Chip.onLine_trigger {p : Params} {c d : Chip} (hs : c.sel = true) (h : c.triggered p = some d) :
    c.onLine p (.cs true) = { d with sel := false, busyLeft := c.latency } := by
  simp [Chip.onLine, hs, h]

/-- The chip with a new transaction open. -/
def Chip.opened (c : Chip) : Chip := { c with sel := true, cmd := [] }

/-- Chip-select low opens a transaction. -/
theorem Chip.onLine_cs_false {p : Params} {c : Chip} (h : c.sel = false) :
    c.onLine p (.cs false) = c.opened := by
  simp [Chip.onLine, h, Chip.opened]

/-- An open transaction without a byte triggers nothing. -/
theorem Chip.opened_disarmed (p : Params) (c : Chip) : c.opened.Disarmed p := by
  simp [Chip.Disarmed, Chip.opened, Chip.triggered]

/-- A chip that is not selected triggers nothing. -/
theorem Chip.unselected_disarmed {p : Params} {c : Chip} (h : c.sel = false) : c.Disarmed p := by
  simp [Chip.Disarmed, h]

theorem Env.play_line {p : Params} (ev : Event) (ds : List Drive) (c : Chip) :
    Env.play p (.line ev :: ds) (.responder c) =
      ⟨ev :: (Env.play p ds (.responder (c.onLine p ev))).events,
       (Env.play p ds (.responder (c.onLine p ev))).rx,
       (Env.play p ds (.responder (c.onLine p ev))).env⟩ := rfl

theorem Env.play_send {p : Params} (t : Byte) (ds : List Drive) (c : Chip) :
    Env.play p (.send t :: ds) (.responder c) =
      ⟨.xfer t (c.xfer p t).1 :: (Env.play p ds (.responder (c.xfer p t).2)).events,
       (c.xfer p t).1 :: (Env.play p ds (.responder (c.xfer p t).2)).rx,
       (Env.play p ds (.responder (c.xfer p t).2)).env⟩ := rfl

/-- A delay leaves the chip as it is. -/
theorem Env.play_csHigh (p : Params) (c : Chip) :
    (Env.play p (csHighDrives p) (.responder c)).env = .responder c ∧
    (Env.play p (csHighDrives p) (.responder c)).rx = [] := by
  unfold csHighDrives
  split <;> simp [Env.play, Env.line, Chip.onLine]

/-- A pulse, after chip-select went high. -/
theorem Env.play_pulse_of {p : Params} {c d : Chip} (h : c.onLine p (.cs true) = d)
    (hd : d.sel = false) :
    (Env.play p (pulseDrives p) (.responder c)).env = .responder d.opened ∧
    (Env.play p (pulseDrives p) (.responder c)).rx = [] := by
  obtain ⟨h1, h2⟩ := Env.play_csHigh p d
  simp [pulseDrives, Env.play_line, Env.play_append, h, h1, h2, Env.play, Env.line,
    Chip.onLine_cs_false hd]

/-- A pulse with nothing waiting for it opens a transaction. -/
theorem Env.play_pulse {p : Params} {c : Chip} (h : c.Disarmed p) :
    (Env.play p (pulseDrives p) (.responder c)).env = .responder c.opened ∧
    (Env.play p (pulseDrives p) (.responder c)).rx = [] :=
  Env.play_pulse_of (d := { c with sel := false }) (Chip.onLine_cs_true h) rfl

/-! ### Bytes -/

/-- The first byte of a transaction is only kept. -/
theorem Chip.xfer_first {p : Params} {c : Chip} (hs : c.sel = true) (hc : c.cmd = []) (t : Byte) :
    c.xfer p t = (0x00, { c with cmd := [t] }) := by
  simp [Chip.xfer, hs, hc]

/-- A later byte of a transaction. -/
theorem Chip.xfer_later {p : Params} {c : Chip} (hs : c.sel = true) {op : Byte} {rest : List Byte}
    (hc : c.cmd = op :: rest) {k : Command} (hk : p.commandOf op = some k) (t : Byte) :
    c.xfer p t =
      Chip.afterOpcode p k (rest.length + 1) t { c with cmd := op :: rest ++ [t] } := by
  simp [Chip.xfer, hs, hc, hk]

/-- Bytes sent one after another. -/
def Chip.sent (p : Params) : List Byte → Chip → Chip
  | [], c => c
  | t :: ts, c => Chip.sent p ts (c.xfer p t).2

theorem Env.play_sends (p : Params) (bytes : List Byte) (c : Chip) :
    (Env.play p (bytes.map .send) (.responder c)).env = .responder (c.sent p bytes) := by
  induction bytes generalizing c with
  | nil => rfl
  | cons t ts ih => exact ih _

/-- A frame, with nothing waiting for its pulse. -/
theorem Env.play_frame {p : Params} {c : Chip} (h : c.Disarmed p) (bytes : List Byte) :
    (Env.play p (frameDrives p bytes) (.responder c)).env =
      .responder (c.opened.sent p bytes) := by
  rw [frameDrives, Env.play_append, (Env.play_pulse h).1]
  exact Env.play_sends p bytes _

/-- An opcode and three address bytes, for a command with an address (R60). -/
theorem Chip.sent_address {p : Params} (h : p.Legal) (c : Chip) {k : Command}
    (hk : addressed k = true) (b0 b1 b2 : Byte) :
    c.opened.sent p [p.opcode k, b0, b1, b2] =
      { c with
        sel := true, cmd := [p.opcode k, b0, b1, b2]
        ptr := ⟨commandSpace k, pageField (addr24 b0 b1 b2), offsetField (addr24 b0 b1 b2)⟩ } := by
  have hc := Params.commandOf_opcode h k
  cases k <;> simp [addressed] at hk <;>
    simp [Chip.sent, Chip.opened, Chip.xfer, hc, Chip.afterOpcode, addressed, Chip.setPtr]

/-- The bytes of OP_CHIP_ERASE (R60: nothing but CMD changes). -/
theorem Chip.sent_chipErase {p : Params} (h : p.Legal) (c : Chip) :
    c.opened.sent p p.opChipErase = { c with sel := true, cmd := p.opChipErase } := by
  have hc := Params.commandOf_opcode h .chipErase
  obtain ⟨op, rest, he⟩ := List.exists_cons_of_ne_nil h.1
  rw [Params.opcode, he, List.headD_cons] at hc
  have key : ∀ (ts sent : List Byte) (d : Chip), d.sel = true → d.cmd = op :: sent →
      d.sent p ts = { d with cmd := op :: (sent ++ ts) } := by
    intro ts
    induction ts with
    | nil =>
      intro sent d _ hd
      rw [List.append_nil, ← hd]
      rfl
    | cons t ts ih =>
      intro sent d hs hd
      have hx : (d.xfer p t).2 = { d with cmd := op :: (sent ++ [t]) } := by
        rw [Chip.xfer_later hs hd hc]
        simp [Chip.afterOpcode, addressed]
      rw [Chip.sent, hx, ih (sent ++ [t]) { d with cmd := op :: (sent ++ [t]) } hs rfl]
      simp
  rw [he, Chip.sent, Chip.xfer_first rfl rfl, key rest [] _ rfl rfl]
  simp [Chip.opened]

/-! ### Triggers -/

/-- What a frame of four bytes stands for when chip-select goes high (R59). -/
theorem Chip.triggered_address {p : Params} (h : p.Legal) {c : Chip} {k : Command}
    (hk : k ≠ .chipErase) {b0 b1 b2 : Byte} (hc : c.cmd = [p.opcode k, b0, b1, b2]) :
    c.triggered p = c.effect p k (addr24 b0 b1 b2) := by
  unfold Chip.triggered
  rw [hc, if_neg (fun hn => Params.ne_chipErase h hk _ hn.2)]
  simp [Params.commandOf_opcode h k]

/-- A command that has sent something other than four bytes triggers nothing, CHIP_ERASE apart (R59). -/
theorem Chip.triggered_other {p : Params} (h : p.Legal) {c : Chip} {k : Command}
    (hk : k ≠ .chipErase) {bytes : List Byte} (hc : c.cmd = p.opcode k :: bytes)
    (hl : bytes.length ≠ 3) : c.triggered p = none := by
  unfold Chip.triggered
  rw [hc, if_neg (fun hn => Params.ne_chipErase h hk _ hn.2)]
  split
  · rename_i he
    simp at he
    simp [he.2] at hl
  · rfl

/-- The frame and the trigger pulse of a triggered command: its effect, the chip busy for its latency,
and a new transaction open. -/
theorem Env.play_trigger {p : Params} (h : p.Legal) {c d : Chip} (hd : c.Disarmed p) {k : Command}
    (ha : addressed k = true) {b0 b1 b2 : Byte}
    (he : Chip.effect p k (addr24 b0 b1 b2) { c with
        sel := true, cmd := [p.opcode k, b0, b1, b2]
        ptr := ⟨commandSpace k, pageField (addr24 b0 b1 b2), offsetField (addr24 b0 b1 b2)⟩ } =
      some d) :
    (Env.play p (triggerDrives p [p.opcode k, b0, b1, b2]) (.responder c)).env =
      .responder (Chip.opened { d with sel := false, busyLeft := c.latency }) := by
  rw [triggerDrives, Env.play_append, Env.play_frame hd, Chip.sent_address h c ha]
  refine (Env.play_pulse_of (Chip.onLine_trigger rfl ?_) rfl).1
  rw [Chip.triggered_address h (by rintro rfl; cases ha) rfl, he]

/-- The same for CHIP_ERASE. -/
theorem Env.play_trigger_chipErase {p : Params} (h : p.Legal) {c : Chip} (hd : c.Disarmed p) :
    (Env.play p (triggerDrives p p.opChipErase) (.responder c)).env =
      .responder (Chip.opened { c with
        sel := false, cmd := p.opChipErase, mem := [], busyLeft := c.latency }) := by
  rw [triggerDrives, Env.play_append, Env.play_frame hd, Chip.sent_chipErase h]
  refine (Env.play_pulse_of (Chip.onLine_trigger rfl (d := { c with
    sel := true, cmd := p.opChipErase, mem := [] }) ?_) rfl).1
  simp [Chip.triggered, h.1]

/-! ### Status transactions -/

/-- The status byte of the chip as it is (R61). -/
def Chip.status (c : Chip) : Byte := c.statusByte.1

/-- Bit 7 of the status byte: the chip has no busy answer left (R61). -/
theorem Chip.ready_status (c : Chip) : ready c.status = decide (c.busyLeft = 0) := by
  rcases c with ⟨_, _, _, _, _, _, bl, comp, _, low, _⟩
  by_cases hb : bl = 0 <;> cases comp <;>
    simp [ready, statusRdy, Chip.status, Chip.statusByte, hb]

/-- Bit 6 of the status byte: COMP (R61). -/
theorem Chip.compareMatch_status (c : Chip) : compareMatch c.status = !c.comp := by
  rcases c with ⟨_, _, _, _, _, _, bl, comp, _, low, _⟩
  by_cases hb : bl = 0 <;> cases comp <;>
    simp [compareMatch, statusComp, Chip.status, Chip.statusByte, hb]

/-- A status byte of an open status transaction. -/
theorem Chip.xfer_status {p : Params} (h : p.Legal) {c : Chip} (hs : c.sel = true) {rest : List Byte}
    (hc : c.cmd = p.opStatus :: rest) (t : Byte) :
    c.xfer p t =
      (c.status, { c with busyLeft := c.busyLeft - 1, cmd := p.opStatus :: (rest ++ [t]) }) := by
  have ho := Params.commandOf_opcode h .status
  rw [Chip.xfer_later hs hc ho]
  rfl

/-- A status transaction (R121): the status byte, one busy answer fewer, chip-select high, and the
memories as they were. -/
theorem Env.play_status {p : Params} (h : p.Legal) {c : Chip} (hd : c.Disarmed p) :
    (Env.play p (statusDrives p) (.responder c)).env =
      .responder { c with
        sel := false, cmd := [p.opStatus, p.fill], busyLeft := c.busyLeft - 1 } ∧
    (Env.play p (statusDrives p) (.responder c)).rx = [0x00, c.status] := by
  have h1 : (Env.play p (pulseDrives p) (.responder c)).env =
      .responder { c with sel := true, cmd := [] } := (Env.play_pulse hd).1
  have h2 : Chip.xfer p p.opStatus { c with sel := true, cmd := [] } =
      (0x00, { c with sel := true, cmd := [p.opStatus] }) := Chip.xfer_first rfl rfl _
  have h3 : Chip.xfer p p.fill { c with sel := true, cmd := [p.opStatus] } =
      (c.status,
        { c with sel := true, cmd := [p.opStatus, p.fill], busyLeft := c.busyLeft - 1 }) :=
    Chip.xfer_status (c := { c with sel := true, cmd := [p.opStatus] }) (rest := []) h rfl rfl p.fill
  have h4 : Chip.onLine p (.cs true) { c with
      sel := true, cmd := [p.opStatus, p.fill], busyLeft := c.busyLeft - 1 } =
      { c with sel := false, cmd := [p.opStatus, p.fill], busyLeft := c.busyLeft - 1 } :=
    Chip.onLine_cs_true fun _ =>
      Chip.triggered_other h (k := .status) (by simp) (bytes := [p.fill]) rfl (by simp)
  simp only [statusDrives, frameDrives, Env.play_append, h1, (Env.play_pulse hd).2, List.map_cons,
    List.map_nil, Env.play]
  simp only [Env.xfer, h2, h3, Env.line, h4]
  exact ⟨trivial, rfl⟩

end Sys2Proof.Machine
end

