-- ==== Sys2Proof/Tests/Slice0.lean ====
section
/-! SUPPORT. Tests on the vectors of 95_test_vectors.md (cited as V<n>) and on words written out from
30_encoding.md, and for every obligation with hypotheses a state and operands that meet them. -/

namespace Sys2Proof.Tests

open Sys2Proof Sys2Proof.Machine

/-! ### Small states -/

/-- The default instance after INIT 0b00, its environment answering the given bytes. -/
def idle (rx : List Byte) : State :=
  { State.resetWith Params.default (.oracle (rx.map fun r => ⟨r, none⟩) [] 0) with
    fsm := .idle, pinsEn := true, csN := true, resetN := true, wpN := true }

/-- `idle` in CONTINUOUS mode, or with the chip-erase flag set. -/
def idleCfg (cfg : BitVec 2) (rx : List Byte) : State := { idle rx with cfg := cfg }

/-- A stream is open. -/
def armed (rx : List Byte) : State := { idle rx with fsm := .armedStream, csN := false }

/-- An operation waits for a ready byte. -/
def waiting (w : Waiter) (rx : List Byte) : State :=
  { idle rx with fsm := .busyWait, pending := some w }

/-- `waiting` in CONTINUOUS mode. -/
def waitingOpen (w : Waiter) (rx : List Byte) : State :=
  { waiting w rx with cfg := 2, csN := false }

/-- `idle` with the reference responder. -/
def withChip (c : Chip) : State := { idle [] with env := .responder c }

/-- A stream is open in the reference responder. -/
def streaming (cmd : List Byte) (ptr : Ptr) : State :=
  { armed [] with env := .responder { Chip.initial with sel := true, cmd := cmd, ptr := ptr } }

/-- An instance with an error line, and what its transfers and lines answer. -/
def failing (answers : List Answer) (lines : List (Option ErrCode)) : State :=
  { idle [] with
    params := { Params.default with hasXferErr := true }
    env := .oracle answers lines 0 }

/-- The trace, FSM and poll counter an operation leaves. -/
def seen (o : Host.Outcome State Fault Refusal) : Option (List Event × Fsm × Nat) :=
  (stateOf o).map fun s => (s.trace, s.fsm, s.pollCount)

/-! ### Ill-formed operations (V23, R91) -/

theorem test_page_4096_ill_formed : (Instr.pageErase 4096).wellFormed Params.default = false := by decide
theorem test_offset_528_ill_formed : (Instr.bufWrite .buffer1 528).wellFormed Params.default = false := by
  decide
theorem test_offset_512_ill_formed_in_binary_mode :
    (Instr.bufRead .buffer1 512).wellFormed { Params.default with pageSize := .binary } = false := by decide
theorem test_block_512_ill_formed : (Instr.blockErase 512).wellFormed Params.default = false := by decide
theorem test_sector_0_ill_formed : (Instr.sectorErase 0).wellFormed Params.default = false := by decide
theorem test_sector_16_ill_formed : (Instr.sectorErase 16).wellFormed Params.default = false := by decide
theorem test_opsel_22_not_reserved : (Instr.reserved 0x16).wellFormed Params.default = false := by decide
theorem test_largest_operands_well_formed :
    (Instr.pageRead 4095 527).wellFormed Params.default = true := by decide

/-! ### Decoding words written out from the encodings (R71, R88) -/

theorem test_decode_status_read : decodeTableWord 8 0b11010111 = some .statusRead := by decide
theorem test_decode_id_read : decodeTableWord 8 0b10011111 = some .idRead := by decide
theorem test_decode_buf_write :
    decodeTableWord 32 0b10000100_00000000_00000010_00001111 = some (.bufWrite .buffer1 527) := by decide
theorem test_decode_buf_read :
    decodeTableWord 32 0b11010011_00000000_00000000_00000101 = some (.bufRead .buffer2 5) := by decide
theorem test_decode_page_read :
    decodeTableWord 64
      0b11010010_00000000_00101010_00001110_00000000_00000000_00000000_00000000 =
        some (.pageRead 10 526) := by decide
theorem test_decode_cont_read_low :
    decodeTableWord 32 0b00000011_00111111_11111110_00001111 = some (.contReadLow 4095 527) := by decide
theorem test_decode_cont_read_high :
    decodeTableWord 40 0b00001011_00000001_00000001_00000000_10100101 =
      some (.contReadHigh 64 256) := by decide
theorem test_decode_buf_to_page_e :
    decodeTableWord 32 0b10000110_00111111_11111100_00000000 = some (.bufToPageE .buffer2 4095) := by decide
theorem test_decode_buf_to_page_ne :
    decodeTableWord 32 0b10001000_00000000_00101000_00000000 = some (.bufToPageNE .buffer1 10) := by decide
theorem test_decode_page_to_buf :
    decodeTableWord 32 0b01010101_00000000_00101000_00000000 = some (.pageToBuf 10 .buffer2) := by decide
theorem test_decode_compare :
    decodeTableWord 32 0b01100000_00000000_00101000_00000000 = some (.compare 10 .buffer1) := by decide
theorem test_decode_page_erase :
    decodeTableWord 32 0b10000001_00000000_00101000_00000000 = some (.pageErase 10) := by decide
theorem test_decode_block_erase :
    decodeTableWord 32 0b01010000_00111111_11100000_00000000 = some (.blockErase 511) := by decide
theorem test_decode_sector_erase :
    decodeTableWord 32 0b01111100_00011110_00000000_00000000 = some (.sectorErase 15) := by decide
theorem test_decode_sector_erase_special :
    decodeTableWord 32 0b01111100_00000000_00010000_00000000 = some (.sectorErase 11) := by decide
theorem test_decode_chip_erase :
    decodeTableWord 32 0b11000111_10010100_10000000_10011010 = some .chipErase := by decide
theorem test_decode_deep_power_down : decodeTableWord 8 0b10111001 = some .deepPowerDown := by decide
theorem test_decode_resume : decodeTableWord 8 0b10101011 = some .resume := by decide

theorem test_decode_init :
    decodeRequest ⟨0b00000, 0, 0, 0, 0, 0b01⟩ = .init 0b01 := by decide
theorem test_decode_release : decodeRequest ⟨0b00001, 0, 0, 0, 0, 0⟩ = .release := by decide
theorem test_decode_stream_xfer :
    decodeRequest ⟨0b00010, 0, 0, 0, 0x5A, 0⟩ = .streamXfer 0x5A := by decide
theorem test_decode_end_stream : decodeRequest ⟨0b00011, 0, 0, 0, 0, 0⟩ = .endStream := by decide
theorem test_decode_wait_ready : decodeRequest ⟨0b00101, 0, 0, 0, 0, 0⟩ = .waitReady := by decide
theorem test_decode_hard_reset : decodeRequest ⟨0b10110, 0, 0, 0, 0, 0⟩ = .hardReset := by decide
theorem test_decode_reserved : decodeRequest ⟨0b10111, 0, 0, 0, 0, 0⟩ = .reserved 0x17 := by decide
theorem test_decode_page_to_buf_request :
    decodeRequest ⟨0b01110, 10, 0, 1, 0, 0⟩ = .pageToBuf 10 .buffer2 := by decide

/-! ### Refused encodings (R71, R80, R87) -/

theorem test_frame_unknown_opcode :
    decodeFrame Params.default [0xFF] = .error .unknownOpcode := by rfl
theorem test_frame_too_long : decodeFrame Params.default [0xD7, 0x00] = .error .wrongLength := by rfl
theorem test_frame_pad_bits :
    decodeFrame Params.default [0x81, 0x40, 0x00, 0x00] = .error .nonzeroPad := by rfl
theorem test_frame_sector_14 :
    decodeFrame Params.default [0x7C, 0x14, 0x00, 0x00] = .error .noSuchSector := by rfl

/-! ### The address encoder (V1 to V22) -/

theorem test_addr_po_V6 : addrPO 64 256 = [0x01, 0x01, 0x00] := by decide
theorem test_addr_po_V9 : addrPO 4095 527 = [0x3F, 0xFE, 0x0F] := by decide
theorem test_addr_po_V10 : addrPO 1234 300 = [0x13, 0x49, 0x2C] := by decide
theorem test_addr_b_V18 : addrB 511 = [0x3F, 0xE0, 0x00] := by decide
theorem test_addr_s_V20 : addrS 10 = [0x00, 0x00, 0x00] := by decide
theorem test_addr_s_V22 : addrS 15 = [0x1E, 0x00, 0x00] := by decide

/-! ### Lifecycle and streaming (V24 to V29c) -/

theorem test_init_V24 :
    seen (exec (.init 0) State.reset) =
      some ([.pins true, .cs true, .rst true, .wp true, .resp .done], .idle, 0) := by decide
theorem test_release_V25 :
    seen (exec .release (idle [])) = some ([.cs true, .resp .done], .uninit, 0) := by decide
theorem test_stream_xfer_V26 :
    seen (exec (.streamXfer 0x5A) (armed [0x00])) =
      some ([.xfer 0x5A 0x00, .resp (.byte 0x00)], .armedStream, 0) := by decide
theorem test_stream_xfer_V29 :
    refusalOf (exec (.streamXfer 0x00) (idle [])) = some .illegalState := by decide
theorem test_end_stream_V27 :
    seen (exec .endStream (armed [])) = some ([.cs true, .resp .done], .idle, 0) := by decide
theorem test_end_stream_V28 :
    seen (exec .endStream (idle [])) = some ([.cs true, .resp .done], .idle, 0) := by decide
theorem test_status_read_V29b : refusalOf (exec .statusRead State.reset) = some .illegalState := by decide
theorem test_buf_read_V29c :
    refusalOf (exec (.bufRead .buffer1 0) (armed [])) = some .illegalState := by decide

/-! ### Status, synchroniser, identification (V31 to V39) -/

theorem test_status_read_V32 :
    seen (exec .statusRead (idle [0xFF, 0x2C])) =
      some ([.cs true, .cs false, .xfer 0xD7 0xFF, .xfer 0x00 0x2C, .cs true,
        .resp (.status 0x2C)], .idle, 0) := by decide
theorem test_wait_ready_V37 :
    seen (exec .waitReady (idle [0xFF, 0x80])) =
      some ([.cs true, .cs false, .xfer 0xD7 0xFF, .xfer 0x00 0x80, .cs true, .resp .done],
        .idle, 1) := by decide
theorem test_wait_ready_V36 :
    seen (exec .waitReady (idle [0xFF, 0x7F])) =
      some ([.cs true, .cs false, .xfer 0xD7 0xFF, .xfer 0x00 0x7F, .cs true], .busyWait, 1) := by
  decide
theorem test_second_poll_V34 :
    seen (step (waiting .done [0xFF, 0xAC])) =
      some ([.cs true, .cs false, .xfer 0xD7 0xFF, .xfer 0x00 0xAC, .cs true, .resp .done],
        .idle, 1) := by decide
theorem test_second_poll_V35 :
    seen (step (waitingOpen .done [0xAC])) =
      some ([.xfer 0x00 0xAC, .cs true, .resp .done], .idle, 1) := by decide
theorem test_id_read_V38 :
    seen (exec .idRead (idle [0xFF, 0x1F, 0x26, 0x00, 0x00])) =
      some ([.cs true, .cs false, .xfer 0x9F 0xFF, .xfer 0x00 0x1F, .xfer 0x00 0x26, .xfer 0x00 0x00,
        .xfer 0x00 0x00, .cs true, .resp (.id 0x1F 0x26 0x00 0x00)], .idle, 0) := by decide
theorem test_id_read_V39 :
    seen (exec .idRead (idle [0xFF, 0x1F, 0x26, 0x00, 0x02])) =
      some ([.cs true, .cs false, .xfer 0x9F 0xFF, .xfer 0x00 0x1F, .xfer 0x00 0x26, .xfer 0x00 0x00,
        .xfer 0x00 0x02, .resp (.id 0x1F 0x26 0x00 0x02)], .armedStream, 0) := by decide

/-! ### Stream-arming operations (V41 to V49) -/

theorem test_buf_write_V42 :
    seen (exec (.bufWrite .buffer2 527) (idle [0, 0, 0, 0])) =
      some ([.cs true, .cs false, .xfer 0x87 0, .xfer 0x00 0, .xfer 0x02 0, .xfer 0x0F 0,
        .resp .done], .armedStream, 0) := by decide +kernel
theorem test_buf_write_V49 :
    refusalOf (exec (.bufWrite .buffer1 528) (idle [])) = some .operandOutOfRange := by decide +kernel
theorem test_buf_read_V43 :
    seen (exec (.bufRead .buffer1 5) (idle [0, 0, 0, 0])) =
      some ([.cs true, .cs false, .xfer 0xD1 0, .xfer 0x00 0, .xfer 0x00 0, .xfer 0x05 0,
        .resp .done], .armedStream, 0) := by decide +kernel
theorem test_page_read_V46 :
    seen (exec (.pageRead 4095 527) (idle [0, 0, 0, 0, 0, 0, 0, 0])) =
      some ([.cs true, .cs false, .xfer 0xD2 0, .xfer 0x3F 0, .xfer 0xFE 0, .xfer 0x0F 0,
        .xfer 0x00 0, .xfer 0x00 0, .xfer 0x00 0, .xfer 0x00 0, .resp .done], .armedStream, 0) := by
  decide +kernel
theorem test_cont_read_low_V47 :
    seen (exec (.contReadLow 10 526) (idle [0, 0, 0, 0])) =
      some ([.cs true, .cs false, .xfer 0x03 0, .xfer 0x00 0, .xfer 0x2A 0, .xfer 0x0E 0,
        .resp .done], .armedStream, 0) := by decide +kernel
theorem test_cont_read_high_V48 :
    seen (exec (.contReadHigh 10 526) (idle [0, 0, 0, 0, 0])) =
      some ([.cs true, .cs false, .xfer 0x0B 0, .xfer 0x00 0, .xfer 0x2A 0, .xfer 0x0E 0,
        .xfer 0x00 0, .resp .done], .armedStream, 0) := by decide +kernel

/-! ### Triggered operations (V30, V50 to V66) -/

/-- A triggered operation's events with a ready first status byte, every other byte received 0. -/
def triggeredEvents (op b0 b1 b2 st : Byte) : List Event :=
  [.cs true, .cs false, .xfer op 0, .xfer b0 0, .xfer b1 0, .xfer b2 0, .cs true, .cs false,
   .cs true, .cs false, .xfer 0xD7 0, .xfer 0x00 st, .cs true]

theorem test_buf_to_page_e_V30 :
    seen (exec (.bufToPageE .buffer1 10) (idle [0, 0, 0, 0, 0, 0x2C])) =
      some (triggeredEvents 0x83 0x00 0x28 0x00 0x2C, .busyWait, 1) := by decide +kernel
theorem test_buf_to_page_e_V51 :
    seen (exec (.bufToPageE .buffer2 4095) (idleCfg 2 [0, 0, 0, 0, 0, 0xAC])) =
      some (triggeredEvents 0x86 0x3F 0xFC 0x00 0xAC ++ [.resp .done], .idle, 1) := by decide +kernel
theorem test_buf_to_page_ne_V50 :
    seen (exec (.bufToPageNE .buffer1 10) (idle [0, 0, 0, 0, 0, 0xAC])) =
      some (triggeredEvents 0x88 0x00 0x28 0x00 0xAC ++ [.resp .done], .idle, 1) := by decide +kernel
theorem test_page_to_buf_V52 :
    seen (exec (.pageToBuf 10 .buffer2) (idle [0, 0, 0, 0, 0, 0xAC])) =
      some (triggeredEvents 0x55 0x00 0x28 0x00 0xAC ++ [.resp .done], .idle, 1) := by decide +kernel
theorem test_compare_V54 :
    seen (exec (.compare 10 .buffer1) (idle [0, 0, 0, 0, 0, 0xAC, 0, 0xEC])) =
      some (triggeredEvents 0x60 0x00 0x28 0x00 0xAC ++ [.cs true, .cs false, .xfer 0xD7 0,
        .xfer 0x00 0xEC, .cs true, .resp (.bool false)], .idle, 1) := by decide +kernel
theorem test_compare_V55 :
    seen (exec (.compare 10 .buffer1) (idle [0, 0, 0, 0, 0, 0xEC, 0, 0xAC])) =
      some (triggeredEvents 0x60 0x00 0x28 0x00 0xEC ++ [.cs true, .cs false, .xfer 0xD7 0,
        .xfer 0x00 0xAC, .cs true, .resp (.bool true)], .idle, 1) := by decide +kernel
theorem test_page_erase_V57 :
    seen (exec (.pageErase 10) (idle [0, 0, 0, 0, 0, 0xAC])) =
      some (triggeredEvents 0x81 0x00 0x28 0x00 0xAC ++ [.resp .done], .idle, 1) := by decide +kernel
theorem test_page_erase_V66 :
    refusalOf (exec (.pageErase 4096) (idle [])) = some .operandOutOfRange := by decide +kernel
theorem test_block_erase_V59 :
    seen (exec (.blockErase 511) (idle [0, 0, 0, 0, 0, 0xAC])) =
      some (triggeredEvents 0x50 0x3F 0xE0 0x00 0xAC ++ [.resp .done], .idle, 1) := by decide +kernel
theorem test_sector_erase_V62 :
    seen (exec (.sectorErase 11) (idle [0, 0, 0, 0, 0, 0xAC])) =
      some (triggeredEvents 0x7C 0x00 0x10 0x00 0xAC ++ [.resp .done], .idle, 1) := by decide +kernel
theorem test_sector_erase_V63 :
    seen (exec (.sectorErase 15) (idle [0, 0, 0, 0, 0, 0xAC])) =
      some (triggeredEvents 0x7C 0x1E 0x00 0x00 0xAC ++ [.resp .done], .idle, 1) := by decide +kernel
theorem test_chip_erase_V64 :
    seen (exec .chipErase (idle [])) = some ([.resp .disabled], .idle, 0) := by decide +kernel
theorem test_chip_erase_V65 :
    seen (exec .chipErase (idleCfg 1 [0, 0, 0, 0, 0, 0x2C])) =
      some (triggeredEvents 0xC7 0x94 0x80 0x9A 0x2C, .busyWait, 1) := by decide +kernel

/-! ### Pseudo-operations (R90) -/

theorem test_stream_read_n : (Pseudo.streamReadN 2).expand Params.default =
    [.streamXfer 0x00, .streamXfer 0x00] := by decide
theorem test_stream_write_n : (Pseudo.streamWriteN [1, 2]).expand Params.default =
    [.streamXfer 1, .streamXfer 2] := by decide

/-! ### Power and reset (V67 to V71) -/

theorem test_deep_power_down_V67 :
    seen (exec .deepPowerDown (idle [0])) =
      some ([.cs true, .cs false, .xfer 0xB9 0, .cs true, .delayUs 100, .resp .done], .idle, 0) := by
  decide
theorem test_resume_V68 :
    seen (exec .resume (idle [0])) =
      some ([.cs true, .cs false, .xfer 0xAB 0, .cs true, .delayUs 100, .resp .done], .idle, 0) := by
  decide
theorem test_hard_reset_V69 :
    seen (exec .hardReset (idle [])) =
      some ([.rst false, .delayUs 10, .cs true, .rst true, .delayUs 1, .cs false, .resp .done],
        .selectedBare, 0) := by decide
theorem test_hard_reset_V70 : refusalOf (exec .hardReset (armed [])) = some .illegalState := by decide
theorem test_reserved_refused :
    refusalOf (exec (.reserved 0x1F) (idle [])) = some .reservedOpsel := by decide

/-! ### Witnesses: states and operands that meet the hypotheses of the obligations -/

/-- An accepted operation completes. -/
theorem runs {i : Instr} {s : State} {m : Act Unit} (e : exec i s = accepted i m s)
    (h : misuse i s = none) : ∃ t, exec i s = .next t := ⟨_, e.trans (accepted_next h m)⟩

theorem witness_host_port_round_trip :
    (Instr.pageRead 4095 527).wellFormed Params.default = true ∧
    (Instr.reserved 0x17).wellFormed Params.default = true := by decide

theorem witness_host_port_decoding_boundary :
    (∀ o, decodeRequest (plainRequest 0x16) ≠ .reserved o) ∧
    decodeRequest (plainRequest 0x17) = .reserved 0x17 := by decide

theorem witness_unused_latches :
    (⟨0x04, 1, 2, 1, 3, 1⟩ : Request).opsel = (plainRequest 0x04).opsel ∧
    decodeRequest ⟨0x04, 1, 2, 1, 3, 1⟩ = .statusRead := by decide

theorem witness_default_legal : Params.default.Legal := by decide

theorem witness_bus_frame_round_trip :
    Params.default.Legal ∧ (Instr.contReadHigh 4095 527).wellFormed Params.default = true ∧
    sendsOpcode (.contReadHigh 4095 527) = true ∧
    (Instr.sectorErase 15).wellFormed Params.default = true ∧ sendsOpcode .chipErase = true := by decide

theorem witness_first_byte_fixes_length :
    decodeFrame Params.default [0x7C, 0x02, 0x00, 0x00] = .ok (.sectorErase 1) ∧
    decodeFrame Params.default [0x7C, 0x00, 0x10, 0x00] = .ok (.sectorErase 11) := ⟨rfl, rfl⟩

theorem witness_address_encoder :
    addrPO 4095 527 = [0x3F, 0xFE, 0x0F] ∧ addrB 511 = [0x3F, 0xE0, 0x00] := by decide

theorem witness_address_fields : addrPO 4095 1023 = [0x3F, 0xFF, 0xFF] ∧ 511 < 512 := by decide

theorem witness_sector_layouts :
    addrS 1 = [0x02, 0x00, 0x00] ∧ addrS 15 = [0x1E, 0x00, 0x00] := by decide

theorem witness_init :
    State.reset.Quiet ∧ State.reset.pending = none ∧ State.reset.aborted = false ∧
    State.reset.fsm = .uninit ∧ (armed []).fsm = .armedStream := by decide

theorem witness_command : (idle []).Quiet ∧ (idle []).CommandReady := by decide

theorem witness_command_selected_bare :
    ({ idle [] with fsm := .selectedBare, csN := false } : State).CommandReady := by decide

theorem witness_initialised : (armed []).Quiet ∧ (armed []).Initialised := by decide

theorem witness_stream_xfer : (armed []).Quiet ∧ (armed []).Streaming := by decide

theorem witness_stream_xfer_refused :
    (idle []).pending = none ∧ (idle []).fsm ≠ .armedStream := by decide

theorem witness_wait_ready_reselect :
    ((idle [0, 0x80]).lastHeard (firstPollDrives Params.default false)).getLsbD 7 = true := by decide

theorem witness_wait_ready_continuous :
    (idleCfg 2 []).pollContinuous = true ∧
    ((idleCfg 2 [0, 0x80]).lastHeard (firstPollDrives Params.default true)).getLsbD 7 = true := by decide

theorem witness_id_read_both_ends :
    (idle [9, 1, 2, 3, 0]).heard (frameDrives Params.default [0x9F] ++
      List.replicate 4 (.send 0x00)) = [9, 1, 2, 3, 0] ∧
    (idle [9, 1, 2, 3, 4]).heard (frameDrives Params.default [0x9F] ++
      List.replicate 4 (.send 0x00)) = [9, 1, 2, 3, 4] := by decide

theorem witness_buffer_operations : (527 : Half).toNat < Params.default.pageSize.bytes := by decide

theorem witness_array_reads :
    (4095 : Half).toNat ≤ 4095 ∧ (527 : Half).toNat < Params.default.pageSize.bytes := by decide

theorem witness_page_operations :
    ((idle [0, 0, 0, 0, 0, 0x80]).lastHeard (triggerDrives Params.default [0x83, 0x3F, 0xFC, 0x00] ++
      firstPollDrives Params.default false)).getLsbD 7 = true := by decide

theorem witness_page_operations_continuous :
    ((idleCfg 2 [0, 0, 0, 0, 0, 0x80]).lastHeard
      (triggerDrives Params.default [0x83, 0x3F, 0xFC, 0x00] ++
        firstPollDrives Params.default true)).getLsbD 7 = true := by decide

theorem witness_large_erases :
    (511 : Half).toNat ≤ 511 ∧ 1 ≤ (15 : Half).toNat ∧ (15 : Half).toNat ≤ 15 ∧
    (11 : Half).toNat = 11 ∧ (idleCfg 1 []).cfg.getLsbD 0 = true := by decide

theorem witness_chip_erase_ready :
    ((idleCfg 1 [0, 0, 0, 0, 0, 0x80]).lastHeard
      (triggerDrives Params.default [0xC7, 0x94, 0x80, 0x9A] ++
        firstPollDrives Params.default false)).getLsbD 7 = true := by decide

theorem witness_compare :
    ((idle [0, 0, 0, 0, 0, 0x80, 0, 0x40]).lastHeard
      (triggerDrives Params.default [0x61, 0x3F, 0xFC, 0x00] ++
        firstPollDrives Params.default false)).getLsbD 7 = true := by decide

theorem witness_chip_erase_disabled : (idle []).cfg.getLsbD 0 = false := by decide

theorem witness_busy_wait_ready :
    usesSynchroniser .waitReady = true ∧
    ((idle [0, 0x7F]).lastHeard (firstPollDrives Params.default false)).getLsbD 7 = false := by decide

theorem witness_busy_triggered :
    usesSynchroniser (.pageErase 4095) = true ∧
    (Instr.pageErase 4095).wellFormed Params.default = true ∧
    ((idle [0, 0, 0, 0, 0, 0x7F]).lastHeard
      (triggerDrives Params.default (busFrame Params.default (.pageErase 4095)) ++
        firstPollDrives Params.default false)).getLsbD 7 = false := by decide

theorem witness_pending_poll :
    (waiting .done []).Quiet ∧ (waiting .done []).pending = some .done ∧
    (waiting .done []).fsm = .busyWait ∧
    (waiting .done []).csN = (!(waiting .done []).pollContinuous) ∧
    (waitingOpen .compare []).csN = (!(waitingOpen .compare []).pollContinuous) := by decide

theorem witness_pending_poll_ready :
    ((waiting .done [0, 0x80]).lastHeard (nextPollDrives Params.default false)).getLsbD 7 = true ∧
    ((waiting .compare [0, 0x80]).lastHeard (nextPollDrives Params.default false)).getLsbD 7 = true ∧
    ((waitingOpen .done [0x7F]).lastHeard (nextPollDrives Params.default true)).getLsbD 7 = false := by
  decide

theorem witness_wait_counts :
    (idle [0, 0x7F, 0, 0x80, 5]).env =
      .oracle (reselectScript ([(0, 0x7F)] ++ [(0, 0x80)]) ++ [⟨5, none⟩]) [] 0 ∧
    (idleCfg 2 [0, 0x7F, 0x80, 5]).env =
      .oracle (continuousScript (0 :: [0x7F] ++ [0x80]) ++ [⟨5, none⟩]) [] 0 := by decide

theorem witness_wait_has_no_cap :
    (waiting .done [0, 0x7F, 0, 0x00, 5]).env =
      .oracle (reselectScript [(0, 0x7F), (0, 0x00)] ++ [⟨5, none⟩]) [] 0 ∧
    (waitingOpen .done [0x7F, 5]).env =
      .oracle (continuousScript [0x7F] ++ [⟨5, none⟩]) [] 0 := by decide

theorem witness_completion :
    (waiting .done [0, 0x80]).pending ≠ none ∧ (waiting .done [0, 0x80]).resets = [] ∧
    (stateOf (step (waiting .done [0, 0x80]))).map (fun t => (t.pending, t.faults)) =
      some (none, []) := by decide +kernel

theorem witness_block_reset :
    ({ waiting .done [] with resets := [0, 2] } : State).resets = 0 :: [2] := by decide

theorem witness_block_reset_cuts_short :
    (stateOf (exec .statusRead { idle [0, 0x80] with resets := [3, 5] })).map
      (fun t => (t.resets, t.trace.length)) = some ([5], 3) ∧
    (stateOf (step { waiting .done [0, 0x80] with resets := [5, 0] })).map
      (fun t => (t.resets, t.trace.length)) = some ([0], 5) := by decide +kernel

theorem witness_refusals :
    (waiting .done []).pending ≠ none ∧
    ((idle []).pending = none ∧ (idle []).allows (.streamXfer 0) = false) ∧
    ((idle []).allows (.pageErase 4096) = true ∧
      (Instr.pageErase 4096).wellFormed (idle []).params = false) ∧
    ((idle []).allows (.pageErase 4095) = true ∧
      (Instr.pageErase 4095).wellFormed (idle []).params = true) := by decide

theorem witness_legal_states :
    State.reset.allows (.init 3) = true ∧ (armed []).allows .endStream = true ∧
    (armed []).aborted = false ∧ (idle []).allows .hardReset = true ∧
    (armed []).allows (.streamXfer 0) = true ∧ (idle []).allows (.streamXfer 0) = false := by decide

theorem witness_operand_boundaries :
    refusalOf (exec (.pageRead 4095 528) (idle [])) = some .operandOutOfRange ∧
    refusalOf (exec (.pageRead 4095 527) (idle [])) = none ∧
    refusalOf (exec (.blockErase 512) (idle [])) = some .operandOutOfRange ∧
    refusalOf (exec (.sectorErase 16) (idle [])) = some .operandOutOfRange ∧
    refusalOf (exec (.sectorErase 0) (idle [])) = some .operandOutOfRange := by decide +kernel

theorem witness_reserved : 0x17 ≤ (plainRequest 0x17).opsel.toNat := by decide

theorem witness_transport_error :
    (failing [] [some 7]).resets = [] ∧
    (stateOf (exec .endStream (failing [] [some 7]))).map (fun t => (t.aborted, t.faults)) =
      some (true, [.transportError 7]) := by decide +kernel

/-- An operation in progress whose next transfer fails. -/
def failingWait : State :=
  { failing [⟨0, some 5⟩] [none, none] with fsm := .busyWait, pending := some .done }

theorem witness_transport_error_in_poll :
    failingWait.resets = [] ∧ failingWait.pending ≠ none ∧ failingWait.aborted = false ∧
    (stateOf (step failingWait)).map (fun t => (t.aborted, t.pending, t.fsm)) =
      some (true, none, .busyWait) := by decide +kernel

theorem witness_only_init :
    ({ idle [] with aborted := true } : State).pending = none ∧ (∀ c, Instr.release ≠ .init c) ∧
    (∀ o, Instr.release ≠ .reserved o) := by
  simp [idle, State.resetWith]

theorem witness_init_after_error :
    (stateOf (exec (.init 1) { failing [] [none, none, none, none] with aborted := true, fsm := .framing })).map
      (fun t => (t.aborted, t.fsm, t.cfg)) = some (false, .idle, 1) ∧
    (stateOf (exec (.init 1) { failing [] [some 4] with aborted := true, fsm := .framing })).map
      (fun t => (t.aborted, t.fsm, t.cfg)) = some (true, .framing, 0) := by decide +kernel

theorem witness_init_recovers :
    (failing [] [none, none, none, none]).env =
      .oracle [] (none :: none :: none :: none :: []) 0 := by decide

theorem witness_failed_transfer :
    (failing [⟨1, none⟩, ⟨2, some 5⟩] [none, none]).params.hasXferErr = true ∧
    (failing [⟨1, none⟩, ⟨2, some 5⟩] [none, none]).CommandReady ∧
    busFrame (failing [] []).params .statusRead ++ [(failing [] []).params.fill] =
      [0xD7] ++ 0x00 :: [] ∧
    busFrame (failing [] []).params (.pageErase 4095) ++ [] = [0x81] ++ 0x3F :: [0xFC, 0x00] ∧
    (failing [⟨1, none⟩, ⟨2, some 5⟩] [none, none]).env =
      .oracle ([1].map (fun x => ⟨x, none⟩) ++ ⟨2, some 5⟩ :: [])
        (List.replicate (pulseEvents (failing [] []).params).length none ++ []) 0 := by decide

theorem witness_failed_line :
    (failing [] [none, none, none, some 6]).allows .hardReset = true ∧
    firstLines (failing [] []).params .hardReset =
      [.rst false, .delayUs 10, .cs true] ++ .rst true :: [.delayUs 1, .cs false] ∧
    (failing [] [none, none, none, some 6]).env =
      .oracle [] (List.replicate 3 none ++ some 6 :: []) 0 ∧
    (stateOf (exec .hardReset (failing [] [none, none, none, some 6]))).map
      (fun t => (t.resetN, t.csN, t.fsm)) = some (false, true, .idle) := by decide +kernel

theorem witness_failed_line_after_frame :
    linesAfterFrame (failing [] []).params .resume = [.cs true] ++ .delayUs 100 :: [] ∧
    [(3 : Byte)].length = (busFrame (failing [] []).params .resume).length ∧
    (failing [⟨3, none⟩] [none, none, none, some 6]).env =
      .oracle ([3].map (fun x => ⟨x, none⟩) ++ [])
        (List.replicate (pulseEvents (failing [] []).params ++ [Event.cs true]).length none ++
          some 6 :: []) 0 := by decide +kernel

theorem witness_pins_follow :
    (∃ t, exec .hardReset (idle []) = .next t) ∧ (∃ t, step (waiting .done []) = .next t) :=
  ⟨runs rfl (by decide), _, rfl⟩

theorem witness_operation_completes :
    (idle []).Quiet ∧ (idle []).params.Legal ∧ ∃ t, exec .idRead (idle []) = .next t :=
  ⟨by decide, by decide, runs rfl (by decide)⟩

theorem witness_chip_erase_completes :
    (idleCfg 1 []).cfg.getLsbD 0 = true ∧ ∃ t, exec .chipErase (idleCfg 1 []) = .next t :=
  ⟨by decide, runs rfl (by decide)⟩

theorem witness_wait_ready_runs : ∃ t, exec .waitReady (idle []) = .next t :=
  runs rfl (by decide)

theorem witness_stays_in_progress :
    (stateOf (exec .waitReady (idle [0, 0x7F]))).map State.pending = some (some .done) := by decide

theorem witness_step_runs_offered :
    decodeRequest ⟨0x10, 4095, 7, 1, 9, 3⟩ = .pageErase 4095 ∧
    ({ idle [] with host := [⟨0x10, 4095, 7, 1, 9, 3⟩] } : State).host = ⟨0x10, 4095, 7, 1, 9, 3⟩ :: [] ∧
    ({ idle [] with resets := [1] } : State).resets.head? ≠ some 0 := by decide

theorem witness_host_held_off :
    ((waiting .done []).resets = [] ∧ (waiting .done []).pending ≠ none) ∧
    ((idle []).pending = none ∧ (idle []).host = []) := by decide

theorem witness_reset_environment : (Env.responder Chip.initial).wf :=
  ⟨⟨List.Pairwise.nil, by simp [Chip.initial]⟩, ⟨List.Pairwise.nil, by simp [Chip.initial]⟩,
    ⟨List.Pairwise.nil, by simp [Chip.initial]⟩⟩

theorem witness_invariant_waiting : (waiting .compare [0, 0x80]).Inv :=
  ⟨trivial, fun h => by simp [waiting, idle, State.resetWith] at h, fun _ =>
    ⟨by decide, rfl, rfl, rfl, rfl⟩⟩

theorem witness_invariant_step : ∃ t, step (waiting .compare [0, 0x80]) = .next t := ⟨_, rfl⟩

theorem witness_stream_write :
    ∀ c, c = { Chip.initial with sel := true, cmd := [0x84, 0, 2, 0x0F], ptr := ⟨.buffer .buffer1, 0, 527⟩ } →
    (streaming [0x84, 0, 2, 0x0F] ⟨.buffer .buffer1, 0, 527⟩).HasChip c ∧
    (streaming [0x84, 0, 2, 0x0F] ⟨.buffer .buffer1, 0, 527⟩).Streaming ∧ c.wf ∧ c.sel = true ∧
    Params.default.commandOf 0x84 = some (.bufWrite .buffer1) ∧
    c.ptr.space = .buffer .buffer1 := by
  rintro c rfl
  decide

theorem witness_stream_reads :
    (streaming [0xD1, 0, 2, 0x0F] ⟨.buffer .buffer1, 0, 527⟩).Streaming ∧
    Params.default.commandOf 0xD1 = some (.bufRead .buffer1) ∧
    Params.default.commandOf 0xD2 = some .pageRead ∧
    Params.default.commandOf 0x03 = some .contReadLow ∧
    Params.default.commandOf 0x0B = some .contReadHigh ∧
    (7 ≤ [0, 0, 0, 0, 0, 0, 0].length ∧ 4 ≤ [0, 0, 0, 0].length) := by decide

theorem witness_stream_xfer_no_store :
    (∃ t, exec (.streamXfer 7) (streaming [0x9F, 0, 0, 0, 0] ⟨.main, 0, 0⟩) = .next t) ∧
    ∀ buf, [0x9F, 0, 0, 0, 0].head?.bind Params.default.commandOf ≠ some (.bufWrite buf) :=
  ⟨runs rfl (by decide), fun buf => by cases buf <;> decide⟩

theorem witness_polls_keep_memory :
    ({ waiting .done [] with env := .responder Chip.initial } : State).pending ≠ none ∧
    (waitingOpen .done []).pollContinuous = true ∧
    ({ Chip.initial with sel := true, cmd := [0xD7] } : Chip).cmd = Params.default.opStatus :: [] ∧
    ∃ t, step { waiting .done [] with env := .responder Chip.initial } = .next t :=
  ⟨by decide, by decide, rfl, _, rfl⟩

theorem witness_chip :
    (withChip Chip.initial).Quiet ∧ (withChip Chip.initial).params.Legal ∧
    (withChip Chip.initial).CommandReady ∧ (withChip Chip.initial).HasChip Chip.initial ∧
    Chip.initial.wf ∧ Chip.initial.Disarmed Params.default ∧ Chip.initial.latency = 0 ∧
    (4095 : Half).toNat ≤ 4095 := by
  refine ⟨by decide, by decide, by decide, rfl, by decide, ?_, rfl, by decide⟩
  intro h
  cases h

theorem witness_disarmed_selected :
    ({ Chip.initial with sel := true, cmd := [0xD1, 0, 0, 0, 0] } : Chip).Disarmed Params.default :=
  fun _ => rfl

theorem witness_non_storing :
    storesNothing (.compare 4095 .buffer2) = true ∧
    ∃ t, exec (.compare 4095 .buffer2) (withChip Chip.initial) = .next t :=
  ⟨by decide, runs rfl (by decide)⟩

theorem witness_transfers :
    (∃ t, exec (.bufToPageE .buffer2 4095) (withChip Chip.initial) = .next t) ∧
    (∃ t, exec (.bufToPageNE .buffer2 4095) (withChip Chip.initial) = .next t) ∧
    ∃ t, exec (.pageToBuf 4095 .buffer2) (withChip Chip.initial) = .next t :=
  ⟨runs rfl (by decide), runs rfl (by decide), runs rfl (by decide)⟩

theorem witness_erases :
    (∃ t, exec (.pageErase 4095) (withChip Chip.initial) = .next t) ∧
    (∃ t, exec (.blockErase 511) (withChip Chip.initial) = .next t) ∧
    ∃ t, exec .chipErase { withChip Chip.initial with cfg := 1 } = .next t :=
  ⟨runs rfl (by decide), runs rfl (by decide), runs rfl (by decide)⟩

theorem witness_latency :
    ({ Chip.initial with latency := 3 } : Chip).latency = 3 ∧
    (Instr.blockErase 511).wellFormed Params.default = true ∧
    usesSynchroniser (.blockErase 511) = true ∧ Instr.blockErase 511 ≠ .waitReady := by decide

end Sys2Proof.Tests
end

section
/-! What an accepted operation runs, and what a step can do: one inversion lemma for each. -/

namespace Sys2Proof.Machine

/-! ### What an operation runs -/

/-- The five stream-arming operations (R104(a)). -/
def armsStream : Instr → Bool
  | .bufWrite _ _ | .bufRead _ _ | .pageRead _ _ | .contReadLow _ _ | .contReadHigh _ _ => true
  | _ => false

/-- What follows the synchroniser of a triggered operation (R160, R170), CHIP_ERASE apart, which has a
branch of its own (R177). -/
def triggerWaiter : Instr → Option Waiter
  | .bufToPageE _ _ | .bufToPageNE _ _ | .pageToBuf _ _ | .pageErase _ | .blockErase _
  | .sectorErase _ => some .done
  | .compare _ _ => some .compare
  | _ => none

/-- `Runs s i m`: once `i` is accepted in `s`, the block runs `m`. A reserved OPSEL runs nothing. -/
inductive Runs (s : State) : Instr → Act Unit → Prop
  | init (cfg : BitVec 2) : Runs s (.init cfg) (initAct cfg)
  | release : Runs s .release (do csDeassert; setFsm .uninit; respond .done)
  | streamXfer (tx : Byte) : Runs s (.streamXfer tx) (do let r ← xfer tx; respond (.byte r))
  | endStream : Runs s .endStream (do csDeassert; setFsm .idle; respond .done)
  | statusRead : Runs s .statusRead statusReadAct
  | waitReady : Runs s .waitReady (waitReady .done)
  | idRead : Runs s .idRead idReadAct
  | arm {i : Instr} (h : armsStream i = true) : Runs s i (armStream (busFrame s.params i))
  | trigger {i : Instr} {w : Waiter} (h : triggerWaiter i = some w) :
      Runs s i (triggered (busFrame s.params i) w)
  | chipErase : Runs s .chipErase (chipEraseAct s)
  | deepPowerDown :
      Runs s .deepPowerDown (frameAndDelay (busFrame s.params .deepPowerDown) s.params.tDpdEnter)
  | resume : Runs s .resume (frameAndDelay (busFrame s.params .resume) s.params.tDpdExit)
  | hardReset : Runs s .hardReset (hardResetAct s.params)

theorem Runs.of_accepted {i : Instr} {m : Act Unit} {s t : State} (r : Runs s i m)
    (h : accepted i m s = .next t) : misuse i s = none ∧ ∃ m, Runs s i m ∧ settle m s = t :=
  (accepted_eq_next.1 h).imp_right fun k => ⟨m, r, k⟩

/-- An operation that answers a next state was accepted and ran its meaning. -/
theorem exec_runs {i : Instr} {s t : State} (h : exec i s = .next t) :
    misuse i s = none ∧ ∃ m, Runs s i m ∧ settle m s = t := by
  cases i with
  | init cfg => exact (Runs.init cfg).of_accepted h
  | release => exact Runs.release.of_accepted h
  | streamXfer tx => exact (Runs.streamXfer tx).of_accepted h
  | endStream => exact Runs.endStream.of_accepted h
  | statusRead => exact Runs.statusRead.of_accepted h
  | waitReady => exact Runs.waitReady.of_accepted h
  | idRead => exact Runs.idRead.of_accepted h
  | bufWrite _ _ | bufRead _ _ | pageRead _ _ | contReadLow _ _ | contReadHigh _ _ =>
    exact (Runs.arm rfl).of_accepted h
  | bufToPageE _ _ | bufToPageNE _ _ | pageToBuf _ _ | compare _ _ | pageErase _ | blockErase _
  | sectorErase _ => exact (Runs.trigger rfl).of_accepted h
  | chipErase => exact Runs.chipErase.of_accepted h
  | deepPowerDown => exact Runs.deepPowerDown.of_accepted h
  | resume => exact Runs.resume.of_accepted h
  | hardReset => exact Runs.hardReset.of_accepted h
  | reserved o => cases h

theorem Runs.whole {i : Instr} {m : Act Unit} {s : State} (r : Runs s i m) : Whole m := by
  cases r with
  | init cfg => exact initAct_whole cfg
  | release | endStream =>
    exact csDeassert_silent.andThen fun _ => (setFsm_silent _).andThen fun _ => respond_whole _
  | streamXfer tx => exact (xfer_silent tx).andThen fun _ => respond_whole _
  | statusRead => exact statusReadAct_whole
  | waitReady => exact waitReady_whole _
  | idRead => exact idReadAct_whole
  | arm _ => exact armStream_whole _
  | trigger _ => exact triggered_whole _ _
  | chipErase => exact chipEraseAct_whole s
  | deepPowerDown | resume => exact frameAndDelay_whole _ _
  | hardReset => exact hardResetAct_whole _

theorem Runs.follows {i : Instr} {m : Act Unit} {s : State} (r : Runs s i m) : Follows m := by
  cases r with
  | init cfg =>
    exact pinsEnable_follows.bind fun _ => csDeassert_follows.bind fun _ =>
      rstHigh_follows.bind fun _ => (wpDrive_follows _).bind fun _ =>
        (Follows.modify (g := fun s => { s with cfg := cfg, fsm := .idle, aborted := false })
          fun _ => ⟨rfl, rfl⟩).bind fun _ => respond_follows _
  | release | endStream =>
    exact csDeassert_follows.bind fun _ => (setFsm_follows _).bind fun _ => respond_follows _
  | streamXfer tx => exact (xfer_follows tx).bind fun _ => respond_follows _
  | statusRead =>
    exact statusTxn_follows.bind fun _ => (setFsm_follows _).bind fun _ => respond_follows _
  | waitReady => exact waitReady_follows _
  | idRead =>
    exact Follows.getParams.bind fun _ => (frame_follows _).bind fun _ =>
      (xfer_follows _).bind fun _ => (xfer_follows _).bind fun _ => (xfer_follows _).bind fun _ =>
        (xfer_follows _).bind fun _ =>
          (Follows.ite (csDeassert_follows.bind fun _ => setFsm_follows _) (setFsm_follows _)).bind
            fun _ => respond_follows _
  | arm _ => exact armStream_follows _
  | trigger _ => exact triggered_follows _ _
  | chipErase => exact Follows.ite (triggered_follows _ _) (respond_follows _)
  | deepPowerDown | resume => exact frameAndDelay_follows _ _
  | hardReset =>
    exact rstLow_follows.bind fun _ => (delayUs_follows _).bind fun _ =>
      csDeassert_follows.bind fun _ => rstHigh_follows.bind fun _ => (delayUs_follows _).bind fun _ =>
        csAssert_follows.bind fun _ => (setFsm_follows _).bind fun _ => respond_follows _

theorem usesSynchroniser_of_triggerWaiter {i : Instr} {w : Waiter} (h : triggerWaiter i = some w) :
    usesSynchroniser i = true := by
  cases i <;> cases h <;> rfl

/-- What a frame does not touch an operation keeps, given that its synchroniser, INIT or HARD_RESET, where
it is one of them, keeps it too. -/
theorem Runs.keeps {β : Type} {f : State → β} {i : Instr} {m : Act Unit} {s : State} (r : Runs s i m)
    (h : Still f) (hsync : usesSynchroniser i = true → Steady f)
    (hinit : ∀ cfg, i = .init cfg → Keeps f (initAct cfg))
    (hreset : i = .hardReset → Keeps f (hardResetAct s.params)) : Keeps f m := by
  cases r with
  | init cfg => exact hinit cfg rfl
  | release | endStream =>
    exact h.csDeassert.bind fun _ => (h.setFsm _).bind fun _ => h.respond _
  | streamXfer tx => exact (h.xfer tx).bind fun _ => h.respond _
  | statusRead => exact h.statusReadAct
  | waitReady => exact (hsync rfl).waitReady _
  | idRead => exact h.idReadAct
  | arm _ => exact h.armStream _
  | trigger ht => exact (hsync (usesSynchroniser_of_triggerWaiter ht)).triggered _ _
  | chipErase => exact (hsync rfl).chipEraseAct s
  | deepPowerDown | resume => exact h.frameAndDelay _ _
  | hardReset => exact hreset rfl

/-! ### The latches after an operation that runs to its end -/

/-- RELEASE and END_STREAM: chip-select deasserted, and their FSM value. -/
theorem deselect_ok {f : Fsm} {s t : State}
    (h : (do csDeassert; setFsm f; respond .done : Act Unit).run s = .ok () t) :
    Moved { s with csN := true, fsm := f } t := by
  obtain ⟨_, u, hu, h⟩ := bind_eq_ok h
  obtain ⟨_, _, _, rfl⟩ := csDeassert_ok hu
  obtain ⟨_, _, hq, h⟩ := bind_eq_ok h
  cases hq
  obtain ⟨_, _, _, rfl⟩ := respond_ok h
  exact ⟨_, _, _, rfl⟩

theorem streamXfer_ok {tx : Byte} {s t : State}
    (h : (do let r ← xfer tx; respond (.byte r) : Act Unit).run s = .ok () t) : Moved s t := by
  obtain ⟨_, u, hu, h⟩ := bind_eq_ok h
  exact (xfer_ok hu).1.trans (respond_ok h)

/-- CHIP_ERASE runs the synchroniser if CFG permits it, and changes no latch if not (R177). -/
theorem chipEraseAct_ok {s t : State} (h : (chipEraseAct s).run s = .ok () t) :
    (s.chipEraseEn = true ∧
      (Moved { s with fsm := .idle, csN := true, pollCount := 1 } t ∨
        Moved { s with
          fsm := .busyWait, csN := !s.pollContinuous, pollCount := 1, pending := some .done } t)) ∨
    (s.chipEraseEn = false ∧ Moved s t) := by
  unfold chipEraseAct at h
  split at h <;> rename_i hen
  · exact .inl ⟨hen, triggered_ok h⟩
  · exact .inr ⟨by simpa using hen, respond_ok h⟩

/-! ### How a whole operation ends -/

theorem Whole.ok {m : Act Unit} (h : Whole m) {s t : State} (hr : m.run s = .ok () t) :
    ∃ evs, Onward s t evs := by
  have hw := h s
  rw [hr] at hw
  cases hw with
  | responded o => exact ⟨_, o⟩
  | parked o => exact ⟨_, o⟩

theorem Whole.error {m : Act Unit} (h : Whole m) {s t : State} {st : Stop}
    (hr : m.run s = .error st t) : ∃ evs, Cut st s t evs := by
  have hw := h s
  rw [hr] at hw
  cases hw with
  | cut c => exact ⟨_, c⟩

/-- With no reset on its way none cuts an operation short. -/
theorem Whole.ne_blockReset {m : Act Unit} (h : Whole m) {s : State} (hs : s.resets = []) (t : State) :
    m.run s ≠ .error .blockReset t := by
  intro hr
  obtain ⟨evs, c⟩ := h.error hr
  obtain ⟨rest, hrest, -⟩ := c.reset rfl
  simp [hs] at hrest

/-- In a quiet state an operation runs to its end. -/
theorem Whole.run_of_quiet {m : Act Unit} (h : Whole m) {s : State} (hq : s.Quiet) :
    m.run s = .ok () (settle m s) := by
  rcases hr : m.run s with ⟨_, t⟩ | ⟨code | _, t⟩
  · rw [settle_ok hr]
  · obtain ⟨evs, c⟩ := h.error hr
    have := c.transport code rfl
    simp [hq.1] at this
  · exact absurd hr (h.ne_blockReset hq.2 t)

/-- With no reset on its way an operation runs on to its end or to a transport error. -/
theorem Whole.settle_onward {m : Act Unit} (h : Whole m) {s : State} (hs : s.resets = []) :
    ∃ u evs, Onward s u evs ∧ (settle m s = u ∨ ∃ c, settle m s = transportAbort c u) := by
  rcases hr : m.run s with ⟨_, t⟩ | ⟨code | _, t⟩
  · obtain ⟨evs, o⟩ := h.ok hr
    exact ⟨t, evs, o, .inl (settle_ok hr)⟩
  · obtain ⟨evs, c⟩ := h.error hr
    exact ⟨t, evs, c.toOnward, .inr ⟨code, settle_error hr⟩⟩
  · exact absurd hr (h.ne_blockReset hs t)

/-- What a piece keeps, its operation keeps, short of block reset. -/
theorem Keeps.settle {β : Type} {f : State → β} {m : Act Unit} (hk : Keeps f m) (h : Whole m)
    (hf : ∀ c s, f (transportAbort c s) = f s) {s : State} (hs : s.resets = []) :
    f (settle m s) = f s := by
  have hfin := hk s
  rcases hr : m.run s with ⟨_, t⟩ | ⟨code | _, t⟩
  · rw [hr] at hfin
    rwa [settle_ok hr]
  · rw [hr] at hfin
    rw [settle_error hr, hf]
    exact hfin
  · exact absurd hr (h.ne_blockReset hs t)

/-! ### What a step does -/

/-- The ways a step answers a next state. -/
inductive Stepped (s t : State) : Prop
  | reset (hr : s.resets.head? = some 0) (ht : t = blockReset s)
  | poll (w : Waiter) (hr : s.resets.head? ≠ some 0) (hp : s.pending = some w) (ht : t = resumeWait w s)
  | accept (r : Request) (rest : List Request) (hr : s.resets.head? ≠ some 0) (hp : s.pending = none)
      (hh : s.host = r :: rest) (ht : exec (decodeRequest r) (acceptRequest r rest s) = .next t)
  | wait (hr : s.resets.head? ≠ some 0) (hp : s.pending = none) (hh : s.host = []) (ht : t = s)

theorem nextAction_reset {s : State} (hr : s.resets.head? = some 0) : nextAction s = .reset := by
  simp [nextAction, hr]

theorem nextAction_poll {s : State} {w : Waiter} (hr : s.resets.head? ≠ some 0)
    (hp : s.pending = some w) : nextAction s = .poll w := by
  simp [nextAction, hr, hp]

theorem nextAction_accept {s : State} {r : Request} {rest : List Request}
    (hr : s.resets.head? ≠ some 0) (hp : s.pending = none) (hh : s.host = r :: rest) :
    nextAction s = .accept r rest := by
  simp [nextAction, hr, hp, hh]

theorem nextAction_wait {s : State} (hr : s.resets.head? ≠ some 0) (hp : s.pending = none)
    (hh : s.host = []) : nextAction s = .wait := by
  simp [nextAction, hr, hp, hh]

theorem step_stepped {s t : State} (h : step s = .next t) : Stepped s t := by
  unfold step at h
  by_cases hr : s.resets.head? = some 0
  · rw [nextAction_reset hr] at h
    cases h
    exact .reset hr rfl
  rcases hp : s.pending with - | w
  · rcases hh : s.host with - | ⟨r, rest⟩
    · rw [nextAction_wait hr hp hh] at h
      cases h
      exact .wait hr hp hh rfl
    · rw [nextAction_accept hr hp hh] at h
      exact .accept r rest hr hp hh h
  · rw [nextAction_poll hr hp] at h
    cases h
    exact .poll w hr hp rfl

end Sys2Proof.Machine
end

section
/-! Which operations FSM allows, and the invariant: FSM, the pins and the operation in progress agree
after every step. -/

namespace Sys2Proof.Machine

/-! ### The states that allow an operation -/

theorem Fsm.quiescent_iff {f : Fsm} :
    f.quiescent = true ↔ f = .uninit ∨ f = .idle ∨ f = .armedStream ∨ f = .selectedBare := by
  cases f <;> decide

theorem Fsm.commandReady_iff {f : Fsm} : f.commandReady = true ↔ f = .idle ∨ f = .selectedBare := by
  cases f <;> decide

/-- RELEASE and END_STREAM are legal where commands are and in ARMED_STREAM. -/
theorem Fsm.commandReady_or_armed_iff {f : Fsm} :
    (f.commandReady || decide (f = .armedStream)) = true ↔
      f = .idle ∨ f = .armedStream ∨ f = .selectedBare := by
  cases f <;> decide

/-- Settles O33: by R16's rows, each stated over the FSM values it lists. -/
theorem legalStatesAreThoseListed : Obligations.LegalStatesAreThoseListed := by
  intro s i ha
  have hallow : s.allows i = legalFrom i s.fsm := by simp [State.allows, ha]
  rw [hallow]
  cases i with
  | init cfg => simp [legalFrom, Fsm.quiescent_iff]
  | release | endStream => simp [legalFrom, ← Fsm.commandReady_or_armed_iff]
  | streamXfer tx => simp [legalFrom]
  | reserved o => simp [legalFrom]
  | _ => simp [legalFrom, Fsm.commandReady_iff]

/-- Every operation but INIT needs a block that is initialised and free of transport errors. -/
theorem initialised_of_allows {s : State} {i : Instr} (hi : ∀ c, i ≠ .init c)
    (h : s.allows i = true) :
    s.aborted = false ∧ (s.fsm = .idle ∨ s.fsm = .armedStream ∨ s.fsm = .selectedBare) := by
  have ha : s.aborted = false := by
    by_contra hab
    cases i with
    | init c => exact hi c rfl
    | _ => simp [State.allows, hab, isInit] at h
  refine ⟨ha, ?_⟩
  rcases (legalStatesAreThoseListed s i ha).1 h with ⟨⟨c, hc⟩, -⟩ | ⟨-, hf⟩ | ⟨-, hf⟩ | ⟨-, -, -, -, -, hf⟩
  · exact absurd hc (hi c)
  · exact hf
  · exact .inr (.inl hf)
  · exact hf.imp_right .inr

/-! ### FSM and the pins -/

/-- The pins as INIT leaves them, chip-select apart (R100). -/
def State.Powered (s : State) : Prop := s.pinsEn = true ∧ s.resetN = true ∧ s.wpN = true

theorem State.Linked.powered {s : State} (h : s.Linked) (hf : s.fsm ≠ .uninit) : s.Powered := by
  cases hfsm : s.fsm with
  | uninit => exact absurd hfsm hf
  | _ => simp_all [State.Linked, State.Powered]

/-- An operation is in progress in BUSY_WAIT only, with chip-select as POLL_MODE has it (R123). -/
theorem State.Linked.busyWait {s : State} {w : Waiter} (h : s.Linked) (hp : s.pending = some w) :
    s.fsm = .busyWait ∧ s.csN = !s.pollContinuous := by
  cases hfsm : s.fsm with
  | busyWait =>
    simp only [State.Linked, hfsm] at h
    exact ⟨rfl, h.2.2.1⟩
  | _ => simp [State.Linked, hfsm, hp] at h

theorem State.linked_uninit {s : State} (hf : s.fsm = .uninit) (hp : s.pending = none)
    (h : s.pinsEn = true → s.csN = true ∧ s.resetN = true ∧ s.wpN = true) : s.Linked := by
  unfold State.Linked
  rw [hf]
  exact ⟨hp, h⟩

theorem State.linked_idle {s : State} (hf : s.fsm = .idle) (hp : s.pending = none) (h : s.Powered)
    (hc : s.csN = true) : s.Linked := by
  unfold State.Linked
  rw [hf]
  exact ⟨hp, h.1, hc, h.2⟩

theorem State.linked_selected {s : State} (hf : s.fsm = .armedStream ∨ s.fsm = .selectedBare)
    (hp : s.pending = none) (h : s.Powered) (hc : s.csN = false) : s.Linked := by
  unfold State.Linked
  rcases hf with hf | hf <;> rw [hf] <;> exact ⟨hp, h.1, hc, h.2⟩

theorem State.linked_busyWait {s : State} {w : Waiter} (hf : s.fsm = .busyWait)
    (hp : s.pending = some w) (h : s.Powered) (hc : s.csN = !s.pollContinuous) : s.Linked := by
  unfold State.Linked
  rw [hf]
  exact ⟨by simp [hp], h.1, hc, h.2⟩

/-- A state with no transport error pending that FSM describes. -/
def State.Sound (s : State) : Prop := s.aborted = false ∧ s.Linked

/-- Environment, trace and countdown play no part. -/
theorem Moved.sound {s t : State} (h : Moved s t) (hs : s.Sound) : t.Sound := by
  obtain ⟨_, _, _, rfl⟩ := h
  exact hs

/-- The end of a wait (`triggered_ok`, `waitReady_ok`): over in IDLE, or in progress in BUSY_WAIT. -/
theorem sound_of_wait {s t : State} {w : Waiter} {n : Nat} (hb : s.aborted = false)
    (hp : s.pending = none) (hs : s.Powered)
    (h : Moved { s with fsm := .idle, csN := true, pollCount := n } t ∨
      Moved { s with
        fsm := .busyWait, csN := !s.pollContinuous, pollCount := n, pending := some w } t) :
    t.Sound := by
  rcases h with h | h
  · exact h.sound ⟨hb, State.linked_idle rfl hp hs rfl⟩
  · exact h.sound ⟨hb, State.linked_busyWait rfl rfl hs rfl⟩

/-- INIT leads from any state to one that FSM describes (R100). -/
theorem initAct_sound {cfg : BitVec 2} {s t : State} (hp : s.pending = none)
    (h : (initAct cfg).run s = .ok () t) : t.Sound :=
  (initAct_ok h).sound ⟨rfl, State.linked_idle rfl hp ⟨rfl, rfl, rfl⟩ rfl⟩

/-- Every other operation that runs to its end keeps FSM and the pins in agreement. -/
theorem Runs.sound_command {i : Instr} {m : Act Unit} {s t : State} (r : Runs s i m)
    (hi : ∀ c, i ≠ .init c) (hm : misuse i s = none) (hl : s.aborted = false → s.Linked)
    (h : m.run s = .ok () t) : t.Sound := by
  obtain ⟨hp, hallow, -⟩ := misuse_none.1 hm
  obtain ⟨hb, hf⟩ := initialised_of_allows hi hallow
  have hs : s.Powered := (hl hb).powered (by rcases hf with hf | hf | hf <;> simp [hf])
  cases r with
  | init cfg => exact absurd rfl (hi cfg)
  | release =>
    exact (deselect_ok h).sound ⟨hb, State.linked_uninit rfl hp fun _ => ⟨rfl, hs.2⟩⟩
  | streamXfer tx => exact (streamXfer_ok h).sound ⟨hb, hl hb⟩
  | endStream => exact (deselect_ok h).sound ⟨hb, State.linked_idle rfl hp hs rfl⟩
  | statusRead => exact (statusReadAct_ok h).sound ⟨hb, State.linked_idle rfl hp hs rfl⟩
  | waitReady => exact sound_of_wait hb hp hs (waitReady_ok h)
  | idRead =>
    rcases idReadAct_ok h with h | h
    · exact h.sound ⟨hb, State.linked_idle rfl hp hs rfl⟩
    · exact h.sound ⟨hb, State.linked_selected (.inl rfl) hp hs rfl⟩
  | arm _ => exact (armStream_ok h).sound ⟨hb, State.linked_selected (.inl rfl) hp hs rfl⟩
  | trigger _ => exact sound_of_wait hb hp hs (triggered_ok h)
  | chipErase =>
    rcases chipEraseAct_ok h with ⟨-, h⟩ | ⟨-, h⟩
    · exact sound_of_wait hb hp hs h
    · exact h.sound ⟨hb, hl hb⟩
  | deepPowerDown | resume =>
    exact (frameAndDelay_ok h).sound ⟨hb, State.linked_idle rfl hp hs rfl⟩
  | hardReset =>
    exact (hardResetAct_ok h).sound
      ⟨hb, State.linked_selected (.inr rfl) hp ⟨hs.1, rfl, hs.2.2⟩ rfl⟩

/-- An operation that runs to its end leaves FSM and the pins in agreement. -/
theorem Runs.sound {i : Instr} {m : Act Unit} {s t : State} (r : Runs s i m)
    (hm : misuse i s = none) (hl : s.aborted = false → s.Linked) (h : m.run s = .ok () t) :
    t.Sound := by
  by_cases hi : ∃ c, i = .init c
  · obtain ⟨c, rfl⟩ := hi
    cases r with
    | init => exact initAct_sound (misuse_none.1 hm).1 h
    | arm ht | trigger ht => cases ht
  · exact r.sound_command (fun c hc => hi ⟨c, hc⟩) hm hl h

/-- A poll of the operation in progress leaves it over in IDLE or still in progress (R123). -/
theorem pollOnce_sound {w : Waiter} {s t : State} (hs : s.Sound) (hp : s.pending = some w)
    (h : (pollOnce w).run { s with pending := none } = .ok () t) : t.Sound := by
  obtain ⟨hb, hl⟩ := hs
  obtain ⟨hf, hc⟩ := hl.busyWait hp
  have hpow : s.Powered := hl.powered (by simp [hf])
  rcases pollOnce_ok (s := { s with pending := none }) hf h with h | h
  · exact h.sound ⟨hb, State.linked_idle rfl rfl hpow rfl⟩
  · refine h.sound ⟨hb, State.linked_busyWait hf rfl hpow ?_⟩
    change (if s.pollContinuous then s.csN else true) = !s.pollContinuous
    cases hcont : s.pollContinuous <;> simp [hc, hcont]

/-! ### The invariant -/

theorem blockReset_inv {s : State} (h : s.env.wf) : (blockReset s).Inv :=
  ⟨h, by simp, fun _ => State.linked_uninit rfl rfl (by simp)⟩

/-- A whole operation leads to a state that meets the invariant if it does when it runs to its end: a
transport error leaves nothing in progress and is on record, block reset leaves UNINIT. -/
theorem Whole.settle_inv {m : Act Unit} (h : Whole m) {s : State} (hwf : s.env.wf)
    (hp : s.pending = none) (hok : ∀ t, m.run s = .ok () t → t.Sound) : (settle m s).Inv := by
  rcases hr : m.run s with ⟨_, t⟩ | ⟨code | _, t⟩
  · obtain ⟨evs, o⟩ := h.ok hr
    obtain ⟨hb, hl⟩ := hok t hr
    rw [settle_ok hr]
    exact ⟨o.wf hwf, by simp [hb], fun _ => hl⟩
  · obtain ⟨evs, c⟩ := h.error hr
    rw [settle_error hr]
    exact ⟨c.wf hwf, by simp [c.pending, hp], by simp⟩
  · obtain ⟨evs, c⟩ := h.error hr
    have hset : settle m s = blockReset t := by simp [settle, hr]
    rw [hset]
    exact blockReset_inv (c.wf hwf)

theorem exec_inv {i : Instr} {s t : State} (hs : s.Inv) (h : exec i s = .next t) : t.Inv := by
  obtain ⟨hwf, -, hl⟩ := hs
  obtain ⟨hm, m, r, rfl⟩ := exec_runs h
  exact r.whole.settle_inv hwf (misuse_none.1 hm).1 fun t ht => r.sound hm hl ht

theorem resumeWait_inv {w : Waiter} {s : State} (hs : s.Inv) (hp : s.pending = some w) :
    (resumeWait w s).Inv := by
  obtain ⟨hwf, hab, hl⟩ := hs
  have hb : s.aborted = false := by
    by_contra hb
    have hnone := (hab (by simpa using hb)).1
    simp [hp] at hnone
  exact (pollOnce_whole w).settle_inv hwf rfl fun t ht => pollOnce_sound ⟨hb, hl hb⟩ hp ht

/-- Settles O47, by what a step can do: an operation or a poll that runs to its end leaves FSM and the
pins in agreement, a transport error is on record, and block reset leaves UNINIT. -/
theorem stepKeepsTheInvariant : Obligations.StepKeepsTheInvariant := by
  intro s t hs h
  cases step_stepped h with
  | reset _ ht => exact ht ▸ blockReset_inv hs.1
  | poll w _ hp ht => exact ht ▸ resumeWait_inv hs hp
  | accept r rest _ _ _ ht =>
    have hacc : (acceptRequest r rest s).Inv := hs
    exact exec_inv hacc ht
  | wait _ _ _ ht => exact ht ▸ hs

end Sys2Proof.Machine
end

section
/-! What every operation changes and what it leaves: FSM, the latches, the pins. -/

namespace Sys2Proof.Machine

/-! ### Where operations end -/

theorem endsWhereListed_arm {i : Instr} (hi : armsStream i = true) {s t : State}
    (h : t.fsm = .armedStream) : EndsWhereListed s t i := by
  cases i <;> cases hi <;> exact h

theorem endsWhereListed_trigger {i : Instr} {w : Waiter} (hi : triggerWaiter i = some w)
    {s t : State} (h : t.fsm = .idle ∨ (t.fsm = .busyWait ∧ t.pending = some w)) :
    EndsWhereListed s t i := by
  cases i <;> cases hi <;> exact h

/-- The end of a wait (`triggered_ok`, `waitReady_ok`). -/
theorem fsm_of_wait {s t : State} {w : Waiter} {n : Nat}
    (h : Moved { s with fsm := .idle, csN := true, pollCount := n } t ∨
      Moved { s with
        fsm := .busyWait, csN := !s.pollContinuous, pollCount := n, pending := some w } t) :
    t.fsm = .idle ∨ (t.fsm = .busyWait ∧ t.pending = some w) := by
  rcases h with ⟨_, _, _, rfl⟩ | ⟨_, _, _, rfl⟩
  · exact .inl rfl
  · exact .inr ⟨rfl, rfl⟩

theorem Moved.fsm {s t : State} (h : Moved s t) : t.fsm = s.fsm := by
  obtain ⟨_, _, _, rfl⟩ := h
  rfl

theorem Runs.endsWhereListed {i : Instr} {m : Act Unit} {s t : State} (r : Runs s i m)
    (hm : misuse i s = none) (h : m.run s = .ok () t) : EndsWhereListed s t i := by
  cases r with
  | init cfg => exact (initAct_ok h).fsm
  | release | endStream => exact (deselect_ok h).fsm
  | streamXfer tx =>
    have hf : s.fsm = .armedStream := by
      obtain ⟨-, hallow, -⟩ := misuse_none.1 hm
      have hb := (initialised_of_allows (by simp) hallow).1
      simpa [State.allows, hb, legalFrom] using hallow
    exact (streamXfer_ok h).fsm.trans hf
  | statusRead => exact (statusReadAct_ok h).fsm
  | waitReady => exact fsm_of_wait (waitReady_ok h)
  | idRead => exact (idReadAct_ok h).imp Moved.fsm Moved.fsm
  | arm hi => exact endsWhereListed_arm hi (armStream_ok h).fsm
  | trigger hi => exact endsWhereListed_trigger hi (fsm_of_wait (triggered_ok h))
  | chipErase =>
    rcases chipEraseAct_ok h with ⟨hen, h⟩ | ⟨hen, h⟩
    · simpa [EndsWhereListed, hen] using fsm_of_wait h
    · simpa [EndsWhereListed, hen] using h.fsm
  | deepPowerDown | resume => exact (frameAndDelay_ok h).fsm
  | hardReset => exact (hardResetAct_ok h).fsm

/-- Settles O39: in a quiet state an operation runs to its end, and its last change of FSM is R16's. -/
theorem operationsEndWhereListed : Obligations.OperationsEndWhereListed := by
  intro s t i hq h
  obtain ⟨hm, m, r, rfl⟩ := exec_runs h
  exact r.endsWhereListed hm (r.whole.run_of_quiet hq)

/-! ### What operations leave unchanged -/

/-- The latches only INIT changes. -/
def State.initLatches (s : State) : Bool × Bool × BitVec 2 := (s.wpN, s.pinsEn, s.cfg)

theorem State.initLatches_steady : Steady State.initLatches := by
  constructor
  · constructor <;> intros <;> rfl
  all_goals intros; rfl

theorem State.resetN_steady : Steady State.resetN := by
  constructor
  · constructor <;> intros <;> rfl
  all_goals intros; rfl

theorem State.pollCount_still : Still State.pollCount := by
  constructor <;> intros <;> rfl

/-- HARD_RESET changes, beside what a frame touches, RESET_N only (R196). -/
theorem Still.hardResetAct {β : Type} {f : State → β} (h : Still f)
    (hr : ∀ s v, f { s with resetN := v } = f s) (p : Params) : Keeps f (hardResetAct p) :=
  (Keeps.lineOp h.moved fun s => hr s _).bind fun _ => (h.delayUs _).bind fun _ =>
    h.csDeassert.bind fun _ => (Keeps.lineOp h.moved fun s => hr s _).bind fun _ =>
      (h.delayUs _).bind fun _ => h.csAssert.bind fun _ => (h.setFsm _).bind fun _ => h.respond _

theorem initAct_keeps_pollCount (cfg : BitVec 2) : Keeps State.pollCount (initAct cfg) := by
  have h := State.pollCount_still
  have hpins : Keeps State.pollCount pinsEnable := Keeps.lineOp h.moved fun _ => rfl
  have hrst : Keeps State.pollCount rstHigh := Keeps.lineOp h.moved fun _ => rfl
  have hwp : Keeps State.pollCount (wpDrive true) := Keeps.lineOp h.moved fun _ => rfl
  exact hpins.bind fun _ => h.csDeassert.bind fun _ => hrst.bind fun _ => hwp.bind fun _ =>
    (Keeps.modify (g := fun s => { s with cfg := cfg, fsm := .idle, aborted := false })
      fun _ => rfl).bind fun _ => h.respond _

theorem Runs.keeps_initLatches {i : Instr} {m : Act Unit} {s : State} (r : Runs s i m)
    (hi : ∀ c, i ≠ .init c) : Keeps State.initLatches m :=
  r.keeps State.initLatches_steady.toStill (fun _ => State.initLatches_steady)
    (fun c hc => absurd hc (hi c))
    fun _ => State.initLatches_steady.toStill.hardResetAct (fun _ _ => rfl) _

theorem Runs.keeps_resetN {i : Instr} {m : Act Unit} {s : State} (r : Runs s i m)
    (hi : ∀ c, i ≠ .init c) (hh : i ≠ .hardReset) : Keeps State.resetN m :=
  r.keeps State.resetN_steady.toStill (fun _ => State.resetN_steady) (fun c hc => absurd hc (hi c))
    fun hc => absurd hc hh

theorem Runs.keeps_pollCount {i : Instr} {m : Act Unit} {s : State} (r : Runs s i m)
    (hi : usesSynchroniser i = false) : Keeps State.pollCount m :=
  r.keeps State.pollCount_still (fun hu => by simp [hi] at hu) (fun c _ => initAct_keeps_pollCount c)
    fun _ => State.pollCount_still.hardResetAct (fun _ _ => rfl) _

/-- Settles O40: what no piece of an operation touches (`Onward`), and what the pieces of all but the
operations named keep (`Runs.keeps`). -/
theorem operationsLeaveTheRest : Obligations.OperationsLeaveTheRest := by
  intro s t i hs h
  obtain ⟨-, m, r, hset⟩ := exec_runs h
  have hw := r.whole
  have hinit : (∀ c, i ≠ .init c) → t.wpN = s.wpN ∧ t.pinsEn = s.pinsEn ∧ t.cfg = s.cfg := fun hi => by
    have hk := (r.keeps_initLatches hi).settle hw (fun _ _ => rfl) hs
    simpa [hset, State.initLatches] using hk
  have hreset : (∀ c, i ≠ .init c) → i ≠ .hardReset → t.resetN = s.resetN := fun hi hh =>
    hset ▸ (r.keeps_resetN hi hh).settle hw (fun _ _ => rfl) hs
  have hpoll : usesSynchroniser i = false → t.pollCount = s.pollCount := fun hi =>
    hset ▸ (r.keeps_pollCount hi).settle hw (fun _ _ => rfl) hs
  obtain ⟨u, evs, o, hu | ⟨c, hu⟩⟩ := hw.settle_onward hs <;> rw [hset] at hu <;> subst hu
  all_goals
    refine ⟨o.params, o.opsel, o.a, o.b, o.buf, o.txd, o.cfgIn, o.host, o.never hs, hinit, hreset,
      hpoll, fun hab => ?_⟩
  · exact o.faults
  · simp at hab

/-! ### The pins follow their events -/

theorem exec_pinsFollow {i : Instr} {s t : State} (hs : s.resets = []) (h : exec i s = .next t) :
    PinsFollow s t := by
  obtain ⟨-, m, r, rfl⟩ := exec_runs h
  exact r.follows.settle (r.whole.ne_blockReset hs)

theorem step_pinsFollow {s t : State} (hs : s.resets = []) (h : step s = .next t) :
    PinsFollow s t := by
  cases step_stepped h with
  | reset hr _ => simp [hs] at hr
  | poll w _ _ ht =>
    subst ht
    have hfree : PinsFollow s { s with pending := none } := .still rfl rfl
    exact hfree.trans ((pollOnce_follows w).settle ((pollOnce_whole w).ne_blockReset hs))
  | accept r rest _ _ _ ht =>
    have hload : PinsFollow s (acceptRequest r rest s) := .still rfl rfl
    exact hload.trans (exec_pinsFollow hs ht)
  | wait _ _ _ ht => exact ht ▸ PinsFollow.refl s

/-- Settles O60: every piece of an operation drives the pins by events only (`Follows`). -/
theorem pinsFollowTheirEvents : Obligations.PinsFollowTheirEvents := by
  intro s t hs h
  have hfollow : PinsFollow s t := by
    rcases h with ⟨i, h⟩ | h
    · exact exec_pinsFollow hs h
    · exact step_pinsFollow hs h
  obtain ⟨evs, htrace, hpins⟩ := hfollow
  refine ⟨evs, htrace, fun u hu => ?_⟩
  simpa [State.pins, ← hu] using hpins

/-! ### Reset values and the offered operation -/

/-- Settles O29: the fields of `State.resetWith`. -/
theorem blockResetLeavesStatedValues : Obligations.BlockResetLeavesStatedValues :=
  ⟨fun _ _ => ⟨rfl, rfl, rfl, rfl, rfl, rfl⟩, rfl⟩

/-- Settles O44: with the port ready the next action is to accept the request. -/
theorem stepRunsTheOfferedOperation : Obligations.StepRunsTheOfferedOperation := by
  rintro s i r rest rfl hr hp hh
  unfold step
  rw [nextAction_accept hr hp hh]
  rfl

end Sys2Proof.Machine
end

section
/-! The trace of a step: it only grows, and an operation in progress ends after a ready byte. -/

namespace Sys2Proof.Machine

/-! ### The trace only grows -/

/-- However a whole operation ends, it has only appended to the trace. -/
theorem Whole.settle_trace {m : Act Unit} (h : Whole m) (s : State) :
    ∃ evs, (settle m s).trace = s.trace ++ evs := by
  rcases settle_cases h s with ⟨_, _, o, -⟩ | ⟨_, _, o, -⟩ | ⟨c, u, evs, k, hset⟩ | ⟨u, evs, k, hset⟩
  · exact ⟨_, o.trace⟩
  · exact ⟨_, o.trace⟩
  · exact ⟨evs ++ [.resp (.xferError c)],
      by rw [hset, transportAbort_trace, k.trace, List.append_assoc]⟩
  · exact ⟨evs, by rw [hset, blockReset_trace, k.trace]⟩

/-- Settles O41: whole operations and polls only append (`Whole.settle_trace`), and block reset and
waiting leave the trace. -/
theorem traceOnlyGrows : Obligations.TraceOnlyGrows := by
  intro s t h
  cases step_stepped h with
  | reset _ ht => exact ⟨[], by simp [ht]⟩
  | poll w _ _ ht => exact ht ▸ (pollOnce_whole w).settle_trace _
  | accept r rest _ _ _ ht =>
    obtain ⟨-, m, hrun, rfl⟩ := exec_runs ht
    exact hrun.whole.settle_trace _
  | wait _ _ _ ht => exact ⟨[], by simp [ht]⟩

/-! ### What ends a wait -/

/-- From `s` to `t` byte `b` was received for FILL. -/
def HeardForFill (s t : State) (b : Byte) : Prop :=
  ∃ evs, t.trace = s.trace ++ evs ∧ Event.xfer s.params.fill b ∈ evs

/-- What was heard stays heard. -/
theorem HeardForFill.onward {s t u : State} {b : Byte} {evs : List Event} (h : HeardForFill s t b)
    (k : Onward t u evs) : HeardForFill s u b := by
  obtain ⟨es, htrace, hmem⟩ := h
  exact ⟨es ++ evs, by rw [k.trace, htrace, List.append_assoc], List.mem_append_left _ hmem⟩

theorem statusTxn_heard {s t : State} {b : Byte} (h : statusTxn.run s = .ok b t) :
    HeardForFill s t b := by
  obtain ⟨_, _, hq, h⟩ := bind_eq_ok h
  cases hq
  obtain ⟨_, u, hu, h⟩ := bind_eq_ok h
  obtain ⟨_, v, hv, h⟩ := bind_eq_ok h
  obtain ⟨_, w, hw, h⟩ := bind_eq_ok h
  cases h
  obtain ⟨es, hframe⟩ := (frame_silent _).ok hu
  obtain ⟨fs, hclose⟩ := csDeassert_silent.ok hw
  have hbyte : HeardForFill s v b :=
    ⟨es ++ [.xfer s.params.fill b], by rw [(xfer_ok hv).2, hframe.trace, List.append_assoc], by simp⟩
  exact hbyte.onward hclose.toOnward

/-- The second half of a turn of the synchroniser's loop: only a ready byte leads out of it. -/
theorem ready_of_not_parked {w : Waiter} {b : Byte} {m : Act Unit} {s t : State}
    (hp : t.pending = none) (h : (if ready b then m else park w).run s = .ok () t) :
    ready b = true ∧ m.run s = .ok () t := by
  split at h
  · exact ⟨by assumption, h⟩
  · obtain ⟨_, _, _, rfl⟩ := park_ok h
    cases hp

/-- A turn of the synchroniser's loop that ends the operation has received a ready byte (R123). -/
theorem pollOnce_heard {w : Waiter} {s t : State} (hp : t.pending = none)
    (h : (pollOnce w).run s = .ok () t) : ∃ b, HeardForFill s t b ∧ ready b = true := by
  obtain ⟨_, _, hq, h⟩ := bind_eq_ok h
  cases hq
  split at h
  · obtain ⟨_, _, hq, h⟩ := bind_eq_ok h
    cases hq
    obtain ⟨b, u, hu, h⟩ := bind_eq_ok h
    obtain ⟨_, v, hv, h⟩ := bind_eq_ok h
    obtain ⟨_, hcount⟩ := countPoll_silent.ok hv
    obtain ⟨hready, hend⟩ := ready_of_not_parked hp h
    have hbyte : HeardForFill s u b := ⟨[.xfer s.params.fill b], (xfer_ok hu).2, by simp⟩
    obtain ⟨evs, hon⟩ := (csDeassert_silent.andThen fun _ => afterWait_whole w).ok hend
    exact ⟨b, (hbyte.onward hcount.toOnward).onward hon, hready⟩
  · obtain ⟨b, u, hu, h⟩ := bind_eq_ok h
    obtain ⟨_, v, hv, h⟩ := bind_eq_ok h
    obtain ⟨_, hcount⟩ := countPoll_silent.ok hv
    obtain ⟨hready, hend⟩ := ready_of_not_parked hp h
    obtain ⟨evs, hon⟩ := (afterWait_whole w).ok hend
    exact ⟨b, ((statusTxn_heard hu).onward hcount.toOnward).onward hon, hready⟩

/-- Settles O26: with no reset on its way the step is a turn of the loop (`pollOnce_heard`) that ran to
its end, for a transport error would be on record. -/
theorem completionNeedsAReadyByte : Obligations.CompletionNeedsAReadyByte := by
  intro s t hpend hs h hover hfaults
  cases step_stepped h with
  | reset hr _ => simp [hs] at hr
  | accept _ _ _ hp => exact absurd hp hpend
  | wait _ hp => exact absurd hp hpend
  | poll w _ _ ht =>
    subst ht
    have hw := pollOnce_whole w
    unfold resumeWait at hover hfaults ⊢
    rcases hr : (pollOnce w).run { s with pending := none } with ⟨_, t⟩ | ⟨code | _, t⟩
    · rw [settle_ok hr] at hover ⊢
      obtain ⟨b, ⟨evs, htrace, hmem⟩, hready⟩ := pollOnce_heard hover hr
      exact ⟨evs, b, htrace, hmem, hready⟩
    · obtain ⟨_, cut⟩ := hw.error hr
      rw [settle_error hr, transportAbort_faults, cut.faults] at hfaults
      simp at hfaults
    · exact absurd hr (hw.ne_blockReset (by exact hs) t)

end Sys2Proof.Machine
end

section
/-! Streams of the reference responder (R60): what a byte stores and answers, and where PTR goes. -/

namespace Sys2Proof.Machine

/-! ### Chips that differ outside their memories -/

/-- The memories, COMP and LATENCY of two chips agree. -/
structure Chip.Alike (c c' : Chip) : Prop where
  mem : c'.mem = c.mem
  buf1 : c'.buf1 = c.buf1
  buf2 : c'.buf2 = c.buf2
  comp : c'.comp = c.comp
  latency : c'.latency = c.latency

theorem Chip.Alike.refl (c : Chip) : c.Alike c := ⟨rfl, rfl, rfl, rfl, rfl⟩

theorem Chip.Alike.trans {c d e : Chip} (h : c.Alike d) (k : d.Alike e) : c.Alike e :=
  ⟨k.mem.trans h.mem, k.buf1.trans h.buf1, k.buf2.trans h.buf2, k.comp.trans h.comp,
    k.latency.trans h.latency⟩

theorem Chip.Alike.sameMemory {c c' : Chip} (h : c.Alike c') : c.SameMemory c' := by
  intro sp page offset
  rcases sp with _ | (_ | _) <;> simp [Chip.read, h.mem, h.buf1, h.buf2]

theorem Chip.SameMemory.trans {c d e : Chip} (h : c.SameMemory d) (k : d.SameMemory e) :
    c.SameMemory e := fun sp page offset => (k sp page offset).trans (h sp page offset)

theorem Chip.Alike.wf {c c' : Chip} (h : c.Alike c') (hc : c.wf) : c'.wf :=
  Chip.wf_of_mem hc h.mem h.buf1 h.buf2

/-! ### One byte -/

/-- Only a buffer write stores in its data phase. -/
theorem Chip.data_alike (p : Params) {k : Command} (hk : ∀ buf, k ≠ .bufWrite buf) (t : Byte)
    (c : Chip) : c.Alike (Chip.data p k t c).2 := by
  have hpos : c.Alike (c.nextPosition p) := by
    unfold Chip.nextPosition
    split <;> exact ⟨rfl, rfl, rfl, rfl, rfl⟩
  cases k with
  | bufWrite buf => exact absurd rfl (hk buf)
  | contReadLow | contReadHigh => exact hpos
  | _ => exact ⟨rfl, rfl, rfl, rfl, rfl⟩

/-- A byte after an opcode stores only in the data phase of a buffer write. -/
theorem Chip.afterOpcode_alike (p : Params) {k : Command} {n : Nat}
    (hk : ∀ buf, k = .bufWrite buf → n ≤ 3) (t : Byte) (c : Chip) :
    c.Alike (Chip.afterOpcode p k n t c).2 := by
  unfold Chip.afterOpcode
  split
  · exact ⟨rfl, rfl, rfl, rfl, rfl⟩
  · exact .refl c
  · split
    · split
      · exact .refl c
      · split
        · exact ⟨rfl, rfl, rfl, rfl, rfl⟩
        · split
          · exact .refl c
          · rename_i hn3 _
            refine Chip.data_alike p (fun buf hb => ?_) t c
            have := hk buf hb
            omega
    · exact .refl c

/-- A transfer stores only in the data phase of a buffer write (R60). -/
theorem Chip.xfer_alike {p : Params} {c : Chip}
    (h : ∀ buf, c.cmd.head?.bind p.commandOf = some (.bufWrite buf) → c.cmd.length ≤ 3) (t : Byte) :
    c.Alike (c.xfer p t).2 := by
  unfold Chip.xfer
  split
  · split
    · exact ⟨rfl, rfl, rfl, rfl, rfl⟩
    · rename_i op rest hcmd
      have hkept : c.Alike { c with cmd := op :: rest ++ [t] } := ⟨rfl, rfl, rfl, rfl, rfl⟩
      simp only
      split
      · exact hkept
      · rename_i k hk
        refine hkept.trans (Chip.afterOpcode_alike p (fun buf hb => ?_) t _)
        simpa [hcmd] using h buf (by simp [hcmd, hk, hb])
  · exact .refl c

/-- A byte past the address and the don't-care bytes is one of the data phase. -/
theorem Chip.xfer_data {p : Params} {c : Chip} (hs : c.sel = true) {op : Byte} {sent : List Byte}
    (hc : c.cmd = op :: sent) {k : Command} (hk : p.commandOf op = some k) (ha : addressed k = true)
    (hl : 3 + dontCares k ≤ sent.length) (t : Byte) :
    c.xfer p t = Chip.data p k t { c with cmd := op :: sent ++ [t] } := by
  rw [Chip.xfer_later hs hc hk]
  have h3 : ¬ sent.length + 1 < 3 := by omega
  have hne : sent.length + 1 ≠ 3 := by omega
  have hdc : ¬ sent.length + 1 ≤ 3 + dontCares k := by omega
  unfold Chip.afterOpcode
  split
  · cases ha
  · cases ha
  · rw [if_pos ha, if_neg h3, if_neg hne, if_neg hdc]

/-! ### STREAM_XFER -/

/-- R105 in a quiet state. -/
theorem streamXfer_quiet {s : State} (h : s.Quiet) (tx : Byte) :
    (do let r ← xfer tx; respond (.byte r) : Act Unit).run s =
      .ok () ((s.after [.send tx]).emit (.resp (.byte (s.lastHeard [.send tx])))) :=
  run_bind (xfer_quiet h tx) (respond_quiet (by exact ⟨h.1, h.2⟩) _)

/-- With the responder STREAM_XFER is one transfer of the chip. -/
theorem exec_streamXfer_chip {s : State} {c : Chip} (hq : s.Quiet) (hc : s.HasChip c) {v : Byte}
    (hm : misuse (.streamXfer v) s = none) :
    exec (.streamXfer v) s =
      .next { s with
        env := .responder (c.xfer s.params v).2
        trace := s.trace ++
          [.xfer v (c.xfer s.params v).1, .resp (.byte (c.xfer s.params v).1)] } := by
  have hrun : exec (.streamXfer v) s = .next _ := accepted_ok hm (streamXfer_quiet hq v)
  rw [hrun]
  simp [State.after, State.lastHeard, State.heard, State.emit, hc, Env.play, Env.xfer, received]

theorem State.Streaming.misuse {s : State} (h : s.Streaming) (v : Byte) :
    misuse (.streamXfer v) s = none := by
  obtain ⟨hp, hb, hf⟩ := h
  exact misuse_none.2 ⟨hp, by simp [State.allows, hb, legalFrom, hf], rfl⟩

/-- The data phase of a buffer write is a write at PTR. -/
theorem Chip.data_bufWrite_read (p : Params) (buf : Buffer) (t : Byte) {c : Chip} (hc : c.wf)
    (sp : Space) (page offset : Nat) :
    (Chip.data p (.bufWrite buf) t c).2.read sp page offset =
      if sp = c.ptr.space ∧ c.ptr.space.addr page offset = c.ptr.space.addr c.ptr.page c.ptr.offset
      then t else c.read sp page offset :=
  Chip.read_write c hc c.ptr.space c.ptr.page c.ptr.offset t sp page offset

theorem Chip.data_bufWrite_ptr (p : Params) (buf : Buffer) (t : Byte) (c : Chip) :
    (Chip.data p (.bufWrite buf) t c).2.ptr =
      ⟨c.ptr.space, c.ptr.page, (c.ptr.offset + 1) % p.pageSize.bytes⟩ := by
  obtain ⟨-, -, hptr, -⟩ := Chip.write_rest c c.ptr.space c.ptr.page c.ptr.offset t
  simp [Chip.data, Chip.nextOffset, hptr]

/-- Settles O48: the transfer is the data phase of a buffer write (`Chip.data_bufWrite_read`). -/
theorem streamWriteStoresOneByte : Obligations.StreamWriteStoresOneByte := by
  intro s c v op buf sent hq hst hc hwf hsel hcmd hl hop hspace
  have hexec := exec_streamXfer_chip hq hc (hst.misuse v)
  rw [Chip.xfer_data hsel hcmd hop rfl hl v] at hexec
  have hkept : c.Alike { c with cmd := op :: sent ++ [v] } := ⟨rfl, rfl, rfl, rfl, rfl⟩
  have hread := Chip.data_bufWrite_read s.params buf v (hkept.wf hwf)
  refine ⟨_, hexec, ?_, fun sp page offset hne => ?_, Chip.data_bufWrite_ptr _ _ _ _⟩
  · rw [hread, if_pos (by simp [hspace, Space.addr])]
  · rw [hread, if_neg (by simpa [hspace, Space.addr] using hne)]
    exact hkept.sameMemory sp page offset

/-- The commands whose data phase is a read stream inside one page or buffer. -/
def wrapsInPage : Command → Bool
  | .bufRead _ | .pageRead => true
  | _ => false

/-- The commands whose data phase goes on into the next page. -/
def crossesPages : Command → Bool
  | .contReadLow | .contReadHigh => true
  | _ => false

/-- The data phase of a read answers the byte at PTR. -/
theorem Chip.data_read (p : Params) {k : Command} (hk : wrapsInPage k = true ∨ crossesPages k = true)
    (t : Byte) (c : Chip) :
    Chip.data p k t c = (c.readPtr, if crossesPages k then c.nextPosition p else c.nextOffset p) := by
  cases k with
  | bufRead | pageRead | contReadLow | contReadHigh => rfl
  | _ => simp [wrapsInPage, crossesPages] at hk

theorem Chip.nextPosition_ptr (p : Params) (c : Chip) :
    (c.nextPosition p).ptr =
      if c.ptr.offset + 1 = p.pageSize.bytes
      then ⟨c.ptr.space, (c.ptr.page + 1) % 4096, 0⟩
      else ⟨c.ptr.space, c.ptr.page, c.ptr.offset + 1⟩ := by
  unfold Chip.nextPosition
  split <;> rfl

/-- Settles O49: the transfer is the data phase of a read (`Chip.data_read`). -/
theorem streamReadReturnsTheByte : Obligations.StreamReadReturnsTheByte := by
  intro s c v op k sent hq hst hc hsel hcmd hop hk
  have hread : (wrapsInPage k = true ∨ crossesPages k = true) ∧ addressed k = true ∧
      3 + dontCares k ≤ sent.length := by
    rcases hk with ⟨b, rfl, hl⟩ | ⟨rfl, hl⟩ | ⟨rfl, hl⟩ | ⟨rfl, hl⟩
    · exact ⟨.inl rfl, rfl, hl⟩
    · exact ⟨.inl rfl, rfl, hl⟩
    · exact ⟨.inr rfl, rfl, hl⟩
    · exact ⟨.inr rfl, rfl, hl⟩
  obtain ⟨hrk, ha, hl⟩ := hread
  have hstore : c.Alike (c.xfer s.params v).2 := Chip.xfer_alike (fun buf hb => by
    rw [hcmd, List.head?_cons, Option.bind_some, hop, Option.some.injEq] at hb
    subst hb
    simp [wrapsInPage, crossesPages] at hrk) v
  have hx := Chip.xfer_data hsel hcmd hop ha hl v
  rw [Chip.data_read _ hrk] at hx
  have hexec := exec_streamXfer_chip hq hc (hst.misuse v)
  rw [hx] at hexec hstore
  refine ⟨_, hexec, hstore.sameMemory, fun h1 h2 => ?_, fun h => ?_⟩
  · have hcont : crossesPages k = false := by
      cases k with
      | contReadLow => exact absurd rfl h1
      | contReadHigh => exact absurd rfl h2
      | _ => rfl
    simp [hcont, Chip.nextOffset]
  · have hcont : crossesPages k = true := by rcases h with rfl | rfl <;> rfl
    simp only [hcont, if_true]
    exact Chip.nextPosition_ptr _ _

/-- Settles O50: a transfer stores in the data phase of a buffer write only (`Chip.xfer_alike`). -/
theorem streamXferStoresOnlyInBufferWrites : Obligations.StreamXferStoresOnlyInBufferWrites := by
  intro s t c v hq hc hcmd h
  obtain ⟨hm, -⟩ := exec_runs h
  rw [exec_streamXfer_chip hq hc hm] at h
  cases h
  exact ⟨_, rfl, (Chip.xfer_alike (fun buf hb => absurd hb (hcmd buf)) v).sameMemory⟩

end Sys2Proof.Machine
end

section
/-! What the drives of the block leave alone in the reference responder (R59, R60): lines, frames and
status transactions. -/

namespace Sys2Proof.Machine

/-! ### Drives that change no memory -/

/-- From every chip that meets `P` the drives lead to one like it, which meets `Q`. -/
def Spares (p : Params) (P : Chip → Prop) (ds : List Drive) (Q : Chip → Prop) : Prop :=
  ∀ c, P c → ∃ d, (Env.play p ds (.responder c)).env = .responder d ∧ c.Alike d ∧ Q d

variable {p : Params} {P Q R : Chip → Prop} {ds es : List Drive}

theorem Spares.nil : Spares p P [] P := fun c hc => ⟨c, rfl, .refl c, hc⟩

theorem Spares.append (h : Spares p P ds Q) (k : Spares p Q es R) : Spares p P (ds ++ es) R := by
  intro c hc
  obtain ⟨d, hd, hcd, hq⟩ := h c hc
  obtain ⟨e, he, hde, hr⟩ := k d hq
  exact ⟨e, by rw [Env.play_append, hd]; exact he, hcd.trans hde, hr⟩

theorem Spares.cons_line {ev : Event}
    (h : ∀ c, P c → c.Alike (c.onLine p ev) ∧ Q (c.onLine p ev)) (k : Spares p Q ds R) :
    Spares p P (.line ev :: ds) R := by
  intro c hc
  obtain ⟨hcd, hq⟩ := h c hc
  obtain ⟨e, he, hde, hr⟩ := k _ hq
  exact ⟨e, by rw [Env.play_line]; exact he, hcd.trans hde, hr⟩

theorem Spares.cons_send {t : Byte}
    (h : ∀ c, P c → c.Alike (c.xfer p t).2 ∧ Q (c.xfer p t).2) (k : Spares p Q ds R) :
    Spares p P (.send t :: ds) R := by
  intro c hc
  obtain ⟨hcd, hq⟩ := h c hc
  obtain ⟨e, he, hde, hr⟩ := k _ hq
  exact ⟨e, by rw [Env.play_send]; exact he, hcd.trans hde, hr⟩

theorem Spares.weaken (h : Spares p P ds Q) (hq : ∀ c, Q c → R c) : Spares p P ds R := by
  intro c hc
  obtain ⟨d, hd, hcd, hd'⟩ := h c hc
  exact ⟨d, hd, hcd, hq d hd'⟩

/-! ### Lines -/

/-- With no triggered command waiting, no line changes a memory or lets one wait. -/
theorem Chip.Disarmed.onLine {c : Chip} (h : c.Disarmed p) (ev : Event) :
    c.Alike (c.onLine p ev) ∧ (c.onLine p ev).Disarmed p := by
  cases ev with
  | cs v =>
    cases v with
    | true =>
      rw [Chip.onLine_cs_true h]
      exact ⟨⟨rfl, rfl, rfl, rfl, rfl⟩, Chip.unselected_disarmed rfl⟩
    | false =>
      cases hs : c.sel with
      | true => simpa [Chip.onLine, hs] using And.intro (Chip.Alike.refl c) h
      | false =>
        rw [Chip.onLine_cs_false hs]
        exact ⟨⟨rfl, rfl, rfl, rfl, rfl⟩, Chip.opened_disarmed p c⟩
  | rst v =>
    cases v with
    | true => exact ⟨.refl c, h⟩
    | false => exact ⟨⟨rfl, rfl, rfl, rfl, rfl⟩, Chip.unselected_disarmed rfl⟩
  | pins | wp | xfer | delayUs | resp => exact ⟨.refl c, h⟩

theorem spares_lines (p : Params) (evs : List Event) :
    Spares p (Chip.Disarmed p) (evs.map .line) (Chip.Disarmed p) := by
  induction evs with
  | nil => exact .nil
  | cons ev evs ih => exact .cons_line (fun c hc => hc.onLine ev) ih

theorem spares_gap (p : Params) : Spares p (Chip.Disarmed p) (gapDrives p) (Chip.Disarmed p) := by
  unfold gapDrives
  split
  · exact spares_lines p [.delayUs p.pollInterval]
  · exact .nil

theorem spares_close (p : Params) (cont : Bool) :
    Spares p (Chip.Disarmed p) (closeDrives cont) (Chip.Disarmed p) := by
  cases cont with
  | true => exact spares_lines p [.cs true]
  | false => exact .nil

theorem spares_pulse (p : Params) :
    Spares p (Chip.Disarmed p) (pulseDrives p) fun c => c.sel = true ∧ c.cmd = [] := by
  intro c hc
  exact ⟨c.opened, (Env.play_pulse hc).1, ⟨rfl, rfl, rfl, rfl, rfl⟩, rfl, rfl⟩

/-! ### Open commands -/

/-- The commands whose frame has an effect when chip-select goes high (R59, R62). -/
def armsTrigger : Command → Bool
  | .bufToPageE _ | .bufToPageNE _ | .pageToBuf _ | .compare _ | .pageErase | .blockErase
  | .sectorErase | .chipErase => true
  | _ => false

theorem Chip.effect_eq_none {k : Command} (hk : armsTrigger k = false) (a24 : Nat) (c : Chip) :
    c.effect p k a24 = none := by
  cases k with
  | bufToPageE | bufToPageNE | pageToBuf | compare | pageErase | blockErase | sectorErase
  | chipErase => cases hk
  | _ => rfl

/-- The command the chip has heard the opcode of. -/
def Chip.Talks (p : Params) (k : Command) (c : Chip) : Prop := ∃ rest, c.cmd = p.opcode k :: rest

theorem Chip.Talks.disarmed (h : p.Legal) {k : Command} (hk : armsTrigger k = false) {c : Chip}
    (hc : c.Talks p k) : c.Disarmed p := by
  obtain ⟨rest, hcmd⟩ := hc
  have hne : k ≠ .chipErase := by rintro rfl; cases hk
  intro _
  by_cases hl : rest.length = 3
  · obtain ⟨b0, b1, b2, rfl⟩ := List.length_eq_three.1 hl
    rw [Chip.triggered_address h hne hcmd, Chip.effect_eq_none hk]
  · exact Chip.triggered_other h hne hcmd hl

theorem Chip.data_cmd (p : Params) (k : Command) (t : Byte) (c : Chip) :
    (Chip.data p k t c).2.cmd = c.cmd := by
  have hpos : (c.nextPosition p).cmd = c.cmd := by
    unfold Chip.nextPosition
    split <;> rfl
  cases k with
  | bufWrite buf => exact (Chip.write_rest c c.ptr.space c.ptr.page c.ptr.offset t).2.1
  | contReadLow | contReadHigh => exact hpos
  | _ => rfl

theorem Chip.afterOpcode_cmd (p : Params) (k : Command) (n : Nat) (t : Byte) (c : Chip) :
    (Chip.afterOpcode p k n t c).2.cmd = c.cmd := by
  unfold Chip.afterOpcode
  split
  · rfl
  · rfl
  · split_ifs
    · rfl
    · rfl
    · rfl
    · exact Chip.data_cmd p _ t c
    · rfl

/-- A byte sent is heard, if at all, as a later byte of the open command. -/
theorem Chip.Talks.xfer {k : Command} {c : Chip} (hc : c.Talks p k) (t : Byte) :
    (c.xfer p t).2.Talks p k := by
  obtain ⟨rest, hcmd⟩ := hc
  unfold Chip.xfer
  split
  · rw [hcmd]
    simp only
    split
    · exact ⟨rest ++ [t], rfl⟩
    · exact ⟨rest ++ [t], Chip.afterOpcode_cmd p _ _ t _⟩
  · exact ⟨rest, hcmd⟩

/-- Bytes after the opcode of any command but a buffer write. -/
theorem spares_sends (h : p.Legal) {k : Command} (hk : ∀ buf, k ≠ .bufWrite buf)
    (bytes : List Byte) :
    Spares p (Chip.Talks p k) (bytes.map .send) (Chip.Talks p k) := by
  induction bytes with
  | nil => exact .nil
  | cons t ts ih =>
    refine .cons_send (fun c hc => ⟨Chip.xfer_alike (fun buf hb => ?_) t, hc.xfer t⟩) ih
    obtain ⟨rest, hcmd⟩ := hc
    rw [hcmd, List.head?_cons, Option.bind_some, Params.commandOf_opcode h, Option.some.injEq] at hb
    exact absurd hb (hk buf)

/-- The frame of any command but a buffer write. -/
theorem spares_frame (h : p.Legal) {k : Command} (hk : ∀ buf, k ≠ .bufWrite buf)
    (bytes : List Byte) :
    Spares p (Chip.Disarmed p) (frameDrives p (p.opcode k :: bytes)) (Chip.Talks p k) := by
  refine (spares_pulse p).append (.cons_send (fun c hc => ?_) (spares_sends h hk bytes))
  rw [Chip.xfer_first hc.1 hc.2]
  exact ⟨⟨rfl, rfl, rfl, rfl, rfl⟩, [], rfl⟩

/-- A frame that ends with the address. -/
theorem spares_address (h : p.Legal) {k : Command} (hk : addressed k = true) (b0 b1 b2 : Byte) :
    Spares p (Chip.Disarmed p) (frameDrives p [p.opcode k, b0, b1, b2]) (Chip.Talks p k) := by
  intro c hc
  refine ⟨_, Env.play_frame hc _, ?_⟩
  rw [Chip.sent_address h c hk]
  exact ⟨⟨rfl, rfl, rfl, rfl, rfl⟩, [b0, b1, b2], rfl⟩

/-! ### Status transactions -/

theorem spares_status (h : p.Legal) :
    Spares p (Chip.Disarmed p) (statusDrives p) (Chip.Disarmed p) := by
  have hopen := spares_frame h (k := .status) (by simp) []
  have hfill := (spares_sends h (k := .status) (by simp) [p.fill]).weaken fun c hc =>
    hc.disarmed h rfl
  simpa [statusDrives, Params.opcode] using (hopen.append hfill).append (spares_lines p [.cs true])

theorem spares_after (h : p.Legal) (w : Waiter) :
    Spares p (Chip.Disarmed p) (afterDrives p w) (Chip.Disarmed p) := by
  cases w with
  | done => exact .nil
  | compare => exact spares_status h

/-- Where a later poll stores nothing: in CONTINUOUS mode the open command is the status read, in RESELECT
mode nothing waits for chip-select to go high. -/
def Chip.Pollable (p : Params) (cont : Bool) (c : Chip) : Prop :=
  if cont then c.Talks p .status else c.Disarmed p

theorem spares_open (h : p.Legal) (cont : Bool) :
    Spares p (Chip.Disarmed p) (openDrives p cont) (Chip.Pollable p cont) := by
  cases cont with
  | true => exact spares_frame h (k := .status) (by simp) []
  | false => exact .nil

theorem spares_nextPoll (h : p.Legal) (cont : Bool) :
    Spares p (Chip.Pollable p cont) (nextPollDrives p cont) (Chip.Disarmed p) := by
  cases cont with
  | true =>
    exact (spares_sends h (k := .status) (by simp) [p.fill]).weaken fun c hc => hc.disarmed h rfl
  | false => exact spares_status h

theorem spares_firstPoll (h : p.Legal) (cont : Bool) :
    Spares p (Chip.Disarmed p) (firstPollDrives p cont) (Chip.Disarmed p) := by
  rw [firstPollDrives_eq]
  exact (spares_open h cont).append (spares_nextPoll h cont)

/-- What a turn of the loop drives after its status byte: the end of the wait, or the gap (R123). -/
def EndOrGap (p : Params) (cont : Bool) (w : Waiter) (ds : List Drive) : Prop :=
  ds = closeDrives cont ++ afterDrives p w ∨ ds = gapDrives p

theorem EndOrGap.spares (h : p.Legal) {cont : Bool} {w : Waiter} (hds : EndOrGap p cont w ds) :
    Spares p (Chip.Disarmed p) ds (Chip.Disarmed p) := by
  rcases hds with rfl | rfl
  · exact (spares_close p cont).append (spares_after h w)
  · exact spares_gap p

end Sys2Proof.Machine
end

section
/-! The operations that Laws/Exec.lean leaves out in a quiet state, and what the polls and the frames of
the operations leave in the responder's memories. -/

namespace Sys2Proof.Machine

/-! ### Operations in a quiet state -/

/-- RELEASE and END_STREAM (R101, R107). -/
theorem deselect_quiet {s : State} (h : s.Quiet) (f : Fsm) :
    (do csDeassert; setFsm f; respond .done : Act Unit).run s =
      .ok () (({ s.after [.line (.cs true)] with csN := true, fsm := f } : State).emit
        (.resp .done)) := by
  refine run_bind (csDeassert_quiet h) ?_
  refine run_bind (setFsm_run _ _) ?_
  exact respond_quiet (by exact ⟨h.1, h.2⟩) _

theorem State.latch_quiet {s : State} (h : s.Quiet) (ev : Event) : (s.latch ev).Quiet := by
  cases ev <;> exact h

theorem State.foldl_latch_quiet {s : State} (h : s.Quiet) (evs : List Event) :
    (evs.foldl State.latch s).Quiet := by
  induction evs generalizing s with
  | nil => exact h
  | cons ev evs ih => exact ih (State.latch_quiet h ev)

theorem State.latch_after (s : State) (ds : List Drive) (ev : Event) :
    (s.after ds).latch ev = (s.latch ev).after ds := by
  cases ev <;> rfl

/-- Pin and delay primitives in order. -/
theorem lineSeq_quiet {s : State} (h : s.Quiet) (evs : List Event) :
    (lineSeq evs).run s = .ok () ((evs.foldl State.latch s).after (evs.map .line)) := by
  induction evs generalizing s with
  | nil => simp [lineSeq]
  | cons ev evs ih =>
    have hafter : (s.after [.line ev]).Quiet := ⟨h.1, h.2⟩
    refine run_bind (lineOp_quiet h ev _) ((ih (State.latch_quiet hafter ev)).trans ?_)
    have hfold : ∀ (es : List Event) (t : State) (ds : List Drive),
        es.foldl State.latch (t.after ds) = (es.foldl State.latch t).after ds := by
      intro es
      induction es with
      | nil => exact fun _ _ => rfl
      | cons e es ih => exact fun t ds => by rw [List.foldl_cons, State.latch_after, ih]; rfl
    rw [State.latch_after, hfold, State.after_after]
    rfl

/-- INIT (R100). -/
theorem initAct_quiet {s : State} (h : s.Quiet) (cfg : BitVec 2) :
    (initAct cfg).run s =
      .ok () (({ s.after [.line (.pins true), .line (.cs true), .line (.rst true),
          .line (.wp true)] with
        pinsEn := true, csN := true, resetN := true, wpN := true
        cfg := cfg, fsm := .idle, aborted := false } : State).emit (.resp .done)) := by
  have hlines : initAct cfg = (do
      lineSeq [.pins true, .cs true, .rst true, .wp true]
      modify fun s => { s with cfg := cfg, fsm := .idle, aborted := false }
      respond .done) := by
    simp only [lineSeq, bind_assoc, pure_bind]
    rfl
  rw [hlines]
  refine run_bind (lineSeq_quiet h _) (run_bind (modify_run _ _) ?_)
  refine (respond_quiet (by exact State.foldl_latch_quiet h _) _).trans ?_
  simp [State.latch, State.after]

/-- STATUS_READ (R120). -/
theorem statusReadAct_quiet {s : State} (h : s.Quiet) :
    statusReadAct.run s =
      .ok () (({ s.after (statusDrives s.params) with csN := true, fsm := .idle } : State).emit
        (.resp (.status (s.lastHeard (statusDrives s.params))))) := by
  unfold statusReadAct
  refine run_bind (statusTxn_quiet h) ?_
  refine run_bind (setFsm_run _ _) ?_
  exact respond_quiet (by exact ⟨h.1, h.2⟩) _

/-- R127's end of the transaction. -/
theorem idEnd_quiet {s : State} (h : s.Quiet) (hc : s.csN = false) (n : Byte) :
    (idEnd n).run s =
      .ok () { s.after (if n = 0 then [.line (.cs true)] else []) with
        csN := decide (n = 0), fsm := if n = 0 then .idle else .armedStream } := by
  unfold idEnd
  by_cases hn : n = 0
  · simp only [hn, if_true]
    refine run_bind (csDeassert_quiet h) ?_
    simp
  · simp only [hn, if_false, setFsm_run, State.after_nil, decide_false, ← hc]

/-- Four transfers and what follows them. -/
theorem xfer4_quiet {s : State} (h : s.Quiet) (t : Byte) :
    ∃ m d0 d1 n : Byte, ∀ k : Byte → Byte → Byte → Byte → Act Unit,
      (do
        let m ← xfer t
        let d0 ← xfer t
        let d1 ← xfer t
        let n ← xfer t
        k m d0 d1 n : Act Unit).run s =
      (k m d0 d1 n).run (s.after (List.replicate 4 (.send t))) := by
  have hq : ∀ ds, (s.after ds).Quiet := fun _ => h
  refine ⟨s.lastHeard [.send t], (s.after [.send t]).lastHeard [.send t],
    (s.after [.send t, .send t]).lastHeard [.send t],
    (s.after [.send t, .send t, .send t]).lastHeard [.send t], fun k => ?_⟩
  rw [bind_ok (xfer_quiet h t), bind_ok (xfer_quiet (hq _) t), State.after_after,
    bind_ok (xfer_quiet (hq _) t), State.after_after, bind_ok (xfer_quiet (hq _) t),
    State.after_after]
  rfl

/-- ID_READ, in the four bytes it received (R127). -/
theorem idReadAct_quiet {s : State} (h : s.Quiet) :
    ∃ m d0 d1 n : Byte, idReadAct.run s =
      .ok () (({ s.after (frameDrives s.params [s.params.opcode .id] ++
            List.replicate 4 (.send s.params.fill) ++
            if n = 0 then [.line (.cs true)] else []) with
          csN := decide (n = 0), fsm := if n = 0 then .idle else .armedStream } : State).emit
        (.resp (.id m d0 d1 n))) := by
  obtain ⟨m, d0, d1, n, hread⟩ := xfer4_quiet (s := { s.after (frameDrives s.params
    [s.params.opcode .id]) with csN := false, fsm := framed s.fsm }) ⟨h.1, h.2⟩ s.params.fill
  refine ⟨m, d0, d1, n, run_bind (getParams_run _) (run_bind (frame_quiet h _) ?_)⟩
  refine (hread _).trans (run_bind (idEnd_quiet (by exact ⟨h.1, h.2⟩) rfl _) ?_)
  refine (respond_quiet (by exact ⟨h.1, h.2⟩) _).trans ?_
  simp [State.after, Env.play_append, -List.reduceReplicate]

/-- HARD_RESET (R196). -/
theorem hardResetAct_quiet {s : State} (h : s.Quiet) :
    (hardResetAct s.params).run s =
      .ok () (({ s.after [.line (.rst false), .line (.delayUs s.params.tResetHold),
          .line (.cs true), .line (.rst true), .line (.delayUs s.params.tResetRec),
          .line (.cs false)] with
        csN := false, resetN := true, fsm := .selectedBare } : State).emit (.resp .done)) := by
  have hlines : hardResetAct s.params = (do
      lineSeq [.rst false, .delayUs s.params.tResetHold, .cs true, .rst true,
        .delayUs s.params.tResetRec, .cs false]
      setFsm .selectedBare
      respond .done) := by
    simp only [lineSeq, bind_assoc, pure_bind]
    rfl
  rw [hlines]
  refine run_bind (lineSeq_quiet h _) (run_bind (setFsm_run _ _) ?_)
  refine (respond_quiet (by exact State.foldl_latch_quiet h _) _).trans ?_
  simp [State.latch, State.after]

/-! ### The environment after the synchroniser -/

/-- One turn of the loop on a busy byte, wherever FSM is (`pollOnce_busy` has it in BUSY_WAIT). -/
theorem pollOnce_busy_framed {s : State} (h : s.Quiet) (w : Waiter)
    (hr : ready (s.lastHeard (nextPollDrives s.params s.pollContinuous)) = false) :
    (pollOnce w).run s =
      .ok () { s.after (nextPollDrives s.params s.pollContinuous ++ gapDrives s.params) with
        csN := if s.pollContinuous then s.csN else true
        fsm := if s.pollContinuous then s.fsm else framed s.fsm
        pollCount := s.pollCount + 1, pending := some w } := by
  unfold pollOnce
  refine run_bind (get_run _) ?_
  cases hp : s.pollContinuous with
  | true =>
    simp only [hp, nextPollDrives, if_true] at hr ⊢
    unfold pollContinuous
    refine run_bind (getParams_run _) ?_
    refine run_bind (xfer_quiet h _) ?_
    refine run_bind (countPoll_run _) ?_
    simp only [hr, Bool.false_eq_true, if_false]
    refine (park_quiet (by exact ⟨h.1, h.2⟩) w).trans ?_
    simp [State.after, Env.play]
  | false =>
    simp only [hp, nextPollDrives, Bool.false_eq_true, if_false] at hr ⊢
    unfold pollReselect
    refine run_bind (statusTxn_quiet h) ?_
    refine run_bind (countPoll_run _) ?_
    simp only [hr, Bool.false_eq_true, if_false]
    refine (park_quiet (by exact ⟨h.1, h.2⟩) w).trans ?_
    simp [State.after, Env.play_append]

theorem pollOnce_env {s : State} (h : s.Quiet) (w : Waiter) :
    ∃ ds, EndOrGap s.params s.pollContinuous w ds ∧
      (settle (pollOnce w) s).env =
        (s.after (nextPollDrives s.params s.pollContinuous ++ ds)).env := by
  cases hr : ready (s.lastHeard (nextPollDrives s.params s.pollContinuous)) with
  | true =>
    exact ⟨_, .inl rfl, by rw [settle_ok (pollOnce_ready h w hr), ← List.append_assoc, State.emit_env]⟩
  | false => exact ⟨_, .inr rfl, by rw [settle_ok (pollOnce_busy_framed h w hr)]⟩

theorem waitReady_env {s : State} (h : s.Quiet) (w : Waiter) :
    ∃ ds, EndOrGap s.params s.pollContinuous w ds ∧
      (settle (waitReady w) s).env =
        (s.after (firstPollDrives s.params s.pollContinuous ++ ds)).env := by
  cases hr : ready (s.lastHeard (firstPollDrives s.params s.pollContinuous)) with
  | true =>
    exact ⟨_, .inl rfl, by rw [settle_ok (waitReady_ready h w hr), ← List.append_assoc, State.emit_env]⟩
  | false => exact ⟨_, .inr rfl, by rw [settle_ok (waitReady_busy h w hr)]⟩

theorem triggered_env {s : State} (h : s.Quiet) (bytes : List Byte) (w : Waiter) :
    ∃ ds, EndOrGap s.params s.pollContinuous w ds ∧
      (settle (triggered bytes w) s).env =
        (s.after (triggerDrives s.params bytes ++
          (firstPollDrives s.params s.pollContinuous ++ ds))).env := by
  cases hr : ready (s.lastHeard (triggerDrives s.params bytes ++
      firstPollDrives s.params s.pollContinuous)) with
  | true =>
    refine ⟨_, .inl rfl, ?_⟩
    rw [settle_ok (triggered_ready h bytes w hr), ← List.append_assoc, ← List.append_assoc,
      State.emit_env]
  | false =>
    refine ⟨_, .inr rfl, ?_⟩
    rw [settle_ok (triggered_busy h bytes w hr), ← List.append_assoc]

/-! ### What keeps the memories -/

/-- Drives that spare the memories, from a state whose chip they start at. -/
theorem Spares.hasChip {s t : State} {c : Chip} {P Q : Chip → Prop} {ds : List Drive}
    (h : Spares s.params P ds Q) (hc : s.HasChip c) (hp : P c) (ht : t.env = (s.after ds).env) :
    ∃ d, t.HasChip d ∧ c.Alike d := by
  obtain ⟨d, hd, hcd, -⟩ := h c hp
  refine ⟨d, ?_, hcd⟩
  rw [State.HasChip, ht, State.after_env, hc, hd]

/-- Settles O51: a poll drives a status transaction or one more byte of it (`spares_nextPoll`), and
then the end of the wait or the gap. -/
theorem pollsKeepMemory : Obligations.PollsKeepMemory := by
  intro s t c hq hl hc hpend hpoll h
  cases step_stepped h with
  | reset hr _ => simp [hq.2] at hr
  | accept _ _ _ hp => exact absurd hp hpend
  | wait _ hp => exact absurd hp hpend
  | poll w _ _ ht =>
    subst ht
    have hstart : c.Pollable s.params s.pollContinuous := hpoll
    obtain ⟨ds, hds, henv⟩ := pollOnce_env (s := { s with pending := none }) hq w
    obtain ⟨d, hd, hcd⟩ :=
      ((spares_nextPoll hl s.pollContinuous).append (hds.spares hl)).hasChip hc hstart henv
    exact ⟨d, hd, hcd.sameMemory⟩

/-- The frames of the stream-arming operations store nothing: that of a buffer write is its address. -/
theorem spares_armFrame {p : Params} (h : p.Legal) {i : Instr} (hi : armsStream i = true) :
    ∃ k, Spares p (Chip.Disarmed p) (frameDrives p (busFrame p i)) (Chip.Talks p k) := by
  cases i with
  | bufWrite buf offset => exact ⟨_, spares_address h (k := .bufWrite buf) rfl _ _ _⟩
  | bufRead buf offset => exact ⟨_, spares_frame h (k := .bufRead buf) (by simp) _⟩
  | pageRead page offset => exact ⟨_, spares_frame h (k := .pageRead) (by simp) _⟩
  | contReadLow page offset => exact ⟨_, spares_frame h (k := .contReadLow) (by simp) _⟩
  | contReadHigh page offset => exact ⟨_, spares_frame h (k := .contReadHigh) (by simp) _⟩
  | _ => cases hi

/-- ID_READ reads its bytes in an open transaction that triggers nothing. -/
theorem spares_idRead {p : Params} (h : p.Legal) (n : Byte) :
    Spares p (Chip.Disarmed p) (frameDrives p [p.opcode .id] ++ List.replicate 4 (.send p.fill) ++
      if n = 0 then [.line (.cs true)] else []) (Chip.Disarmed p) := by
  have hread : Spares p (Chip.Talks p .id) (List.replicate 4 (.send p.fill)) (Chip.Disarmed p) :=
    (spares_sends h (by simp) (List.replicate 4 p.fill)).weaken fun c hc => hc.disarmed h rfl
  refine ((spares_frame h (k := .id) (by simp) []).append hread).append ?_
  split
  · exact spares_lines p [.cs true]
  · exact .nil

/-- DEEP_POWER_DOWN and RESUME, whose commands trigger nothing. -/
theorem spares_power {p : Params} (h : p.Legal) {k : Command} (hk : ∀ buf, k ≠ .bufWrite buf)
    (ht : armsTrigger k = false) (n : Nat) :
    Spares p (Chip.Disarmed p)
      (frameDrives p [p.opcode k] ++ [.line (.cs true), .line (.delayUs n)]) (Chip.Disarmed p) :=
  ((spares_frame h hk []).weaken fun _ hc => hc.disarmed h ht).append
    (spares_lines p [.cs true, .delayUs n])

end Sys2Proof.Machine
end

section
/-! Triggered commands of the reference responder (R59, R62): what each stores in the array and the
buffers. -/

namespace Sys2Proof.Machine

/-! ### Addresses -/

/-- Three bytes as one number (R76). -/
theorem addr24_toNat (b0 b1 b2 : Byte) :
    addr24 b0 b1 b2 = b0.toNat * 65536 + b1.toNat * 256 + b2.toNat := by
  have h1 : b1.toNat <<< 8 < 2 ^ 16 := by
    rw [Nat.shiftLeft_eq]
    omega
  have h2 : b2.toNat < 2 ^ 8 := b2.isLt
  have hshift : b0.toNat <<< 16 + b1.toNat <<< 8 = (b0.toNat <<< 8 + b1.toNat) <<< 8 := by
    simp only [Nat.shiftLeft_eq]
    omega
  unfold addr24
  rw [← Nat.shiftLeft_add_eq_or_of_lt h1, hshift, ← Nat.shiftLeft_add_eq_or_of_lt h2]
  simp only [Nat.shiftLeft_eq]
  omega

/-- The three bytes of a page-and-offset address (R76). -/
theorem addr24_addrPO {page offset : Nat} (hp : page < 4096) (ho : offset < 1024) :
    addr24 (trunc8 (page >>> 6)) (trunc8 ((page <<< 2) ||| (offset >>> 8)))
      (trunc8 (offset &&& 0xFF)) = page * 1024 + offset := by
  have hmid : (page <<< 2) ||| (offset >>> 8) = page * 4 + offset / 256 := by
    have hlt : offset >>> 8 < 2 ^ 2 := by
      rw [Nat.shiftRight_eq_div_pow]
      omega
    rw [← Nat.shiftLeft_add_eq_or_of_lt hlt, Nat.shiftLeft_eq, Nat.shiftRight_eq_div_pow]
  have hlow : offset &&& 0xFF = offset % 256 := Nat.and_two_pow_sub_one_eq_mod offset 8
  rw [addr24_toNat, hmid, hlow, Nat.shiftRight_eq_div_pow]
  simp only [trunc8, BitVec.toNat_ofNat]
  omega

/-- The page a page-only address names (R78). -/
theorem pageField_addrP {page : Nat} (h : page < 4096) :
    pageField (addr24 (trunc8 (page >>> 6)) (trunc8 ((page <<< 2) ||| (0 >>> 8)))
      (trunc8 (0 &&& 0xFF))) = page := by
  rw [addr24_addrPO h (by decide), pageField, Nat.shiftRight_eq_div_pow]
  omega

/-- A block's address is that of its first page (R79). -/
theorem addrB_eq_addrP (block : Nat) : addrB block = addrP (8 * block) := by
  have h0 : (8 * block) >>> 6 = block >>> 3 := by
    simp only [Nat.shiftRight_eq_div_pow]
    omega
  have h1 : (8 * block) <<< 2 ||| 0 >>> 8 = block <<< 5 := by
    simp only [Nat.zero_shiftRight, Nat.or_zero, Nat.shiftLeft_eq]
    omega
  simp only [addrB, addrP, addrPO, h0, h1]
  rfl

/-- A sector address has three bytes, too (R80). -/
theorem addrS_eq (sector : Nat) : ∃ b0 b1 b2, addrS sector = [b0, b1, b2] := by
  unfold addrS
  split <;> exact ⟨_, _, _, rfl⟩

/-! ### The trigger -/

/-- The chip with the frame of an addressed command in CMD, before chip-select goes high (R60). -/
def Chip.withFrame (p : Params) (k : Command) (b0 b1 b2 : Byte) (c : Chip) : Chip :=
  { c with
    sel := true, cmd := [p.opcode k, b0, b1, b2]
    ptr := ⟨commandSpace k, pageField (addr24 b0 b1 b2), offsetField (addr24 b0 b1 b2)⟩ }

theorem Chip.withFrame_alike (p : Params) (k : Command) (b0 b1 b2 : Byte) (c : Chip) :
    c.Alike (c.withFrame p k b0 b1 b2) := ⟨rfl, rfl, rfl, rfl, rfl⟩

/-- The chip after the pulse that started its effect `d`: busy, a new transaction open (R59). -/
def Chip.started (c d : Chip) : Chip := Chip.opened { d with sel := false, busyLeft := c.latency }

theorem Chip.started_alike (c d : Chip) : d.Alike (c.started d) := ⟨rfl, rfl, rfl, rfl, rfl⟩

/-- Frame and pulse of `bytes` start the effect `d` on `c` (R59, R62). -/
structure Triggers (p : Params) (c : Chip) (bytes : List Byte) (d : Chip) : Prop where
  env : (Env.play p (triggerDrives p bytes) (.responder c)).env = .responder (c.started d)
  wf : c.wf → d.wf
  latency : d.latency = c.latency

theorem Chip.erasePages_latency (p : Params) (f : Nat → Nat) (l : List Nat) (c : Chip) :
    (l.foldl (fun c i => c.erasePage p (f i)) c).latency = c.latency := by
  induction l generalizing c with
  | nil => rfl
  | cons i l ih =>
    obtain ⟨-, -, -, -, -, hlat, -⟩ :=
      Chip.fillPage_rest c .main (f i) p.pageSize.bytes fun _ _ => 0xFF
    exact (ih _).trans hlat

theorem Chip.effect_latency {p : Params} {k : Command} {a24 : Nat} {c d : Chip}
    (h : c.effect p k a24 = some d) : d.latency = c.latency := by
  have hfill := fun sp page n f => (Chip.fillPage_rest c sp page n f).2.2.2.2.2.1
  cases k with
  | bufToPageE buf | bufToPageNE buf | pageToBuf buf | pageErase =>
    cases h
    exact hfill _ _ _ _
  | compare buf | sectorErase =>
    cases h
    rfl
  | blockErase =>
    cases h
    exact Chip.erasePages_latency _ _ _ _
  | _ => cases h

theorem triggers_of_effect {p : Params} (h : p.Legal) {c d : Chip} (hd : c.Disarmed p) {k : Command}
    (ha : addressed k = true) {b0 b1 b2 : Byte}
    (he : (c.withFrame p k b0 b1 b2).effect p k (addr24 b0 b1 b2) = some d) :
    Triggers p c [p.opcode k, b0, b1, b2] d where
  env := Env.play_trigger h hd ha he
  wf hc := Chip.effect_wf ((c.withFrame_alike p k b0 b1 b2).wf hc) he
  latency := (Chip.effect_latency he).trans rfl

/-- A page-only address reaches the effect as its page; the frame matters to it in nothing else. -/
theorem triggers_page {p : Params} (h : p.Legal) {c : Chip} (hd : c.Disarmed p) {k : Command}
    (ha : addressed k = true) {page : Nat} (hp : page < 4096) {R : Chip → Prop}
    (he : ∀ c' a24, c.Alike c' → pageField a24 = page → ∃ d, c'.effect p k a24 = some d ∧ R d) :
    ∃ d, Triggers p c (p.opcode k :: addrP page) d ∧ R d := by
  obtain ⟨d, hd', hr⟩ := he _ _ (c.withFrame_alike p k _ _ _) (pageField_addrP hp)
  exact ⟨d, triggers_of_effect h hd ha hd', hr⟩

theorem triggers_chipErase {p : Params} (h : p.Legal) {c : Chip} (hd : c.Disarmed p) :
    Triggers p c p.opChipErase { c with mem := [] } where
  env := Env.play_trigger_chipErase h hd
  wf hc := ⟨⟨List.Pairwise.nil, by simp⟩, hc.2⟩
  latency := rfl

/-! ### Triggered operations -/

/-- The operations of `triggerWaiter` run `triggered` (R160). -/
theorem exec_of_triggerWaiter {i : Instr} {w : Waiter} (hi : triggerWaiter i = some w) (s : State) :
    exec i s = accepted i (triggered (busFrame s.params i) w) s := by
  cases i <;> cases hi <;> rfl

/-- CHIP_ERASE does, too, where CFG permits it (R177). -/
theorem exec_chipErase_enabled {s : State} (hen : s.cfg.getLsbD 0 = true) :
    exec .chipErase s = accepted .chipErase (triggered (busFrame s.params .chipErase) .done) s := by
  have hact : chipEraseAct s = triggered (busFrame s.params .chipErase) .done :=
    if_pos (show s.chipEraseEn = true from hen)
  rw [← hact]
  rfl

/-- Drives after the trigger that spare the memories leave those of its effect. -/
theorem Triggers.after_hasChip {s : State} {c d : Chip} {bytes : List Byte} {Q : Chip → Prop}
    {ds : List Drive} (h : Triggers s.params c bytes d) (hc : s.HasChip c)
    (hds : Spares s.params (Chip.Disarmed s.params) ds Q) :
    ∃ e, (s.after (triggerDrives s.params bytes ++ ds)).HasChip e ∧ d.Alike e ∧ Q e := by
  obtain ⟨e, he, hal, hq⟩ := hds (c.started d) (Chip.opened_disarmed _ _)
  refine ⟨e, ?_, (c.started_alike d).trans hal, hq⟩
  rw [State.HasChip, State.after_env, hc, Env.play_append, h.env]
  exact he

/-- Whatever the polls of a triggered operation find, the memories are those of its effect. -/
theorem Triggers.hasChip {s t : State} {c d : Chip} {i : Instr} {w : Waiter}
    (h : Triggers s.params c (busFrame s.params i) d) (hq : s.Quiet) (hl : s.params.Legal)
    (hc : s.HasChip c) (hx : exec i s = accepted i (triggered (busFrame s.params i) w) s)
    (ht : exec i s = .next t) : ∃ e, t.HasChip e ∧ d.Alike e := by
  obtain ⟨-, rfl⟩ := accepted_eq_next.1 (hx ▸ ht)
  obtain ⟨ds, hds, henv⟩ := triggered_env hq (busFrame s.params i) w
  obtain ⟨e, he, hal, -⟩ :=
    h.after_hasChip hc ((spares_firstPoll hl s.pollContinuous).append (hds.spares hl))
  exact ⟨e, henv.trans he, hal⟩

/-! ### Operations that store nothing -/

/-- A triggered operation that stores nothing is COMPARE or SECTOR_ERASE. -/
theorem triggers_storesNothing {p : Params} (h : p.Legal) {c : Chip} (hd : c.Disarmed p) {i : Instr}
    {w : Waiter} (hi : triggerWaiter i = some w) (hs : storesNothing i = true) :
    ∃ d, Triggers p c (busFrame p i) d ∧ c.SameMemory d := by
  cases i with
  | compare page buf =>
    exact ⟨_, triggers_of_effect h hd (k := .compare buf) rfl rfl, fun _ _ _ => rfl⟩
  | sectorErase sector =>
    obtain ⟨b0, b1, b2, hb⟩ := addrS_eq sector.toNat
    simp only [busFrame, hb]
    exact ⟨_, triggers_of_effect h hd (k := .sectorErase) rfl rfl, fun _ _ _ => rfl⟩
  | bufToPageE | bufToPageNE | pageToBuf | pageErase | blockErase => cases hs
  | _ => cases hi

/-- Settles O52: by what each operation drives, and that a compare and a sector erase change no cell. -/
theorem nonStoringOperationsKeepMemory : Obligations.NonStoringOperationsKeepMemory := by
  intro s t c i hq hl hc hd hs h
  have of_spares : ∀ {Q : Chip → Prop} {ds : List Drive},
      Spares s.params (Chip.Disarmed s.params) ds Q → t.env = (s.after ds).env → ∃ e, t.HasChip e ∧ c.SameMemory e := fun hsp henv => by
    obtain ⟨e, he, hal⟩ := hsp.hasChip hc hd henv
    exact ⟨e, he, hal.sameMemory⟩
  obtain ⟨hm, m, r, rfl⟩ := exec_runs h
  cases r with
  | init cfg =>
    exact of_spares (spares_lines _ [.pins true, .cs true, .rst true, .wp true])
      (by rw [settle_ok (initAct_quiet hq cfg)]; rfl)
  | release | endStream =>
    exact of_spares (spares_lines _ [.cs true]) (by rw [settle_ok (deselect_quiet hq _)]; rfl)
  | streamXfer | chipErase => cases hs
  | statusRead =>
    exact of_spares (spares_status hl) (by rw [settle_ok (statusReadAct_quiet hq)]; rfl)
  | waitReady =>
    obtain ⟨ds, hds, henv⟩ := waitReady_env hq .done
    exact of_spares ((spares_firstPoll hl _).append (hds.spares hl)) henv
  | idRead =>
    obtain ⟨_, _, _, n, hrun⟩ := idReadAct_quiet hq
    exact of_spares (spares_idRead hl n) (by rw [settle_ok hrun]; rfl)
  | arm hi =>
    obtain ⟨k, hk⟩ := spares_armFrame hl hi
    exact of_spares hk (by rw [settle_ok (armStream_quiet hq _)]; rfl)
  | trigger hi =>
    obtain ⟨d, htr, hcd⟩ := triggers_storesNothing hl hd hi hs
    obtain ⟨e, he, hde⟩ := htr.hasChip hq hl hc (exec_of_triggerWaiter hi s) h
    exact ⟨e, he, hcd.trans hde.sameMemory⟩
  | deepPowerDown =>
    exact of_spares (spares_power hl (k := .deepPowerDown) (by simp) rfl _)
      (by rw [settle_ok (frameAndDelay_quiet hq _ _)]; rfl)
  | resume =>
    exact of_spares (spares_power hl (k := .resume) (by simp) rfl _)
      (by rw [settle_ok (frameAndDelay_quiet hq _ _)]; rfl)
  | hardReset =>
    exact of_spares
      (spares_lines _ [.rst false, .delayUs _, .cs true, .rst true, .delayUs _, .cs false])
      (by rw [settle_ok (hardResetAct_quiet hq)]; rfl)

end Sys2Proof.Machine
end

section
/-! What the transfers and the erases store in the reference responder (R62). -/

namespace Sys2Proof.Machine

/-! ### Filled and erased pages -/

/-- `d` is `c` with `g o` at every offset `o` below `n` of one page or buffer; every other byte at an
offset of 10 bits reads the same. -/
def Chip.Filled (c d : Chip) (sp : Space) (page n : Nat) (g : Nat → Byte) : Prop :=
  ∀ sp' page' o, o < 1024 → d.read sp' page' o =
    if sp' = sp ∧ (sp = .main → page' = page) ∧ o < n then g o else c.read sp' page' o

theorem pageSize_le (z : PageSize) : z.bytes ≤ 1024 := by cases z <;> decide

/-- A page filled in rising order with bytes that depend on cells not yet written. -/
theorem Chip.filled_fillPage {c c' : Chip} (hs : c.Alike c') (hc : c.wf) (sp : Space) (page : Nat)
    {n : Nat} (hn : n ≤ 1024) {f : Chip → Nat → Byte} {g : Nat → Byte}
    (hf : ∀ d k, k < 1024 →
      (∀ sp' page' o, o < 1024 → ¬ (sp' = sp ∧ o < k) → d.read sp' page' o = c.read sp' page' o) →
      f d k = g k) : c.Filled (c'.fillPage sp page n f) sp page n g := by
  have hg : ∀ k < n, f (c'.fillPage sp page k f) k = g k := by
    intro k
    induction k using Nat.strong_induction_on with
    | _ k ih =>
      intro hk
      refine hf _ k (by omega) fun sp' page' o ho hne => ?_
      rw [Chip.read_fillPage c' (hs.wf hc) sp page k f g (by omega)
        (fun j hj => ih j hj (by omega)) sp' page' o ho, if_neg (fun h => hne ⟨h.1, h.2.2⟩)]
      exact hs.sameMemory sp' page' o
  intro sp' page' o ho
  rw [Chip.read_fillPage c' (hs.wf hc) sp page n f g hn hg sp' page' o ho, hs.sameMemory]

theorem Chip.Filled.alike {c d e : Chip} {sp : Space} {page n : Nat} {g : Nat → Byte}
    (h : c.Filled d sp page n g) (hs : d.Alike e) : c.Filled e sp page n g :=
  fun sp' page' o ho => (hs.sameMemory sp' page' o).trans (h sp' page' o ho)

/-- `d` is `c` with `n` pages from `first` on erased; every other byte at an offset of 10 bits reads the
same. -/
def Chip.Erased (p : Params) (c d : Chip) (first n : Nat) : Prop :=
  ∀ sp page o, o < 1024 → d.read sp page o =
    if sp = .main ∧ (first ≤ page ∧ page < first + n) ∧ o < p.pageSize.bytes then 0xFF
    else c.read sp page o

theorem Chip.filled_erasePage (p : Params) {c : Chip} (hc : c.wf) (page : Nat) :
    c.Filled (c.erasePage p page) .main page p.pageSize.bytes fun _ => 0xFF :=
  Chip.filled_fillPage (.refl c) hc .main page (pageSize_le _) fun _ _ _ _ => rfl

/-- Pages erased one after another. -/
theorem Chip.erased_pages (p : Params) {c c' : Chip} (hs : c.Alike c') (hc : c.wf) (first n : Nat) :
    Chip.Erased p c ((List.range n).foldl (fun c i => c.erasePage p (first + i)) c') first n := by
  induction n with
  | zero =>
    intro sp page o _
    simp [hs.sameMemory sp page o]
  | succ n ih =>
    intro sp page o ho
    have hwf := Chip.erasePages_wf p (fun i => first + i) (List.range n) c' (hs.wf hc)
    rw [List.range_succ, List.foldl_append, List.foldl_cons, List.foldl_nil,
      Chip.filled_erasePage p hwf (first + n) sp page o ho, ih sp page o ho]
    by_cases hlast : page = first + n
    · simp [hlast]
    · have hiff : (first ≤ page ∧ page < first + (n + 1)) ↔ (first ≤ page ∧ page < first + n) := by
        omega
      simp [hlast, hiff]

theorem Chip.Erased.alike {p : Params} {c d e : Chip} {first n : Nat} (h : Chip.Erased p c d first n)
    (hs : d.Alike e) : Chip.Erased p c e first n :=
  fun sp page o ho => (hs.sameMemory sp page o).trans (h sp page o ho)

/-! ### The transfers -/

section
variable {p : Params} (h : p.Legal) {c : Chip} (hc : c.wf) (hd : c.Disarmed p) (buf : Buffer)
  {page : Half} (hp : page.toNat ≤ 4095)
include h hc hd hp

/-- BUF_TO_PAGE_E (R161, R62). -/
theorem triggers_bufToPageE : ∃ d, Triggers p c (busFrame p (.bufToPageE buf page)) d ∧
    c.Filled d .main page.toNat p.pageSize.bytes fun o => c.read (.buffer buf) 0 o := by
  refine triggers_page h hd (k := .bufToPageE buf) rfl (by omega) fun c' a24 hs ha =>
    ⟨_, rfl, ha ▸ Chip.filled_fillPage hs hc _ _ (pageSize_le _) fun d k hk hsame => ?_⟩
  exact hsame _ _ _ hk (by simp)

/-- BUF_TO_PAGE_NE (R163, R62). -/
theorem triggers_bufToPageNE : ∃ d, Triggers p c (busFrame p (.bufToPageNE buf page)) d ∧
    c.Filled d .main page.toNat p.pageSize.bytes fun o =>
      c.read .main page.toNat o &&& c.read (.buffer buf) 0 o := by
  refine triggers_page h hd (k := .bufToPageNE buf) rfl (by omega) fun c' a24 hs ha =>
    ⟨_, rfl, ha ▸ Chip.filled_fillPage hs hc _ _ (pageSize_le _) fun d k hk hsame => ?_⟩
  rw [hsame .main _ _ hk (by simp), hsame (.buffer buf) _ _ hk (by simp)]

/-- PAGE_TO_BUF (R165, R62). -/
theorem triggers_pageToBuf : ∃ d, Triggers p c (busFrame p (.pageToBuf page buf)) d ∧
    c.Filled d (.buffer buf) 0 p.pageSize.bytes fun o => c.read .main page.toNat o := by
  refine triggers_page h hd (k := .pageToBuf buf) rfl (by omega) fun c' a24 hs ha =>
    ⟨_, rfl, Chip.filled_fillPage hs hc _ _ (pageSize_le _) fun d k hk hsame => ?_⟩
  rw [ha]
  exact hsame _ _ _ hk (by simp)

/-- PAGE_ERASE (R172, R62). -/
theorem triggers_pageErase : ∃ d, Triggers p c (busFrame p (.pageErase page)) d ∧
    c.Filled d .main page.toNat p.pageSize.bytes fun _ => 0xFF :=
  triggers_page h hd (k := .pageErase) rfl (by omega) fun c' a24 hs ha =>
    ⟨_, rfl, ha ▸ Chip.filled_fillPage hs hc _ _ (pageSize_le _) fun _ _ _ _ => rfl⟩

end

/-- BLOCK_ERASE (R174, R62). -/
theorem triggers_blockErase {p : Params} (h : p.Legal) {c : Chip} (hc : c.wf) (hd : c.Disarmed p)
    {block : Half} (hb : block.toNat < 512) :
    ∃ d, Triggers p c (busFrame p (.blockErase block)) d ∧ Chip.Erased p c d (8 * block.toNat) 8 := by
  have hframe : busFrame p (.blockErase block) = p.opcode .blockErase :: addrP (8 * block.toNat) := by
    rw [busFrame, addrB_eq_addrP]
  rw [hframe]
  refine triggers_page h hd (k := .blockErase) rfl (by omega) fun c' a24 hs ha => ⟨_, rfl, ?_⟩
  have hfirst : firstPageOfBlock (blockOfPage (pageField a24)) = 8 * block.toNat := by
    rw [ha, firstPageOfBlock, blockOfPage, pagesPerBlock, Nat.shiftRight_eq_div_pow]
    omega
  simp only [hfirst]
  exact Chip.erased_pages p hs hc _ 8

/-- Settles O53: each transfer fills its page or buffer with bytes of cells it has not yet written. -/
theorem transfersStoreOnePage : Obligations.TransfersStoreOnePage := by
  intro s t c buf page hq hl hc hwf hd hp
  refine ⟨fun h => ?_, fun h => ?_, fun h => ?_⟩
  · obtain ⟨d, htr, hfill⟩ := triggers_bufToPageE hl hwf hd buf hp
    obtain ⟨e, he, hal⟩ := htr.hasChip hq hl hc (exec_of_triggerWaiter rfl s) h
    refine ⟨e, he, fun sp pg o ho => ?_⟩
    simpa using hfill.alike hal sp pg o ho
  · obtain ⟨d, htr, hfill⟩ := triggers_bufToPageNE hl hwf hd buf hp
    obtain ⟨e, he, hal⟩ := htr.hasChip hq hl hc (exec_of_triggerWaiter rfl s) h
    refine ⟨e, he, fun sp pg o ho => (hfill.alike hal sp pg o ho).trans ?_⟩
    by_cases hpg : pg = page.toNat <;> simp [hpg]
  · obtain ⟨d, htr, hfill⟩ := triggers_pageToBuf hl hwf hd buf hp
    obtain ⟨e, he, hal⟩ := htr.hasChip hq hl hc (exec_of_triggerWaiter rfl s) h
    refine ⟨e, he, fun sp pg o ho => ?_⟩
    simpa using hfill.alike hal sp pg o ho

/-- Settles O54: a page filled with 0xFF, the eight pages of a block one after another, and the array
emptied. -/
theorem erasesStoreBlankBytes : Obligations.ErasesStoreBlankBytes := by
  intro s t c unit hq hl hc hwf hd
  refine ⟨fun h => ?_, fun h => ?_, fun hen h => ?_⟩
  · have hu : unit.toNat ≤ 4095 := by
      obtain ⟨-, -, hw⟩ := misuse_none.1 (exec_runs h).1
      exact Nat.le_of_lt_succ (of_decide_eq_true hw)
    obtain ⟨d, htr, hfill⟩ := triggers_pageErase hl hwf hd hu
    obtain ⟨e, he, hal⟩ := htr.hasChip hq hl hc (exec_of_triggerWaiter rfl s) h
    refine ⟨e, he, fun sp pg o ho => ?_⟩
    simpa using hfill.alike hal sp pg o ho
  · have hu : unit.toNat < 512 := by
      obtain ⟨-, -, hw⟩ := misuse_none.1 (exec_runs h).1
      exact of_decide_eq_true hw
    obtain ⟨d, htr, herase⟩ := triggers_blockErase hl hwf hd hu
    obtain ⟨e, he, hal⟩ := htr.hasChip hq hl hc (exec_of_triggerWaiter rfl s) h
    refine ⟨e, he, fun sp pg o ho => (herase.alike hal sp pg o ho).trans ?_⟩
    have hblock : (8 * unit.toNat ≤ pg ∧ pg < 8 * unit.toNat + 8) ↔ pg / 8 = unit.toNat := by omega
    simp only [hblock]
  · obtain ⟨e, he, hal⟩ :=
      (triggers_chipErase hl hd).hasChip hq hl hc (exec_chipErase_enabled hen) h
    refine ⟨e, he, fun sp pg o => (hal.sameMemory sp pg o).trans ?_⟩
    cases sp with
    | main => rfl
    | buffer b => cases b <;> rfl

end Sys2Proof.Machine
end

section
/-! Waits on the reference responder (R61): how many polls a triggered operation takes, and what COMPARE
and a round trip through a page give when there is no wait. -/

namespace Sys2Proof.Machine

/-! ### One poll -/

/-- The chip as a later poll of a wait finds it: in CONTINUOUS mode it is selected, too. -/
def Chip.Listening (p : Params) (cont : Bool) (c : Chip) : Prop :=
  c.Pollable p cont ∧ (cont = true → c.sel = true)

/-- The drives of a poll read the chip's status byte, take one busy answer off it and leave it ready for
the next poll (R61). -/
structure Polled (p : Params) (cont : Bool) (ds : List Drive) (c c' : Chip) : Prop where
  env : (Env.play p ds (.responder c)).env = .responder c'
  heard : (Env.play p ds (.responder c)).rx.getLastD 0 = c.status
  busyLeft : c'.busyLeft = c.busyLeft - 1
  listening : c'.Listening p cont

theorem polled_status {p : Params} (h : p.Legal) {c : Chip} (hd : c.Disarmed p) :
    ∃ c', Polled p false (statusDrives p) c c' := by
  obtain ⟨henv, hrx⟩ := Env.play_status h hd
  exact ⟨_, henv, by rw [hrx]; rfl, rfl, Chip.unselected_disarmed rfl, by simp⟩

theorem polled_nextPoll {p : Params} (h : p.Legal) {cont : Bool} {c : Chip}
    (hl : c.Listening p cont) : ∃ c', Polled p cont (nextPollDrives p cont) c c' := by
  cases cont with
  | true =>
    obtain ⟨⟨rest, hcmd⟩, hsel⟩ := hl
    have hs := hsel rfl
    have hx := Chip.xfer_status h hs hcmd p.fill
    refine ⟨{ c with busyLeft := c.busyLeft - 1, cmd := p.opStatus :: (rest ++ [p.fill]) }, ?_, ?_,
      rfl, ⟨rest ++ [p.fill], rfl⟩, hsel⟩
    · simp [nextPollDrives, Env.play_send, Env.play, hx]
    · simp [nextPollDrives, Env.play_send, Env.play, hx]
  | false => exact polled_status h hl.1

theorem polled_firstPoll {p : Params} (h : p.Legal) (cont : Bool) {c : Chip} (hd : c.Disarmed p) :
    ∃ c', Polled p cont (firstPollDrives p cont) c c' := by
  cases cont with
  | true =>
    have hopen := Env.play_frame hd [p.opStatus]
    have hlisten : (c.opened.sent p [p.opStatus]).Listening p true := by
      rw [Chip.sent, Chip.xfer_first rfl rfl]
      exact ⟨⟨[], rfl⟩, fun _ => rfl⟩
    obtain ⟨c', henv, hheard, hbusy, hl⟩ := polled_nextPoll h hlisten
    have hstatus : (c.opened.sent p [p.opStatus]).status = c.status ∧
        (c.opened.sent p [p.opStatus]).busyLeft = c.busyLeft := by
      rw [Chip.sent, Chip.xfer_first rfl rfl]
      exact ⟨rfl, rfl⟩
    refine ⟨c', ?_, ?_, hstatus.2 ▸ hbusy, hl⟩
    · rw [firstPollDrives_eq, Env.play_append]
      simp only [openDrives, if_true, hopen, henv]
    · rw [firstPollDrives_eq, Env.play_append]
      simp only [openDrives, if_true, hopen]
      rw [← hstatus.1, ← hheard]
      simp [nextPollDrives, Env.play]
  | false => exact polled_status h hd

theorem Env.play_gap (p : Params) (c : Chip) :
    (Env.play p (gapDrives p) (.responder c)).env = .responder c := by
  unfold gapDrives
  split <;> rfl

section
variable {s : State} {c c' : Chip} {cont : Bool} {ds : List Drive}
  (h : Polled s.params cont ds c c') (hc : s.HasChip c)
include h hc

theorem Polled.lastHeard : s.lastHeard ds = c.status := by
  rw [State.lastHeard, State.heard, hc, h.heard]

/-- Whether the block hears a ready byte (R61, R122). -/
theorem Polled.ready : Machine.ready (s.lastHeard ds) = decide (c.busyLeft = 0) := by
  rw [h.lastHeard hc, Chip.ready_status]

end

/-- The gap after a busy byte leaves the chip as the poll did. -/
theorem Polled.env_gap {p : Params} {cont : Bool} {ds : List Drive} {c c' : Chip}
    (h : Polled p cont ds c c') :
    (Env.play p (ds ++ gapDrives p) (.responder c)).env = .responder c' := by
  rw [Env.play_append, h.env]
  exact Env.play_gap p c'

/-! ### Later polls -/

/-- The operation is in progress and the chip has `n` busy answers left. -/
structure Waits (w : Waiter) (n : Nat) (s : State) : Prop where
  quiet : s.Quiet
  legal : s.params.Legal
  pending : s.pending = some w
  fsm : s.fsm = .busyWait
  chip : ∃ c, s.HasChip c ∧ c.busyLeft = n ∧ c.Listening s.params s.pollContinuous

theorem step_of_pending {s : State} {w : Waiter} (hr : s.resets = []) (hp : s.pending = some w) :
    step s = .next (resumeWait w s) := by
  unfold step
  rw [nextAction_poll (by simp [hr]) hp]

/-- A poll that hears a busy byte. -/
theorem Waits.step_busy {w : Waiter} {n : Nat} {s : State} (h : Waits w (n + 1) s) :
    ∃ t, step s = .next t ∧ Waits w n t ∧ t.pollCount = s.pollCount + 1 := by
  obtain ⟨hq, hl, hp, hf, c, hc, hn, hlisten⟩ := h
  obtain ⟨c', hpoll⟩ := polled_nextPoll hl hlisten
  have hbusy := hpoll.ready (s := { s with pending := none }) hc
  rw [hn] at hbusy
  have hrun := pollOnce_busy (s := { s with pending := none }) hq hf w hbusy
  rw [step_of_pending hq.2 hp, resumeWait, settle_ok hrun]
  refine ⟨_, rfl, ⟨hq, hl, rfl, hf, c', ?_, ?_, hpoll.listening⟩, rfl⟩
  · simp only [State.HasChip, State.after, hc]
    exact hpoll.env_gap
  · rw [hpoll.busyLeft, hn]
    rfl

/-- What the end of an operation that ran the synchroniser leaves. -/
def State.Over (s : State) (polls : Nat) : Prop :=
  s.pending = none ∧ s.fsm = .idle ∧ s.csN = true ∧ s.pollCount = polls

/-- A poll that hears a ready byte. -/
theorem Waits.step_ready {w : Waiter} {s : State} (h : Waits w 0 s) :
    ∃ t, step s = .next t ∧ t.Over (s.pollCount + 1) := by
  obtain ⟨hq, hl, hp, -, c, hc, hn, hlisten⟩ := h
  obtain ⟨c', hpoll⟩ := polled_nextPoll hl hlisten
  have hready := hpoll.ready (s := { s with pending := none }) hc
  rw [hn] at hready
  have hrun := pollOnce_ready (s := { s with pending := none }) hq w hready
  rw [step_of_pending hq.2 hp, resumeWait, settle_ok hrun]
  exact ⟨_, rfl, rfl, rfl, rfl, rfl⟩

theorem run_succ {s t : State} (h : step s = .next t) (k : Nat) :
    Sys2Proof.core.run (k + 1) s = Sys2Proof.core.run k t := by
  have hcore : Sys2Proof.core.step s = .next t := h
  simp [Host.Core.run, hcore]

/-- As many polls as there are busy answers. -/
theorem Waits.run {w : Waiter} {n k : Nat} {s : State} (h : Waits w (n + k) s) :
    ∃ t, Sys2Proof.core.run k s = .next t ∧ Waits w n t ∧ t.pollCount = s.pollCount + k := by
  induction k generalizing s with
  | zero => exact ⟨s, rfl, h, rfl⟩
  | succ k ih =>
    obtain ⟨u, hu, hwait, hcount⟩ := h.step_busy
    obtain ⟨t, ht, hwait', hcount'⟩ := ih hwait
    exact ⟨t, (run_succ hu k).trans ht, hwait', by omega⟩

/-- One poll more than there are busy answers ends the operation. -/
theorem Waits.run_over {w : Waiter} {n : Nat} {s : State} (h : Waits w n s) :
    ∃ t, Sys2Proof.core.run (n + 1) s = .next t ∧ t.Over (s.pollCount + n + 1) := by
  induction n generalizing s with
  | zero =>
    obtain ⟨t, ht, hover⟩ := h.step_ready
    exact ⟨t, run_succ ht 0, hover⟩
  | succ n ih =>
    obtain ⟨u, hu, hwait, hcount⟩ := h.step_busy
    obtain ⟨t, ht, hover⟩ := ih hwait
    refine ⟨t, (run_succ hu _).trans ht, ?_⟩
    have hpolls : s.pollCount + (n + 1) + 1 = u.pollCount + n + 1 := by omega
    rwa [hpolls]

/-! ### The first poll of a triggered operation -/

theorem legalFrom_of_usesSynchroniser {i : Instr} (hi : usesSynchroniser i = true) (f : Fsm)
    (hf : f = .idle ∨ f = .selectedBare) : legalFrom i f = true := by
  have hready : f.commandReady = true := Fsm.commandReady_iff.2 hf
  cases i with
  | waitReady | bufToPageE | bufToPageNE | pageToBuf | compare | pageErase | blockErase | sectorErase
  | chipErase => exact hready
  | _ => cases hi

/-- The state a triggered operation leaves when its first status byte is ready (`triggered_ready`). -/
def State.triggerEnd (s : State) (bytes : List Byte) (w : Waiter) : State :=
  ({ s.after (triggerDrives s.params bytes ++ firstPollDrives s.params s.pollContinuous ++
      closeDrives s.pollContinuous ++ afterDrives s.params w) with
    fsm := .idle, csN := true, pollCount := 1 } : State).emit
      (.resp (waiterResponse w (s.after (triggerDrives s.params bytes ++
        firstPollDrives s.params s.pollContinuous ++ closeDrives s.pollContinuous))))

section
variable {s : State} {c d : Chip} {i : Instr} {w : Waiter}
  (h : Triggers s.params c (busFrame s.params i) d) (hq : s.Quiet) (hl : s.params.Legal)
  (hs : s.CommandReady) (hc : s.HasChip c) (hi : usesSynchroniser i = true)
  (hw : i.wellFormed s.params = true)
  (hx : exec i s = accepted i (triggered (busFrame s.params i) w) s)

include h hl hc in
/-- The first status byte is ready exactly when the chip has latency 0. -/
theorem Triggers.ready :
    Machine.ready (s.lastHeard (triggerDrives s.params (busFrame s.params i) ++
      firstPollDrives s.params s.pollContinuous)) = decide (c.latency = 0) := by
  obtain ⟨c', hpoll⟩ := polled_firstPoll hl s.pollContinuous (c := c.started d)
    (Chip.opened_disarmed _ _)
  rw [State.lastHeard_append s _ _ (State.heard_firstPoll _ s.params _ rfl)]
  exact hpoll.ready (s := s.after _) (by rw [State.HasChip, State.after_env, hc, h.env])

include h hq hl hs hc hi hw hx

/-- With latency 0 a triggered operation is over at once. -/
theorem Triggers.exec_ready (hlat : c.latency = 0) :
    exec i s = .next (s.triggerEnd (busFrame s.params i) w) := by
  have hr := h.ready hl hc
  rw [hlat] at hr
  rw [hx]
  exact accepted_ok (misuse_command hs (legalFrom_of_usesSynchroniser hi) hw)
    (triggered_ready hq _ w hr)

/-- With any other latency it waits, one busy answer fewer left. -/
theorem Triggers.exec_busy {n : Nat} (hlat : c.latency = n + 1) :
    ∃ t, exec i s = .next t ∧ Waits w n t ∧ t.pollCount = 1 := by
  have hr := h.ready hl hc
  rw [hlat] at hr
  rw [hx, accepted_ok (misuse_command hs (legalFrom_of_usesSynchroniser hi) hw)
    (triggered_busy hq _ w hr)]
  obtain ⟨c', hpoll⟩ := polled_firstPoll hl s.pollContinuous (c := c.started d)
    (Chip.opened_disarmed _ _)
  refine ⟨_, rfl, ⟨hq, hl, rfl, rfl, c', ?_, ?_, hpoll.listening⟩, rfl⟩
  · simp only [State.HasChip, State.after, hc, List.append_assoc,
      Env.play_append _ (triggerDrives _ _), h.env]
    exact hpoll.env_gap
  · rw [hpoll.busyLeft]
    exact Nat.sub_eq_of_eq_add hlat

end

/-- Every operation that runs `triggered` has an effect on the chip (R160, R62). -/
theorem exists_triggers {p : Params} (h : p.Legal) {c : Chip} (hd : c.Disarmed p) {i : Instr}
    (hi : usesSynchroniser i = true) (hne : i ≠ .waitReady) : ∃ d, Triggers p c (busFrame p i) d := by
  cases i with
  | bufToPageE buf page => exact ⟨_, triggers_of_effect h hd (k := .bufToPageE buf) rfl rfl⟩
  | bufToPageNE buf page => exact ⟨_, triggers_of_effect h hd (k := .bufToPageNE buf) rfl rfl⟩
  | pageToBuf page buf => exact ⟨_, triggers_of_effect h hd (k := .pageToBuf buf) rfl rfl⟩
  | compare page buf => exact ⟨_, triggers_of_effect h hd (k := .compare buf) rfl rfl⟩
  | pageErase page => exact ⟨_, triggers_of_effect h hd (k := .pageErase) rfl rfl⟩
  | blockErase block => exact ⟨_, triggers_of_effect h hd (k := .blockErase) rfl rfl⟩
  | sectorErase sector =>
    obtain ⟨b0, b1, b2, hb⟩ := addrS_eq sector.toNat
    simp only [busFrame, hb]
    exact ⟨_, triggers_of_effect h hd (k := .sectorErase) rfl rfl⟩
  | chipErase => exact ⟨_, triggers_chipErase h hd⟩
  | waitReady => exact absurd rfl hne
  | _ => cases hi

theorem exec_triggered {s : State} {i : Instr} (hi : usesSynchroniser i = true) (hne : i ≠ .waitReady)
    (hen : i = .chipErase → s.cfg.getLsbD 0 = true) :
    ∃ w, exec i s = accepted i (triggered (busFrame s.params i) w) s := by
  cases i with
  | bufToPageE | bufToPageNE | pageToBuf | compare | pageErase | blockErase | sectorErase =>
    exact ⟨_, exec_of_triggerWaiter rfl s⟩
  | chipErase => exact ⟨_, exec_chipErase_enabled (hen rfl)⟩
  | waitReady => exact absurd rfl hne
  | _ => cases hi

/-- Settles O56: the chip answers busy as often as its latency says (`Triggers.exec_busy`, `Waits.run`),
and the poll after that ends the operation. -/
theorem triggeredOperationEndsAfterLatency : Obligations.TriggeredOperationEndsAfterLatency := by
  intro s c i hq hl hs hc hd hw hi hne hen
  obtain ⟨w, hx⟩ := exec_triggered (s := s) hi hne hen
  obtain ⟨d, htr⟩ := exists_triggers hl hd hi hne
  cases hlat : c.latency with
  | zero =>
    have hexec := htr.exec_ready hq hl hs hc hi hw hx hlat
    rw [hexec]
    exact ⟨_, rfl, hs.1, rfl, rfl, rfl, fun n u hn => absurd hn (Nat.not_lt_zero n)⟩
  | succ m =>
    obtain ⟨u, hu, hwait, hcount⟩ := htr.exec_busy hq hl hs hc hi hw hx hlat
    obtain ⟨t, ht, hp, hf, hcs, hpolls⟩ := hwait.run_over
    rw [hu]
    refine ⟨t, ht, hp, hf, hcs, by omega, fun n v hn hv => ?_⟩
    obtain ⟨k, rfl⟩ := Nat.exists_eq_add_of_le' (Nat.le_of_lt_succ hn)
    obtain ⟨v', hv', hwait', -⟩ := hwait.run
    rw [runAfter, hv'] at hv
    cases hv
    simp [hwait'.pending]

/-! ### Latency 0 -/

theorem Chip.pageMatches_iff (p : Params) (c : Chip) (page : Nat) (buf : Buffer) :
    c.pageMatches p page buf = true ↔
      ∀ o < p.pageSize.bytes, c.read .main page o = c.read (.buffer buf) 0 o := by
  simp [Chip.pageMatches]

/-- COMPARE (R170, R62). -/
theorem triggers_compare {p : Params} (h : p.Legal) {c : Chip} (hd : c.Disarmed p) (buf : Buffer)
    {page : Half} (hp : page.toNat ≤ 4095) :
    ∃ d, Triggers p c (busFrame p (.compare page buf)) d ∧
      (d.comp = false ↔
        ∀ o < p.pageSize.bytes, c.read .main page.toNat o = c.read (.buffer buf) 0 o) := by
  refine triggers_page h hd (k := .compare buf) rfl (by omega) fun c' a24 hs ha => ⟨_, rfl, ?_⟩
  have hiff := Chip.pageMatches_iff p c' (pageField a24) buf
  simp only [hs.sameMemory _ _ _, ha] at hiff
  simp [← hiff, ha]

/-- Settles O55: the extra status byte of COMPARE shows COMP as the compare left it. -/
theorem compareComparesThePage : Obligations.CompareComparesThePage := by
  intro s c page buf hq hl hs hc hd hlat hp
  obtain ⟨d, htr, hcomp⟩ := triggers_compare hl hd buf hp
  have hw : (Instr.compare page buf).wellFormed s.params = true := by
    exact decide_eq_true (Nat.lt_succ_of_le hp)
  have hexec := htr.exec_ready hq hl hs hc rfl hw (exec_of_triggerWaiter rfl s) hlat
  obtain ⟨e, he, hal, hdis⟩ := htr.after_hasChip hc
    ((spares_firstPoll hl s.pollContinuous).append (spares_close s.params s.pollContinuous))
  obtain ⟨e', hpoll⟩ := polled_status hl hdis
  refine ⟨_, _, _, hexec, hs.1, rfl, ?_⟩
  rw [← hcomp, List.append_assoc, State.after_params, Polled.lastHeard (s := s.after _) hpoll he,
    Chip.compareMatch_status, hal.comp, Bool.not_eq_true']

/-- A triggered operation that is over at once leaves a chip with the memories of its effect, which
triggers nothing. -/
theorem Triggers.triggerEnd_hasChip {s : State} {c d : Chip} {bytes : List Byte}
    (h : Triggers s.params c bytes d) (hl : s.params.Legal) (hc : s.HasChip c) (w : Waiter) :
    ∃ e, (s.triggerEnd bytes w).HasChip e ∧ d.Alike e ∧ e.Disarmed s.params := by
  have hpolls := (spares_firstPoll hl s.pollContinuous).append
    ((spares_close s.params s.pollContinuous).append (spares_after hl w))
  obtain ⟨e, he, hal, hdis⟩ := h.after_hasChip hc hpolls
  refine ⟨e, ?_, hal, hdis⟩
  rw [← List.append_assoc, ← List.append_assoc] at he
  exact he

/-- Settles O57: the first operation ends in a state that accepts the second, and its chip holds the
buffer's bytes in the page. -/
theorem pageRoundTripKeepsBytes : Obligations.PageRoundTripKeepsBytes := by
  intro s c page buf buf' hq hl hs hc hwf hd hlat hp
  have hw : pageInRange page = true := decide_eq_true (Nat.lt_succ_of_le hp)
  obtain ⟨d, htr, hfill⟩ := triggers_bufToPageE hl hwf hd buf hp
  have hexec := htr.exec_ready hq hl hs hc rfl hw (exec_of_triggerWaiter rfl s) hlat
  obtain ⟨e, he, hal, hdis⟩ := htr.triggerEnd_hasChip hl hc .done
  obtain ⟨d', htr', hfill'⟩ := triggers_pageToBuf hl (hal.wf (htr.wf hwf)) hdis buf' hp
  have hexec' := Triggers.exec_ready (s := s.triggerEnd _ .done) htr' hq hl
    ⟨hs.1, hs.2.1, .inl rfl⟩ he rfl hw (exec_of_triggerWaiter rfl _) (hal.latency.trans (htr.latency.trans hlat))
  obtain ⟨e', he', hal', -⟩ :=
    Triggers.triggerEnd_hasChip (s := s.triggerEnd _ .done) htr' hl he .done
  refine ⟨_, _, e', hexec, hexec', he', rfl, fun o ho => ?_⟩
  have hlt : o < 1024 := Nat.lt_of_lt_of_le ho (pageSize_le _)
  calc e'.read (.buffer buf') 0 o
      = e.read .main page.toNat o := by simpa [ho] using hfill'.alike hal' (.buffer buf') 0 o hlt
    _ = c.read (.buffer buf) 0 o := by simpa [ho] using hfill.alike hal .main page.toNat o hlt

end Sys2Proof.Machine
end

section
/-! The host port (R87, R88, R93): what a decoded operation keeps of its request. -/

namespace Sys2Proof.Machine

/-- OPSEL values from 0x17 on are reserved (R87). -/
theorem decodeRequest_of_reserved {r : Request} (h : 0x17 ≤ r.opsel.toNat) :
    decodeRequest r = .reserved r.opsel := by
  unfold decodeRequest
  split
  case h_24 => rfl
  all_goals omega

theorem reserved_of_decodeRequest {r : Request} {o : BitVec 5} (h : decodeRequest r = .reserved o) :
    0x17 ≤ r.opsel.toNat := by
  unfold decodeRequest at h
  split at h
  case h_24 =>
    simp only [imp_false] at *
    omega
  all_goals cases h

/-- The OPSEL of the decoded operation is that of the request (R88). -/
theorem encodeRequest_decodeRequest_opsel (r : Request) :
    (encodeRequest (decodeRequest r)).opsel = r.opsel := by
  unfold decodeRequest
  split
  case h_24 => rfl
  all_goals exact BitVec.eq_of_toNat_eq (by symm; assumption)

/-- Operand ranges play no part in decoding the request of an operation; the reserved range does. -/
theorem decodeRequest_encodeRequest {i : Instr} (h : ∀ o, i = .reserved o → 0x17 ≤ o.toNat) :
    decodeRequest (encodeRequest i) = i := by
  cases i with
  | reserved o => exact decodeRequest_of_reserved (h o rfl)
  | bufWrite buf _ | bufRead buf _ | bufToPageE buf _ | bufToPageNE buf _ | pageToBuf _ buf
  | compare _ buf => cases buf <;> rfl
  | _ => rfl

theorem decodeRequest_encodeRequest_decodeRequest (r : Request) :
    decodeRequest (encodeRequest (decodeRequest r)) = decodeRequest r := by
  refine decodeRequest_encodeRequest fun o ho => ?_
  have hr := reserved_of_decodeRequest ho
  rw [decodeRequest_of_reserved hr] at ho
  cases ho
  exact hr

/-- Requests that agree on OPSEL and on the latches R88 lists for it decode alike. -/
theorem decodeRequest_congr {r r' : Request} (hop : r'.opsel = r.opsel)
    (hcfg : r.opsel.toNat = 0x00 → r'.cfgIn = r.cfgIn)
    (htxd : r.opsel.toNat = 0x02 → r'.txd = r.txd)
    (ha : 0x09 ≤ r.opsel.toNat → r.opsel.toNat ≤ 0x12 → r'.a = r.a)
    (hb : 0x07 ≤ r.opsel.toNat → r.opsel.toNat ≤ 0x0B → r'.b = r.b)
    (hbuf : r.opsel.toNat = 0x07 ∨ r.opsel.toNat = 0x08 ∨
      (0x0C ≤ r.opsel.toNat ∧ r.opsel.toNat ≤ 0x0F) → r'.buf = r.buf) :
    decodeRequest r' = decodeRequest r := by
  unfold decodeRequest
  rw [hop]
  split
  case h_1 hn => rw [hcfg hn]
  case h_3 hn => rw [htxd hn]
  case h_8 | h_9 => rw [hbuf (by omega), hb (by omega) (by omega)]
  case h_10 | h_11 | h_12 => rw [ha (by omega) (by omega), hb (by omega) (by omega)]
  case h_13 | h_14 | h_15 | h_16 => rw [hbuf (by omega), ha (by omega) (by omega)]
  case h_17 | h_18 | h_19 => rw [ha (by omega) (by omega)]
  all_goals rfl

/-- Settles O2: by the decoder's rows (R88), the last of which is the reserved range. -/
theorem hostPortDecodingIsTotal : Obligations.HostPortDecodingIsTotal := by
  intro r r'
  refine ⟨⟨fun ⟨_, h⟩ => reserved_of_decodeRequest h, fun h => ⟨_, decodeRequest_of_reserved h⟩⟩,
    encodeRequest_decodeRequest_opsel r, decodeRequest_encodeRequest_decodeRequest r, ?_⟩
  rintro hop n rfl hcfg htxd ha hb hbuf
  exact decodeRequest_congr hop hcfg htxd ha hb hbuf

/-- Settles O34: the request decodes to a reserved operation, whose meaning looks at no state. -/
theorem reservedOpselRefused : Obligations.ReservedOpselRefused := by
  intro s r h
  rw [decodeRequest_of_reserved h]
  rfl

end Sys2Proof.Machine
end

section
/-! Frames on the bus: their length (R74), and words written out from the encodings (R71). -/

namespace Sys2Proof.Machine

theorem noOperands_length {i j : Instr} {rest : List Byte} (h : noOperands i rest = .ok j) :
    rest.length = 0 := by
  unfold noOperands at h
  split at h
  · rfl
  · cases h

theorem pageOnly_length {mk : Half → Instr} {i : Instr} {rest : List Byte}
    (h : pageOnly mk rest = .ok i) : rest.length = 3 := by
  unfold pageOnly at h
  split at h
  · rfl
  · cases h

theorem offsetOnly_length {mk : Half → Instr} {i : Instr} {rest : List Byte}
    (h : offsetOnly mk rest = .ok i) : rest.length = 3 := by
  unfold offsetOnly at h
  split at h
  · rfl
  · cases h

theorem blockAddress_length {i : Instr} {rest : List Byte} (h : blockAddress rest = .ok i) :
    rest.length = 3 := by
  unfold blockAddress at h
  split at h
  · rfl
  · cases h

theorem sectorAddress_length {i : Instr} {rest : List Byte} (h : sectorAddress rest = .ok i) :
    rest.length = 3 := by
  unfold sectorAddress at h
  split at h
  · rfl
  · cases h

/-- How many bytes follow the opcode byte of a command in a frame (R70, R72, R74). -/
def bytesAfterOpcode (p : Params) : Command → Nat
  | .status | .id | .deepPowerDown | .resume => 0
  | .pageRead => 7
  | .contReadHigh => 4
  | .chipErase => p.opChipErase.length - 1
  | _ => 3

theorem decodeAfterOpcode_length {p : Params} {op : Byte} {rest : List Byte} {k : Command} {i : Instr}
    (h : decodeAfterOpcode p op rest k = .ok i) : rest.length = bytesAfterOpcode p k := by
  cases k with
  | status | id | deepPowerDown | resume => exact noOperands_length h
  | bufWrite _ | bufRead _ => exact offsetOnly_length h
  | bufToPageE _ | bufToPageNE _ | pageErase => exact pageOnly_length h
  | pageToBuf buf => exact pageOnly_length (mk := fun page => .pageToBuf page buf) h
  | compare buf => exact pageOnly_length (mk := fun page => .compare page buf) h
  | blockErase => exact blockAddress_length h
  | sectorErase => exact sectorAddress_length h
  | pageRead | contReadLow | contReadHigh =>
    simp only [decodeAfterOpcode] at h
    split at h
    · rfl
    · cases h
  | chipErase =>
    simp only [decodeAfterOpcode] at h
    split at h
    next hop => simp [bytesAfterOpcode, ← hop]
    next => cases h

/-- A frame that decodes begins with the opcode of a command, which fixes its length. -/
theorem decodeFrame_length {p : Params} {op : Byte} {rest : List Byte} {i : Instr}
    (h : decodeFrame p (op :: rest) = .ok i) :
    ∃ k, p.commandOf op = some k ∧ rest.length = bytesAfterOpcode p k := by
  rcases hk : p.commandOf op with - | k <;> simp only [decodeFrame, hk] at h
  · cases h
  · exact ⟨k, rfl, decodeAfterOpcode_length h⟩

/-- Settles O4: both frames have the length of the command whose opcode they begin with. -/
theorem firstByteFixesFrameLength : Obligations.FirstByteFixesFrameLength := by
  intro p op xs ys i j hx hy
  obtain ⟨k, hk, hxlen⟩ := decodeFrame_length hx
  obtain ⟨k', hk', hylen⟩ := decodeFrame_length hy
  obtain rfl : k = k' := Option.some.inj (hk.symm.trans hk')
  exact hxlen.trans hylen.symm

/-- Settles O8: the decoder computes each operation at the default opcodes. -/
theorem writtenOutFramesDecode : Obligations.WrittenOutFramesDecode :=
  ⟨rfl, rfl, rfl, rfl, rfl, rfl, rfl, rfl, rfl⟩

end Sys2Proof.Machine
end

section
/-! The address encoder (R76 to R81), on the numbers `addr24_addrPO` and `addrB_eq_addrP` give. -/

namespace Sys2Proof.Machine

/-- A page-and-offset address is one 24-bit number (R76). -/
theorem addr24_of_addrPO {page offset : Nat} {b0 b1 b2 : Byte} (hp : page < 4096) (ho : offset < 1024)
    (h : addrPO page offset = [b0, b1, b2]) : addr24 b0 b1 b2 = page * 1024 + offset := by
  cases h
  exact addr24_addrPO hp ho

/-- The block is the low 8 bits of its address shifted left, with the top 3 bits of byte1 (R81 (b)). -/
theorem block_of_addrB {block : Nat} {b0 b1 b2 : Byte} (hb : block < 512)
    (h : addrB block = [b0, b1, b2]) : (b0.toNat <<< 3) ||| (b1.toNat >>> 5) = block := by
  cases h
  have hhigh : (trunc8 (block >>> 3)).toNat = block / 8 := by
    rw [trunc8, BitVec.toNat_ofNat, Nat.shiftRight_eq_div_pow]
    omega
  have hlow : (trunc8 (block <<< 5)).toNat >>> 5 = block % 8 := by
    rw [trunc8, BitVec.toNat_ofNat, Nat.shiftRight_eq_div_pow, Nat.shiftLeft_eq]
    omega
  have hlt : block % 8 < 2 ^ 3 := Nat.mod_lt _ (by decide)
  rw [hhigh, hlow, ← Nat.shiftLeft_add_eq_or_of_lt hlt, Nat.shiftLeft_eq]
  omega

/-- Settles O5: (a) by the number the address is, (b) by `block_of_addrB`, (c) by computing. -/
theorem addressEncoderRecoversOperands : Obligations.AddressEncoderRecoversOperands := by
  refine ⟨fun page offset b0 b1 b2 hp ho h => ?_,
    fun block b0 b1 b2 hb h => block_of_addrB (Nat.lt_succ_of_le hb) h, by decide, by decide⟩
  rw [addr24_of_addrPO (by omega) (by omega) h, pageField, offsetField, Nat.shiftRight_eq_div_pow]
  omega

/-- Settles O6: by `addr24_of_addrPO` and `addrB_eq_addrP`. -/
theorem addressFieldsAsNumbers : Obligations.AddressFieldsAsNumbers :=
  ⟨fun _ _ _ _ _ hp ho h => addr24_of_addrPO hp ho h, fun block _ => addrB_eq_addrP block,
    fun _ => rfl, fun _ => rfl⟩

/-- The special layout (R80). -/
theorem addrS_special {sector : Nat} (h : sector = 10 ∨ sector = 11) :
    addrS sector = [0x00, trunc8 ((sector % 2) * 16), 0x00] := by
  rw [addrS, if_pos h, Nat.and_one_is_mod, Nat.shiftLeft_eq]

/-- The normal layout (R80). -/
theorem addrS_normal {sector : Nat} (h : ¬(sector = 10 ∨ sector = 11)) :
    addrS sector = [trunc8 (sector * 2), 0x00, 0x00] := by
  rw [addrS, if_neg h, Nat.shiftLeft_eq]

/-- Byte0 of the normal layout tells the sector values apart. -/
theorem eq_of_trunc8_double {m n : Nat} (hm : m < 128) (hn : n < 128)
    (h : trunc8 (m * 2) = trunc8 (n * 2)) : m = n := by
  have hnat := congrArg BitVec.toNat h
  simp only [trunc8, BitVec.toNat_ofNat] at hnat
  omega

/-- Settles O7: byte0 of the special layout is 0, and the normal one would be 0x14 or 0x16 at 10 and 11
only. -/
theorem sectorAddressLayouts : Obligations.SectorAddressLayouts := by
  intro sector _ hle
  by_cases h : sector = 10 ∨ sector = 11
  · rw [if_pos h, addrS_special h]
    refine ⟨rfl, fun b0 b1 b2 he => ?_⟩
    cases he
    decide
  · rw [if_neg h, addrS_normal h]
    refine ⟨rfl, fun b0 b1 b2 he => ?_⟩
    cases he
    exact ⟨fun hb => h (.inl (eq_of_trunc8_double (n := 10) (by omega) (by decide) hb)),
      fun hb => h (.inr (eq_of_trunc8_double (n := 11) (by omega) (by decide) hb))⟩

end Sys2Proof.Machine
end

section
/-! Refusals (R213, R216), and the operand ranges of R91 as numbers. -/

namespace Sys2Proof.Machine

/-! ### Refused operations -/

theorem accepted_eq_refused {i : Instr} {m : Act Unit} {s : State} {r : Refusal} :
    accepted i m s = .refused r ↔ misuse i s = some r := by
  unfold accepted
  cases misuse i s <;> simp

/-- Every operation that is not reserved is accepted or refused by `misuse`. -/
theorem exec_eq_accepted {i : Instr} (hi : ∀ o, i ≠ .reserved o) (s : State) :
    ∃ m, exec i s = accepted i m s := by
  cases i with
  | reserved o => exact absurd rfl (hi o)
  | _ => exact ⟨_, rfl⟩

theorem exec_eq_refused {i : Instr} (hi : ∀ o, i ≠ .reserved o) {s : State} {r : Refusal} :
    exec i s = .refused r ↔ misuse i s = some r := by
  obtain ⟨m, hm⟩ := exec_eq_accepted hi s
  rw [hm, accepted_eq_refused]

/-- Where an operation is allowed, only its operands can be amiss (R216). -/
theorem misuse_eq_operandOutOfRange {i : Instr} {s : State} (hp : s.pending = none)
    (ha : s.allows i = true) :
    misuse i s = some .operandOutOfRange ↔ i.wellFormed s.params = false := by
  cases hw : i.wellFormed s.params <;> simp [misuse, operandsInRange, hp, ha, hw]

/-- A command is refused for its operands exactly when they are out of range. -/
theorem command_operandOutOfRange {i : Instr} {s : State} (hs : s.CommandReady)
    (hl : legalFrom i s.fsm = s.fsm.commandReady) :
    exec i s = .refused .operandOutOfRange ↔ i.wellFormed s.params = false := by
  obtain ⟨hp, hab, hf⟩ := hs
  have hlegal : legalFrom i s.fsm = true := hl.trans (Fsm.commandReady_iff.2 hf)
  have hi : ∀ o, i ≠ .reserved o := by
    rintro o rfl
    cases hlegal
  rw [exec_eq_refused hi]
  exact misuse_eq_operandOutOfRange hp (by simpa [State.allows, hab] using hlegal)

/-- Commands whose operands have one range in common. -/
theorem commands_operandOutOfRange {l : List Instr} {s : State} {inRange : Bool} {outside : Prop}
    (hs : s.CommandReady)
    (hl : ∀ i ∈ l, legalFrom i s.fsm = s.fsm.commandReady ∧ i.wellFormed s.params = inRange)
    (hr : inRange = false ↔ outside) : ∀ i ∈ l, exec i s = .refused .operandOutOfRange ↔ outside := by
  intro i hi
  obtain ⟨hlegal, hwf⟩ := hl i hi
  rw [command_operandOutOfRange hs hlegal, hwf, hr]

/-! ### Ranges -/

theorem pageInRange_eq_false {page : Half} : pageInRange page = false ↔ 4095 < page.toNat := by
  rw [pageInRange, decide_eq_false_iff_not, numPages]
  omega

theorem offsetInRange_eq_false {p : Params} {offset : Half} :
    offsetInRange p offset = false ↔ p.pageSize.bytes ≤ offset.toNat := by
  simp [offsetInRange]

theorem pageAndOffset_eq_false {p : Params} {page offset : Half} :
    (pageInRange page && offsetInRange p offset) = false ↔
      4095 < page.toNat ∨ p.pageSize.bytes ≤ offset.toNat := by
  rw [Bool.and_eq_false_iff, pageInRange_eq_false, offsetInRange_eq_false]

theorem blockInRange_eq_false {block : Half} : blockInRange block = false ↔ 511 < block.toNat := by
  rw [blockInRange, decide_eq_false_iff_not, numBlocks]
  omega

theorem sectorInRange_eq_false {sector : Half} :
    sectorInRange sector = false ↔ sector.toNat = 0 ∨ 15 < sector.toNat := by
  rw [sectorInRange, Bool.and_eq_false_iff, decide_eq_false_iff_not, decide_eq_false_iff_not]
  omega

theorem PageSize.bytes_eq (z : PageSize) : z.bytes = if z = .standard then 528 else 512 := by
  cases z <;> rfl

/-- Settles O58: where commands are allowed only `wellFormed` decides, and its ranges are R91's. -/
theorem operandsOutOfRangeAreRefused : Obligations.OperandsOutOfRangeAreRefused := by
  rintro s x y buf hs size rfl
  rw [← PageSize.bytes_eq]
  exact ⟨commands_operandOutOfRange hs (by simp [legalFrom, Instr.wellFormed]) offsetInRange_eq_false,
    commands_operandOutOfRange hs (by simp [legalFrom, Instr.wellFormed]) pageAndOffset_eq_false,
    commands_operandOutOfRange hs (by simp [legalFrom, Instr.wellFormed]) pageInRange_eq_false,
    (command_operandOutOfRange hs rfl).trans blockInRange_eq_false,
    (command_operandOutOfRange hs rfl).trans sectorInRange_eq_false⟩

end Sys2Proof.Machine
end

section
/-! The response of an operation (R92). -/

namespace Sys2Proof.Machine

/-- From `s` to `t` the trace has grown by one response as its last event if no operation is in progress
in `t`, and by none if one is. -/
def Responded (s t : State) : Prop :=
  ∃ evs, t.trace = s.trace ++ evs ∧
    (t.pending = none → ∃ pre r, evs = pre ++ [.resp r] ∧ ∀ e ∈ pre, isResp e = false) ∧
    (t.pending ≠ none → ∀ e ∈ evs, isResp e = false)

theorem Responded.over {s t : State} {evs : List Event} {r : Response}
    (htrace : t.trace = s.trace ++ (evs ++ [.resp r])) (hsilent : ∀ e ∈ evs, isResp e = false)
    (hp : t.pending = none) : Responded s t :=
  ⟨_, htrace, fun _ => ⟨evs, r, rfl, hsilent⟩, fun h => absurd hp h⟩

theorem Responded.inProgress {s t : State} {evs : List Event} {w : Waiter}
    (htrace : t.trace = s.trace ++ evs) (hsilent : ∀ e ∈ evs, isResp e = false)
    (hp : t.pending = some w) : Responded s t :=
  ⟨evs, htrace, fun h => by simp [hp] at h, fun _ => hsilent⟩

/-- A whole operation that no block reset cuts short responds once, or is still in progress. -/
theorem Whole.responded {m : Act Unit} (h : Whole m) {s : State} (hs : s.resets = [])
    (hp : s.pending = none) : Responded s (settle m s) := by
  rcases settle_cases h s with ⟨evs, r, o, hsilent, hpend, -⟩ | ⟨evs, w, o, hsilent, hpend, -⟩ |
    ⟨c, u, evs, k, hset⟩ | ⟨u, evs, k, -⟩
  · exact .over o.trace hsilent (hpend.trans hp)
  · exact .inProgress o.trace hsilent hpend
  · rw [hset]
    refine .over (evs := evs) (r := .xferError c) ?_ k.silent (k.pending.trans hp)
    rw [transportAbort_trace, k.trace, List.append_assoc]
  · obtain ⟨rest, hrest, -⟩ := k.reset rfl
    simp [hs] at hrest

/-- Settles O42: an accepted operation and a later poll both run a whole operation, with nothing in
progress when they begin. -/
theorem oneResponsePerOperation : Obligations.OneResponsePerOperation := by
  rintro s t hs (⟨i, h⟩ | ⟨hpend, h⟩)
  · obtain ⟨hm, m, hrun, rfl⟩ := exec_runs h
    exact hrun.whole.responded hs (misuse_none.1 hm).1
  · cases step_stepped h with
    | reset hr _ => simp [hs] at hr
    | accept _ _ _ hp => exact absurd hp hpend
    | wait _ hp => exact absurd hp hpend
    | poll w _ _ ht =>
      subst ht
      exact (pollOnce_whole w).responded (s := { s with pending := none }) hs rfl

end Sys2Proof.Machine
end

section
/-! Lifecycle and streaming (40_framer_and_stream.md): INIT, RELEASE, STREAM_XFER and END_STREAM in a
quiet state, and the opcode that follows the chip-select pulse. -/

namespace Sys2Proof.Machine

/-! ### Accepted, and refused where FSM does not allow -/

/-- INIT is accepted in every quiescent state (R100). -/
theorem misuse_init {s : State} (cfg : BitVec 2) (hp : s.pending = none) (ha : s.aborted = false)
    (hf : s.fsm = .uninit ∨ s.fsm = .idle ∨ s.fsm = .armedStream ∨ s.fsm = .selectedBare) :
    misuse (.init cfg) s = none :=
  misuse_none.2 ⟨hp, by simpa [State.allows, ha, legalFrom] using Fsm.quiescent_iff.2 hf, rfl⟩

/-- RELEASE and END_STREAM are accepted wherever the block is initialised (R101, R107). -/
theorem State.Initialised.misuse {s : State} (h : s.Initialised) {i : Instr}
    (hi : i = .release ∨ i = .endStream) : misuse i s = none := by
  obtain ⟨hp, ha, hf⟩ := h
  have hlegal := Fsm.commandReady_or_armed_iff.2 hf
  rcases hi with rfl | rfl <;>
    exact misuse_none.2 ⟨hp, by rw [State.allows, ha]; exact hlegal, rfl⟩

/-- With nothing in progress, an operation the state does not allow is refused as illegal (R216). -/
theorem exec_illegalState {i : Instr} {s : State} (hi : ∀ o, i ≠ .reserved o)
    (hp : s.pending = none) (ha : s.allows i = false) : exec i s = .refused .illegalState :=
  (exec_eq_refused hi).2 (by simp [misuse, hp, ha])

/-- In UNINIT only INIT is allowed (R16, R101). -/
theorem allows_uninit {s : State} (hf : s.fsm = .uninit) {i : Instr} (hi : ∀ c, i ≠ .init c) :
    s.allows i = false := by
  by_contra hallow
  obtain ⟨-, hinit⟩ := initialised_of_allows hi (Bool.eq_true_of_not_eq_false hallow)
  simp [hf] at hinit

/-- STREAM_XFER is allowed in ARMED_STREAM only (R105). -/
theorem allows_streamXfer_eq_false {s : State} (hf : s.fsm ≠ .armedStream) (tx : Byte) :
    s.allows (.streamXfer tx) = false := by
  simp [State.allows, legalFrom, isInit, hf]

/-! ### The four operations without a frame -/

/-- Settles O9: INIT is accepted, and clearing an error mark that is clear changes nothing. -/
theorem initAssertsTheIdleState : Obligations.InitAssertsTheIdleState := by
  intro s cfg hq hp ha hf
  have hrun : exec (.init cfg) s = .next _ :=
    accepted_ok (misuse_init cfg hp ha hf) (initAct_quiet hq cfg)
  simpa [ha] using hrun

/-- Settles O10: RELEASE runs `deselect_quiet` to UNINIT, which allows INIT only. -/
theorem releaseEndsTheHandle : Obligations.ReleaseEndsTheHandle := by
  rintro s t hq hs rfl
  refine ⟨accepted_ok (hs.misuse (.inl rfl)) (deselect_quiet hq .uninit), fun i hinit hres => ?_⟩
  exact exec_illegalState hres hs.1 (allows_uninit rfl hinit)

/-- Settles O11: with a stream open by `streamXfer_quiet`; elsewhere FSM does not allow it. -/
theorem streamXferMovesOneByte : Obligations.StreamXferMovesOneByte := fun _ tx =>
  ⟨fun hq hs => accepted_ok (hs.misuse tx) (streamXfer_quiet hq tx),
    fun hp hf => exec_illegalState (by simp) hp (allows_streamXfer_eq_false hf tx)⟩

/-- Settles O12: END_STREAM runs `deselect_quiet` to IDLE. -/
theorem endStreamDeselects : Obligations.EndStreamDeselects := fun _ hq hs =>
  accepted_ok (hs.misuse (.inr rfl)) (deselect_quiet hq .idle)

/-! ### The events of a frame -/

/-- Lines answer nothing: their events are themselves. -/
theorem Env.play_lines_events (p : Params) (evs : List Event) (e : Env) :
    (Env.play p (evs.map .line) e).events = evs := by
  induction evs generalizing e with
  | nil => rfl
  | cons ev evs ih => exact congrArg (ev :: ·) (ih _)

/-- The drives of a pulse are its events (R102). -/
theorem pulseDrives_eq_map (p : Params) : pulseDrives p = (pulseEvents p).map .line := by
  unfold pulseDrives csHighDrives pulseEvents
  split <;> rfl

/-- From `s` to `t` the trace has grown, first by the chip-select pulse and a transfer of `op`. -/
def PulseThenOpcode (s t : State) (op : Byte) : Prop :=
  ∃ r evs, t.trace = s.trace ++ pulseEvents s.params ++ [.xfer op r] ++ evs

/-- What drives a frame first begins with the pulse and the frame's first byte (R102, R103). -/
theorem pulseThenOpcode_of_frame {s t : State} {op : Byte} {bytes : List Byte} {ds : List Drive}
    {evs : List Event}
    (h : t.trace = (s.after (frameDrives s.params (op :: bytes) ++ ds)).trace ++ evs) :
    PulseThenOpcode s t op := by
  have hdrives : frameDrives s.params (op :: bytes) ++ ds =
      (pulseEvents s.params).map .line ++ .send op :: (bytes.map .send ++ ds) := by
    simp [frameDrives, pulseDrives_eq_map]
  rw [hdrives, State.after_trace, Env.play_append, Env.play_lines_events] at h
  exact ⟨_, _, by simpa [Env.play] using h⟩

/-! ### Operations that begin with a frame -/

/-- Every operation with a frame has an opcode to begin it with (R70, R83). -/
theorem busFrame_ne_nil {p : Params} (hl : p.Legal) {i : Instr} (hi : sendsOpcode i = true) :
    busFrame p i ≠ [] := by
  cases i with
  | chipErase => exact hl.1
  | init | release | streamXfer | endStream | waitReady | hardReset | reserved => cases hi
  | _ => exact List.cons_ne_nil _ _

/-- The first status transaction of `wait_ready` begins with OP_STATUS, in both modes (R123). -/
theorem waitReady_pulseThenOpcode {s : State} (hq : s.Quiet) (w : Waiter) :
    PulseThenOpcode s (settle (waitReady w) s) s.params.opStatus := by
  obtain ⟨ds, hfirst⟩ : ∃ ds, firstPollDrives s.params s.pollContinuous =
      frameDrives s.params [s.params.opStatus] ++ ds := by
    cases s.pollContinuous <;> exact ⟨_, rfl⟩
  cases hr : ready (s.lastHeard (firstPollDrives s.params s.pollContinuous)) with
  | true =>
    rw [settle_ok (waitReady_ready hq w hr), hfirst, List.append_assoc, List.append_assoc]
    exact pulseThenOpcode_of_frame (State.emit_trace _ _)
  | false =>
    rw [settle_ok (waitReady_busy hq w hr), hfirst, List.append_assoc]
    exact pulseThenOpcode_of_frame (List.append_nil _).symm

/-- What `settle` makes of a run depends on the run alone. -/
theorem settle_congr {m k : Act Unit} {s t : State} (h : m.run s = k.run t) :
    settle m s = settle k t := by
  rw [settle, h, settle]

/-- A triggered operation begins with its frame, whatever its synchroniser finds (R160). -/
theorem triggered_pulseThenOpcode {s : State} (hq : s.Quiet) (op : Byte) (bytes : List Byte)
    (w : Waiter) : PulseThenOpcode s (settle (triggered (op :: bytes) w) s) op := by
  rw [settle_congr (triggered_run hq _ _)]
  obtain ⟨_, htrace⟩ := (waitReady_whole w).settle_trace _
  exact pulseThenOpcode_of_frame (ds := pulseDrives s.params) htrace

/-- A frame operation in a quiet state begins with its frame, CHIP_ERASE where it is enabled (R102). -/
theorem Runs.pulseThenOpcode {i : Instr} {m : Act Unit} {s : State} (r : Runs s i m) (hq : s.Quiet)
    (hi : sendsOpcode i = true) (hen : i = .chipErase → s.cfg.getLsbD 0 = true) {op : Byte}
    {bytes : List Byte} (hframe : busFrame s.params i = op :: bytes) :
    PulseThenOpcode s (settle m s) op := by
  cases r with
  | init | release | streamXfer | endStream | waitReady | hardReset => cases hi
  | statusRead =>
    cases hframe
    rw [settle_ok (statusReadAct_quiet hq)]
    exact pulseThenOpcode_of_frame (State.emit_trace _ _)
  | idRead =>
    cases hframe
    obtain ⟨_, _, _, _, hrun⟩ := idReadAct_quiet hq
    rw [settle_ok hrun, List.append_assoc]
    exact pulseThenOpcode_of_frame (State.emit_trace _ _)
  | arm _ =>
    rw [hframe, settle_ok (armStream_quiet hq _), ← List.append_nil (frameDrives _ _)]
    exact pulseThenOpcode_of_frame (State.emit_trace _ _)
  | trigger _ =>
    rw [hframe]
    exact triggered_pulseThenOpcode hq op bytes _
  | chipErase =>
    have hact : chipEraseAct s = triggered (busFrame s.params .chipErase) .done := if_pos (hen rfl)
    rw [hact, hframe]
    exact triggered_pulseThenOpcode hq op bytes _
  | deepPowerDown | resume =>
    rw [hframe, settle_ok (frameAndDelay_quiet hq _ _)]
    exact pulseThenOpcode_of_frame (State.emit_trace _ _)

/-- Settles O43: the operation begins with its frame (`Runs.pulseThenOpcode`), WAIT_READY with that of
its first status transaction. -/
theorem opcodeFollowsThePulse : Obligations.OpcodeFollowsThePulse := by
  intro s t i hq hl h hi hen
  obtain ⟨-, m, hrun, rfl⟩ := exec_runs h
  by_cases hw : i = .waitReady
  · subst hw
    cases hrun with
    | waitReady =>
      obtain ⟨r, evs, htrace⟩ := waitReady_pulseThenOpcode hq .done
      exact ⟨_, r, evs, htrace, (if_pos rfl).symm⟩
    | arm ha => cases ha
    | trigger ht => cases ht
  · have hsend := hi.resolve_right hw
    obtain ⟨op, bytes, hframe⟩ := List.exists_cons_of_ne_nil (busFrame_ne_nil hl hsend)
    obtain ⟨r, evs, htrace⟩ := hrun.pulseThenOpcode hq hsend hen hframe
    exact ⟨op, r, evs, htrace, by rw [if_neg hw, hframe, List.headD_cons]⟩

end Sys2Proof.Machine
end

section
/-! STATUS_READ, WAIT_READY and ID_READ in a quiet state, and waits on scripted answers: what each turn
of the synchroniser's loop drives and how many turns there are (41_status_sync_id.md). -/

namespace Sys2Proof.Machine

/-! ### Operations that answer at once -/

/-- The three operations are accepted wherever commands are, having no operands (R16). -/
theorem State.CommandReady.misuse {s : State} (hs : s.CommandReady) {i : Instr}
    (hi : i = .statusRead ∨ i = .waitReady ∨ i = .idRead) : misuse i s = none := by
  rcases hi with rfl | rfl | rfl <;>
    exact misuse_command hs (fun _ hf => Fsm.commandReady_iff.2 hf) rfl

/-- Settles O13: STATUS_READ runs `statusReadAct_quiet`. -/
theorem statusReadReturnsTheByte : Obligations.StatusReadReturnsTheByte := fun _ hq hs =>
  accepted_ok (hs.misuse (.inl rfl)) (statusReadAct_quiet hq)

/-- Settles O14: WAIT_READY runs `waitReady_ready` and drives nothing after the wait. -/
theorem waitReadyCompletesWhenReady : Obligations.WaitReadyCompletesWhenReady := by
  intro s hq hs hready
  have hrun : exec .waitReady s = .next _ :=
    accepted_ok (hs.misuse (.inr (.inl rfl))) (waitReady_ready hq .done hready)
  simpa only [afterDrives, List.append_nil, waiterResponse] using hrun

/-! ### What lines and frames hear -/

/-- Nothing is heard while lines are driven. -/
theorem Env.play_lines_rx (p : Params) (evs : List Event) (e : Env) :
    (Env.play p (evs.map .line) e).rx = [] := by
  induction evs generalizing e with
  | nil => rfl
  | cons ev evs ih => exact ih _

/-- A frame of one byte hears one byte. -/
theorem State.heard_opcode (s : State) (p : Params) (op : Byte) (hp : s.params = p) :
    ∃ r, s.heard (frameDrives p [op]) = [r] := by
  subst hp
  have hpulse : s.heard (pulseDrives s.params) = [] := by
    rw [State.heard, pulseDrives_eq_map, Env.play_lines_rx]
  refine ⟨(s.after (pulseDrives s.params)).lastHeard [.send op], ?_⟩
  rw [frameDrives, State.heard_append, hpulse]
  rfl

/-! ### ID_READ -/

/-- One more transfer after some drives. -/
theorem xfer_after {s : State} (h : s.Quiet) (ds : List Drive) (t : Byte) :
    (xfer t).run (s.after ds) =
      .ok ((s.after ds).lastHeard [.send t]) (s.after (ds ++ [.send t])) := by
  rw [xfer_quiet (by exact h), State.after_after]

/-- Four transfers hear four bytes, and what follows is given them in order (`xfer4_quiet` does not say
which bytes those are). -/
theorem xfer4_heard {s : State} (h : s.Quiet) (t : Byte) :
    ∃ m d0 d1 n : Byte, s.heard (List.replicate 4 (.send t)) = [m, d0, d1, n] ∧
      ∀ k : Byte → Byte → Byte → Byte → Act Unit,
        (do k (← xfer t) (← xfer t) (← xfer t) (← xfer t) : Act Unit).run s =
          (k m d0 d1 n).run (s.after (List.replicate 4 (.send t))) := by
  refine ⟨_, _, _, _, rfl, fun k => ?_⟩
  rw [bind_ok (xfer_quiet h t), bind_ok (xfer_after h _ t), bind_ok (xfer_after h _ t),
    bind_ok (xfer_after h _ t)]
  rfl

/-- ID_READ, in the bytes it hears (R127). -/
theorem idReadAct_heard {s : State} (h : s.Quiet) {ds : List Drive}
    (hds : ds = frameDrives s.params [s.params.opId] ++ List.replicate 4 (.send s.params.fill)) :
    ∃ r m d0 d1 n : Byte, s.heard ds = [r, m, d0, d1, n] ∧ idReadAct.run s =
      .ok () (({ s.after (ds ++ if n = 0 then [.line (.cs true)] else []) with
          csN := decide (n = 0), fsm := if n = 0 then .idle else .armedStream } : State).emit
        (.resp (.id m d0 d1 n))) := by
  obtain ⟨r, hr⟩ := s.heard_opcode s.params s.params.opId rfl
  obtain ⟨m, d0, d1, n, hheard, hread⟩ := xfer4_heard (s := { s.after (frameDrives s.params
    [s.params.opId]) with csN := false, fsm := framed s.fsm }) ⟨h.1, h.2⟩ s.params.fill
  refine ⟨r, m, d0, d1, n, ?_, run_bind (getParams_run _) (run_bind (frame_quiet h _) ?_)⟩
  · rw [hds, State.heard_append, hr]
    exact congrArg (r :: ·) hheard
  · refine (hread _).trans (run_bind (idEnd_quiet (by exact ⟨h.1, h.2⟩) rfl _) ?_)
    refine (respond_quiet (by exact ⟨h.1, h.2⟩) _).trans ?_
    simp [hds, State.after, Env.play_append, -List.reduceReplicate]

/-- Settles O15: by `idReadAct_heard`, whose end is read off for a fourth byte that is 0 or not. -/
theorem idReadReturnsFourBytes : Obligations.IdReadReturnsFourBytes := by
  intro s hq hs ds hds
  obtain ⟨r, m, d0, d1, n, hheard, hrun⟩ := idReadAct_heard hq hds
  have hexec : exec .idRead s = .next _ := accepted_ok (hs.misuse (.inr (.inr rfl))) hrun
  refine ⟨r, m, d0, d1, n, hheard, fun hn => ?_, fun hn => ?_⟩
  · simpa only [hn, if_true, decide_true] using hexec
  · simpa only [hn, if_false, decide_false, List.append_nil] using hexec

/-! ### A wait in progress -/

/-- The operation is in progress in a quiet state, chip-select as POLL_MODE has it between two polls. -/
structure InWait (w : Waiter) (s : State) : Prop where
  quiet : s.Quiet
  pending : s.pending = some w
  fsm : s.fsm = .busyWait
  csN : s.csN = !s.pollContinuous

/-- A busy byte is counted and changes nothing else (R123). -/
theorem InWait.step_busy {w : Waiter} {s : State} (h : InWait w s)
    (hbusy : ready (s.lastHeard (nextPollDrives s.params s.pollContinuous)) = false) :
    step s = .next { s.after (nextPollDrives s.params s.pollContinuous ++ gapDrives s.params) with
      pollCount := s.pollCount + 1 } := by
  have hcs : (if s.pollContinuous then s.csN else true) = s.csN := by
    rw [h.csN]
    cases s.pollContinuous <;> rfl
  rw [step_of_pending h.quiet.2 h.pending, resumeWait,
    settle_ok (pollOnce_busy (s := { s with pending := none }) h.quiet h.fsm w hbusy)]
  simpa [State.after, State.pollContinuous, h.pending] using hcs

/-- A ready byte ends the operation (R123). -/
theorem InWait.step_ready {w : Waiter} {s : State} (h : InWait w s)
    (hready : ready (s.lastHeard (nextPollDrives s.params s.pollContinuous)) = true) :
    step s = .next (({ s.after (nextPollDrives s.params s.pollContinuous ++
          closeDrives s.pollContinuous ++ afterDrives s.params w) with
        fsm := .idle, csN := true, pollCount := s.pollCount + 1, pending := none } : State).emit
      (.resp (waiterResponse w (s.after (nextPollDrives s.params s.pollContinuous ++
        closeDrives s.pollContinuous))))) := by
  rw [step_of_pending h.quiet.2 h.pending, resumeWait,
    settle_ok (pollOnce_ready (s := { s with pending := none }) h.quiet w hready)]
  cases w <;> rfl

/-- `s` as a wait that has yet to read its first status byte: in CONTINUOUS mode its transaction is
open. -/
def State.waiting (s : State) (w : Waiter) : State :=
  { s.after (openDrives s.params s.pollContinuous) with
    fsm := .busyWait, csN := !s.pollContinuous, pollCount := 0, pending := some w }

theorem State.waiting_inWait {s : State} (hq : s.Quiet) (w : Waiter) : InWait w (s.waiting w) :=
  ⟨hq, rfl, rfl, rfl⟩

/-- `wait_ready` is its opening and a poll like every other (R123). -/
theorem settle_waitReady {s : State} (hq : s.Quiet) (hp : s.pending = none) (w : Waiter) :
    .next (settle (waitReady w) s) = step (s.waiting w) := by
  have hheard := State.lastHeard_append s (openDrives s.params s.pollContinuous) _
    (State.heard_nextPoll _ s.params s.pollContinuous rfl)
  rw [← firstPollDrives_eq] at hheard
  cases hr : ready (s.lastHeard (firstPollDrives s.params s.pollContinuous)) with
  | true =>
    rw [settle_ok (waitReady_ready hq w hr), (s.waiting_inWait hq w).step_ready (hheard ▸ hr)]
    cases w <;>
      simp [State.waiting, State.after, State.pollContinuous, firstPollDrives_eq, Env.play_append,
        afterDrives, waiterResponse, State.lastHeard, State.heard, State.emit, hp]
  | false =>
    rw [settle_ok (waitReady_busy hq w hr), (s.waiting_inWait hq w).step_busy (hheard ▸ hr)]
    simp [State.waiting, State.after, State.pollContinuous, firstPollDrives_eq, Env.play_append]

/-! ### Scripted answers -/

/-- Answers to the polls of a wait, by POLL_MODE: for each, the byte that comes back while the opcode is
sent, which CONTINUOUS mode does not ask for, and the status byte. -/
def pollScript (cont : Bool) (polls : List (Byte × Byte)) : List Answer :=
  if cont then continuousScript (polls.map Prod.snd) else reselectScript polls

theorem pollScript_append (cont : Bool) (xs ys : List (Byte × Byte)) :
    pollScript cont (xs ++ ys) = pollScript cont xs ++ pollScript cont ys := by
  cases cont <;> simp [pollScript, continuousScript, reselectScript]

/-- The events of a poll, by POLL_MODE. -/
def pollEvents (p : Params) (cont : Bool) (x : Byte × Byte) : List Event :=
  if cont then [.xfer p.fill x.2] else statusEvents p x

/-- The events of a poll that hears a busy byte. -/
def busyEvents (p : Params) (cont : Bool) (x : Byte × Byte) : List Event :=
  pollEvents p cont x ++ gapEvents p

/-- The event that ends a wait in CONTINUOUS mode. -/
def closeEvents (cont : Bool) : List Event := if cont then [.cs true] else []

theorem busyEvents_reselect (p : Params) :
    busyEvents p false = fun x => statusEvents p x ++ gapEvents p := rfl

theorem busyEvents_continuous (p : Params) :
    busyEvents p true = fun x => .xfer p.fill x.2 :: gapEvents p := rfl

theorem busyEvents_silent (p : Params) (cont : Bool) (x : Byte × Byte) :
    ∀ e ∈ busyEvents p cont x, isResp e = false := by
  unfold busyEvents pollEvents statusEvents pulseEvents gapEvents
  split_ifs <;> simp [isResp]

theorem gapDrives_eq_map (p : Params) : gapDrives p = (gapEvents p).map .line := by
  unfold gapDrives gapEvents
  split <;> rfl

theorem closeDrives_eq_map (cont : Bool) : closeDrives cont = (closeEvents cont).map .line := by
  cases cont <;> rfl

/-- Lines take no answer from the script. -/
theorem Env.play_lines_oracle {p : Params} (h : p.hasXferErr = false) (evs : List Event)
    (as : List Answer) (lines : List (Option ErrCode)) (draws : Nat) :
    Env.play p (evs.map .line) (.oracle as lines draws) = ⟨evs, [], .oracle as lines draws⟩ := by
  induction evs with
  | nil => rfl
  | cons ev evs ih => simp [Env.play, Env.line, h, ih]

/-- A transfer takes one answer. -/
theorem Env.xfer_oracle (p : Params) (t r : Byte) (as : List Answer) (lines : List (Option ErrCode))
    (draws : Nat) :
    Env.xfer p t (.oracle (⟨r, none⟩ :: as) lines draws) = (.ok r, .oracle as lines draws) := by
  simp [Env.xfer, Answer.outcome]

/-- A frame of one byte takes one answer. -/
theorem Env.play_opcode_oracle {p : Params} (h : p.hasXferErr = false) (op r : Byte)
    (as : List Answer) (lines : List (Option ErrCode)) (draws : Nat) :
    Env.play p (frameDrives p [op]) (.oracle (⟨r, none⟩ :: as) lines draws) =
      ⟨pulseEvents p ++ [.xfer op r], [r], .oracle as lines draws⟩ := by
  rw [frameDrives, pulseDrives_eq_map, Env.play_append, Env.play_lines_oracle h]
  simp [Env.play, Env.xfer_oracle, received]

/-- A poll takes the answers scripted for it and hears the status byte last. -/
theorem Env.play_poll_oracle {p : Params} (h : p.hasXferErr = false) (cont : Bool) (x : Byte × Byte)
    (as : List Answer) (lines : List (Option ErrCode)) (draws : Nat) :
    ∃ pre, Env.play p (nextPollDrives p cont) (.oracle (pollScript cont [x] ++ as) lines draws) =
      ⟨pollEvents p cont x, pre ++ [x.2], .oracle as lines draws⟩ := by
  cases cont with
  | true =>
    refine ⟨[], ?_⟩
    simp [nextPollDrives, pollScript, continuousScript, pollEvents, Env.play, Env.xfer_oracle, received]
  | false =>
    refine ⟨[x.1], ?_⟩
    have hplay := Env.play_append p (frameDrives p [p.opStatus]) [.send p.fill, .line (.cs true)]
      (.oracle (⟨x.1, none⟩ :: ⟨x.2, none⟩ :: as) lines draws)
    rw [Env.play_opcode_oracle h] at hplay
    refine hplay.trans ?_
    simp [pollEvents, statusEvents, Env.play, Env.xfer_oracle, Env.line, h, received]

/-! ### Busy answers -/

section
variable {s : State} {as rest : List Answer} {lines : List (Option ErrCode)} {draws : Nat}

/-- Lines leave a script as it is. -/
theorem State.after_lines_oracle (hq : s.Quiet) (henv : s.env = .oracle as lines draws)
    (evs : List Event) : s.after (evs.map .line) = s.put (s.trace ++ evs) s.env := by
  simp [State.after, State.put, henv, Env.play_lines_oracle hq.1]

/-- A poll hears its status byte and adds its events. -/
theorem State.after_poll_oracle (hq : s.Quiet) {x : Byte × Byte}
    (henv : s.env = .oracle (pollScript s.pollContinuous [x] ++ as) lines draws) :
    s.lastHeard (nextPollDrives s.params s.pollContinuous) = x.2 ∧
      s.after (nextPollDrives s.params s.pollContinuous) =
        s.put (s.trace ++ pollEvents s.params s.pollContinuous x) (.oracle as lines draws) := by
  obtain ⟨pre, hplay⟩ := Env.play_poll_oracle hq.1 s.pollContinuous x as lines draws
  rw [← henv] at hplay
  simp [State.lastHeard, State.heard, State.after, State.put, hplay]

/-- `s` after `n` polls with the events `evs`. -/
def State.polled (s : State) (evs : List Event) (n : Nat) (e : Env) : State :=
  { s.put (s.trace ++ evs) e with pollCount := s.pollCount + n }

theorem State.polled_polled (evs evs' : List Event) (n n' : Nat) (e e' : Env) :
    (s.polled evs n e).polled evs' n' e' = s.polled (evs ++ evs') (n + n') e' := by
  simp [State.polled, State.put, Nat.add_assoc]

variable {w : Waiter} (h : InWait w s)
include h

theorem InWait.polled (evs : List Event) (n : Nat) (e : Env) : InWait w (s.polled evs n e) :=
  ⟨h.quiet, h.pending, h.fsm, h.csN⟩

/-- A scripted busy byte. -/
theorem InWait.step_busy_oracle {x : Byte × Byte} (hx : ready x.2 = false)
    (henv : s.env = .oracle (pollScript s.pollContinuous [x] ++ as) lines draws) :
    step s =
      .next (s.polled (busyEvents s.params s.pollContinuous x) 1 (.oracle as lines draws)) := by
  obtain ⟨hheard, hafter⟩ := State.after_poll_oracle h.quiet henv
  rw [h.step_busy (hheard ▸ hx), ← State.after_after, hafter, gapDrives_eq_map,
    State.after_lines_oracle (by exact h.quiet) rfl]
  simp [State.polled, State.put, busyEvents]

/-- As many steps as there are busy bytes: no number of them ends the wait (R126). -/
theorem InWait.run_busy_oracle {busy : List (Byte × Byte)} (hbusy : ∀ x ∈ busy, ready x.2 = false)
    (henv : s.env = .oracle (pollScript s.pollContinuous busy ++ rest) lines draws) :
    Sys2Proof.core.run busy.length s = .next (s.polled
      (busy.flatMap (busyEvents s.params s.pollContinuous)) busy.length
      (.oracle rest lines draws)) := by
  induction busy generalizing s with
  | nil =>
    have hrest : s.env = .oracle rest lines draws := by
      rw [henv]
      cases s.pollContinuous <;> rfl
    simp [Host.Core.run, State.polled, State.put, ← hrest]
  | cons x xs ih =>
    obtain ⟨hx, hxs⟩ := List.forall_mem_cons.1 hbusy
    rw [← List.singleton_append, pollScript_append, List.append_assoc] at henv
    rw [List.length_cons, run_succ (h.step_busy_oracle hx henv), ih (h.polled _ _ _) hxs rfl,
      State.polled_polled, Nat.add_comm 1]
    rfl

end

/-- Settles O25: the busy answers are a script of polls (`InWait.run_busy_oracle`), whose events are not
responses. -/
theorem waitHasNoCap : Obligations.WaitHasNoCap := by
  intro s w busy rest lines draws hq hp hf hcs hbusy henv
  have hrun := (InWait.mk hq hp hf hcs).run_busy_oracle hbusy henv
  refine ⟨_, _, hrun, hp, hf, rfl, fun e he => ?_, rfl⟩
  obtain ⟨x, -, hx⟩ := List.mem_flatMap.1 he
  exact busyEvents_silent _ _ x e hx

/-- Some steps and then some more. -/
theorem run_add {n : Nat} {s t : State} (h : Sys2Proof.core.run n s = .next t) (k : Nat) :
    Sys2Proof.core.run (n + k) s = Sys2Proof.core.run k t := by
  induction n generalizing s with
  | zero =>
    cases h
    rw [Nat.zero_add]
  | succ n ih =>
    cases hs : step s with
    | next u =>
      rw [run_succ hs] at h
      rw [Nat.succ_add, run_succ hs, ih h]
    | fault | refused =>
      have hcore : Sys2Proof.core.step s = _ := hs
      simp [Host.Core.run, hcore] at h

/-! ### A ready answer after busy ones -/

/-- What the end of a wait that responds DONE leaves (R124). -/
def State.waitDone (s : State) : State :=
  ({ s with fsm := .idle, csN := true, pending := none } : State).emit (.resp .done)

section
variable {s : State} (h : InWait .done s) {rest : List Answer} {lines : List (Option ErrCode)}
  {draws : Nat}
include h

/-- A scripted ready byte. -/
theorem InWait.step_ready_oracle {x : Byte × Byte} (hx : ready x.2 = true)
    (henv : s.env = .oracle (pollScript s.pollContinuous [x] ++ rest) lines draws) :
    step s = .next (s.polled (pollEvents s.params s.pollContinuous x ++
      closeEvents s.pollContinuous) 1 (.oracle rest lines draws)).waitDone := by
  obtain ⟨hheard, hafter⟩ := State.after_poll_oracle h.quiet henv
  rw [h.step_ready (hheard ▸ hx), afterDrives, List.append_nil, ← State.after_after, hafter,
    closeDrives_eq_map, State.after_lines_oracle (by exact h.quiet) rfl]
  simp [State.waitDone, State.polled, State.put, waiterResponse]

/-- One step more than there are busy bytes, on the ready byte after them, ends the wait (R125). -/
theorem InWait.run_ready_oracle {busy : List (Byte × Byte)} {last : Byte × Byte}
    (hbusy : ∀ x ∈ busy, ready x.2 = false) (hlast : ready last.2 = true)
    (henv : s.env = .oracle (pollScript s.pollContinuous (busy ++ [last]) ++ rest) lines draws) :
    Sys2Proof.core.run (busy.length + 1) s =
      .next (s.polled (busy.flatMap (busyEvents s.params s.pollContinuous) ++
          (pollEvents s.params s.pollContinuous last ++ closeEvents s.pollContinuous))
        (busy.length + 1) (.oracle rest lines draws)).waitDone := by
  rw [pollScript_append, List.append_assoc] at henv
  rw [← State.polled_polled]
  exact (run_add (h.run_busy_oracle hbusy henv) 1).trans
    (run_succ ((h.polled _ _ _).step_ready_oracle hlast rfl) 0)

end

/-- WAIT_READY and `n` more steps are `n + 1` steps of the wait it starts. -/
theorem runAfter_waitReady {s : State} (hq : s.Quiet) (hs : s.CommandReady) (n : Nat) :
    runAfter n (exec .waitReady s) = Sys2Proof.core.run (n + 1) (s.waiting .done) := by
  have hexec : exec .waitReady s = .next (settle (waitReady .done) s) :=
    accepted_next (hs.misuse (.inr (.inl rfl))) _
  rw [hexec, run_succ (settle_waitReady hq hs.1 .done).symm]
  rfl

/-- WAIT_READY answered by busy bytes and a ready one, once its opening has added the events `opened`
(R125). -/
theorem waitReady_polls {s : State} (hq : s.Quiet) (hs : s.CommandReady) {busy : List (Byte × Byte)}
    {last : Byte × Byte} (hbusy : ∀ x ∈ busy, ready x.2 = false) (hlast : ready last.2 = true)
    {opened : List Event} {rest : List Answer} {lines : List (Option ErrCode)} {draws : Nat}
    (hopen : s.after (openDrives s.params s.pollContinuous) = s.put (s.trace ++ opened)
      (.oracle (pollScript s.pollContinuous (busy ++ [last]) ++ rest) lines draws)) :
    ∃ t, runAfter busy.length (exec .waitReady s) = .next t ∧ t.pollCount = busy.length + 1 ∧
      t.fsm = .idle ∧ t.pending = none ∧ t.env = .oracle rest lines draws ∧
      t.trace = s.trace ++ opened ++ (busy.flatMap (busyEvents s.params s.pollContinuous) ++
        (pollEvents s.params s.pollContinuous last ++ closeEvents s.pollContinuous)) ++
        [.resp .done] := by
  have henv : (s.waiting .done).env =
      .oracle (pollScript s.pollContinuous (busy ++ [last]) ++ rest) lines draws := by
    rw [State.waiting, hopen]
    rfl
  have htrace : (s.waiting .done).trace = s.trace ++ opened := by
    rw [State.waiting, hopen]
    rfl
  rw [runAfter_waitReady hq hs, (s.waiting_inWait hq .done).run_ready_oracle hbusy hlast henv]
  refine ⟨_, rfl, Nat.zero_add _, rfl, rfl, rfl, ?_⟩
  rw [← htrace]
  rfl

/-- In RESELECT mode a wait opens with its first poll. -/
theorem State.after_open_reselect {s : State} (hmode : s.pollContinuous = false) :
    s.after (openDrives s.params s.pollContinuous) = s.put (s.trace ++ []) s.env := by
  rw [hmode, List.append_nil]
  exact s.after_nil

/-- In CONTINUOUS mode a wait opens with the pulse and the opcode of its one transaction (R123). -/
theorem State.after_open_continuous {s : State} (hq : s.Quiet) (hmode : s.pollContinuous = true)
    {first : Byte} {as : List Answer} {lines : List (Option ErrCode)} {draws : Nat}
    (henv : s.env = .oracle (⟨first, none⟩ :: as) lines draws) :
    s.after (openDrives s.params s.pollContinuous) =
      s.put (s.trace ++ (pulseEvents s.params ++ [.xfer s.params.opStatus first]))
        (.oracle as lines draws) := by
  simp [hmode, openDrives, State.after, State.put, henv, Env.play_opcode_oracle hq.1]

/-- Settles O24: the polls are those of `waitReady_polls`, after an opening that drives nothing in
RESELECT mode and the frame of the one transaction in CONTINUOUS mode. -/
theorem waitCountsItsPolls : Obligations.WaitCountsItsPolls := by
  intro s lines draws rest hq hs
  refine ⟨fun busy last hmode hbusy hlast henv => ?_,
    fun first busy last hmode hbusy hlast henv => ?_⟩
  · have hopen := State.after_open_reselect hmode
    have hscript : pollScript s.pollContinuous (busy ++ [last]) = reselectScript (busy ++ [last]) := by
      rw [hmode]
      rfl
    rw [henv, ← hscript] at hopen
    obtain ⟨t, hrun, hcount, hf, hp, he, htrace⟩ := waitReady_polls hq hs hbusy hlast hopen
    refine ⟨t, hrun, hcount, hf, hp, he, ?_⟩
    rw [htrace, hmode, busyEvents_reselect]
    simp [pollEvents, closeEvents]
  · have hopen :=
      State.after_open_continuous (as := continuousScript (busy ++ [last]) ++ rest) hq hmode henv
    have hscript : pollScript s.pollContinuous (busy.map (Prod.mk 0) ++ [(0, last)]) =
        continuousScript (busy ++ [last]) := by
      simp [hmode, pollScript, Function.comp_def]
    rw [← hscript] at hopen
    have hbusy' : ∀ x ∈ busy.map (Prod.mk (0 : Byte)), ready x.2 = false :=
      List.forall_mem_map.2 hbusy
    obtain ⟨t, hrun, hcount, hf, hp, he, htrace⟩ :=
      waitReady_polls hq hs hbusy' (last := (0, last)) hlast hopen
    rw [List.length_map] at hrun hcount
    refine ⟨t, hrun, hcount, hf, hp, he, ?_⟩
    rw [htrace, hmode, busyEvents_continuous]
    simp [pollEvents, closeEvents, List.flatMap_map]

end Sys2Proof.Machine
end

section
/-! The five stream-arming operations in a quiet state (42_buffer_and_array_read.md). -/

namespace Sys2Proof.Machine

/-! ### Accepting a stream-arming operation -/

theorem legalFrom_of_armsStream {i : Instr} (hi : armsStream i = true) (f : Fsm)
    (hf : f = .idle ∨ f = .selectedBare) : legalFrom i f = true := by
  have hready : f.commandReady = true := Fsm.commandReady_iff.2 hf
  cases i with
  | bufWrite | bufRead | pageRead | contReadLow | contReadHigh => exact hready
  | _ => cases hi

theorem exec_of_armsStream {i : Instr} (hi : armsStream i = true) (s : State) :
    exec i s = accepted i (armStream (busFrame s.params i)) s := by
  cases i with
  | bufWrite | bufRead | pageRead | contReadLow | contReadHigh => rfl
  | _ => cases hi

/-- R104(a): a stream-arming operation with its operands in range drives its frame, answers DONE and
leaves a stream open. -/
theorem exec_armsStream {i : Instr} (hi : armsStream i = true) {s : State} (hq : s.Quiet)
    (hs : s.CommandReady) (hw : i.wellFormed s.params = true) :
    exec i s = .next (({ s.after (frameDrives s.params (busFrame s.params i)) with
      csN := false, fsm := .armedStream } : State).emit (.resp .done)) := by
  rw [exec_of_armsStream hi]
  exact accepted_ok (misuse_command hs (legalFrom_of_armsStream hi) hw) (armStream_quiet hq _)

/-! ### Their frames -/

/-- An offset-only address sends the unused page bits as zero (R78). -/
theorem addrO_eq (offset : Nat) :
    addrO offset = [0x00, trunc8 (offset >>> 8), trunc8 (offset &&& 0xFF)] := by
  have hpage : (0 <<< 2) ||| (offset >>> 8) = offset >>> 8 := Nat.zero_or _
  rw [addrO, addrPO, hpage]
  rfl

theorem Params.opcode_bufWrite (p : Params) (buf : Buffer) :
    p.opcode (.bufWrite buf) = if buf = .buffer1 then p.opBuf1Write else p.opBuf2Write := by
  cases buf <;> rfl

theorem Params.opcode_bufRead (p : Params) (buf : Buffer) :
    p.opcode (.bufRead buf) = if buf = .buffer1 then p.opBuf1Read else p.opBuf2Read := by
  cases buf <;> rfl

/-- BUF_WRITE sends its buffer's opcode and an offset-only address (R140). -/
theorem busFrame_bufWrite (p : Params) (buf : Buffer) (offset : Half) :
    busFrame p (.bufWrite buf offset) =
      [if buf = .buffer1 then p.opBuf1Write else p.opBuf2Write, 0x00,
        trunc8 (offset.toNat >>> 8), trunc8 (offset.toNat &&& 0xFF)] := by
  rw [busFrame, Params.opcode_bufWrite, addrO_eq]

/-- BUF_READ sends its buffer's opcode and an offset-only address, no don't-care byte (R142, R143). -/
theorem busFrame_bufRead (p : Params) (buf : Buffer) (offset : Half) :
    busFrame p (.bufRead buf offset) =
      [if buf = .buffer1 then p.opBuf1Read else p.opBuf2Read, 0x00,
        trunc8 (offset.toNat >>> 8), trunc8 (offset.toNat &&& 0xFF)] := by
  rw [busFrame, Params.opcode_bufRead, addrO_eq]

/-! ### The obligations -/

/-- Settles O16: both operations arm a stream (`exec_armsStream`) with the frames of `busFrame_bufWrite`
and `busFrame_bufRead`. -/
theorem bufferOperationsArmAStream : Obligations.BufferOperationsArmAStream := by
  intro s buf offset hq hs ho
  have hw : offsetInRange s.params offset = true := decide_eq_true ho
  constructor
  · rintro op rfl
    rw [exec_armsStream (i := .bufWrite buf offset) rfl hq hs hw, busFrame_bufWrite]
  · rintro op rfl
    rw [exec_armsStream (i := .bufRead buf offset) rfl hq hs hw, busFrame_bufRead]

/-- Settles O17: the three reads arm a stream (`exec_armsStream`); their frames are `addrPO` between the
opcode and the don't-care bytes by definition (R76). -/
theorem arrayReadsArmAStream : Obligations.ArrayReadsArmAStream := by
  rintro s page offset hq hs hp ho b0 b1 b2 rfl rfl rfl
  have hw : (pageInRange page && offsetInRange s.params offset) = true :=
    Bool.and_eq_true_iff.2 ⟨decide_eq_true (Nat.lt_succ_of_le hp), decide_eq_true ho⟩
  exact ⟨exec_armsStream (i := .pageRead page offset) rfl hq hs hw,
    exec_armsStream (i := .contReadLow page offset) rfl hq hs hw,
    exec_armsStream (i := .contReadHigh page offset) rfl hq hs hw⟩

end Sys2Proof.Machine
end

section
/-! The eight triggered operations in a quiet state, on a chip that is ready at the first status byte
(43_transfer_compare_erase.md). -/

namespace Sys2Proof.Machine

/-! ### Ready at the first status byte -/

/-- A triggered operation with its operands in range is over at once when the first status byte it hears is
ready (R160), whatever the environment (`Triggers.exec_ready` has it for the responder). -/
theorem exec_triggerEnd {s : State} (hq : s.Quiet) (hs : s.CommandReady) {i : Instr} {w : Waiter}
    (hi : usesSynchroniser i = true) (hw : i.wellFormed s.params = true)
    (hx : exec i s = accepted i (triggered (busFrame s.params i) w) s)
    (hready : ready (s.lastHeard (triggerDrives s.params (busFrame s.params i) ++
      firstPollDrives s.params s.pollContinuous)) = true) :
    exec i s = .next (s.triggerEnd (busFrame s.params i) w) :=
  hx.trans (accepted_ok (misuse_command hs (legalFrom_of_usesSynchroniser hi) hw)
    (triggered_ready hq _ w hready))

/-- After DONE's synchroniser nothing more is driven (R160). -/
theorem State.triggerEnd_done (s : State) (bytes : List Byte) :
    s.triggerEnd bytes .done =
      ({ s.after (triggerDrives s.params bytes ++ firstPollDrives s.params s.pollContinuous ++
          closeDrives s.pollContinuous) with
        csN := true, fsm := .idle, pollCount := 1 } : State).emit (.resp .done) := by
  simp only [State.triggerEnd, afterDrives, List.append_nil, waiterResponse]

/-- COMPARE answers bit 6, inverted, of the last byte it hears (R170). -/
theorem State.triggerEnd_compare (s : State) (bytes : List Byte) {ds : List Drive}
    (hds : ds = triggerDrives s.params bytes ++ firstPollDrives s.params s.pollContinuous ++
      closeDrives s.pollContinuous ++ statusDrives s.params) :
    s.triggerEnd bytes .compare =
      ({ s.after ds with csN := true, fsm := .idle, pollCount := 1 } : State).emit
        (.resp (.bool (!(s.lastHeard ds).getLsbD 6))) := by
  have hlast := State.lastHeard_append s (triggerDrives s.params bytes ++
    firstPollDrives s.params s.pollContinuous ++ closeDrives s.pollContinuous) _
    (State.heard_nextPoll _ s.params false rfl)
  rw [nextPollDrives, if_neg Bool.false_ne_true, ← hds] at hlast
  rw [hlast, hds]
  rfl

/-- What runs `triggered` and then answers DONE (R160). -/
theorem triggeredDone_of_accepted {s : State} (hq : s.Quiet) (hs : s.CommandReady) {i : Instr}
    {bytes : List Byte} (hi : usesSynchroniser i = true) (hw : i.wellFormed s.params = true)
    (hx : exec i s = accepted i (triggered (busFrame s.params i) .done) s)
    (hframe : busFrame s.params i = bytes) : TriggeredDone i s bytes := by
  subst hframe
  intro hready
  rw [exec_triggerEnd hq hs hi hw hx hready, State.triggerEnd_done]

/-- The operations of `triggerWaiter` that answer DONE. -/
theorem triggeredDone_of_triggerWaiter {s : State} (hq : s.Quiet) (hs : s.CommandReady) {i : Instr}
    {bytes : List Byte} (hi : triggerWaiter i = some .done) (hw : i.wellFormed s.params = true)
    (hframe : busFrame s.params i = bytes) : TriggeredDone i s bytes :=
  triggeredDone_of_accepted hq hs (usesSynchroniser_of_triggerWaiter hi) hw
    (exec_of_triggerWaiter hi s) hframe

/-! ### Their frames -/

/-- A page-only address sends the unused offset bits as zero (R78). -/
theorem addrP_eq (page : Nat) : addrP page = [trunc8 (page >>> 6), trunc8 (page <<< 2), 0x00] := by
  have hoffset : (page <<< 2) ||| (0 >>> 8) = page <<< 2 := Nat.or_zero _
  rw [addrP, addrPO, hoffset]
  rfl

theorem Params.opcode_bufToPageE (p : Params) (buf : Buffer) :
    p.opcode (.bufToPageE buf) = if buf = .buffer1 then p.opB1ToPageE else p.opB2ToPageE := by
  cases buf <;> rfl

theorem Params.opcode_bufToPageNE (p : Params) (buf : Buffer) :
    p.opcode (.bufToPageNE buf) = if buf = .buffer1 then p.opB1ToPageNE else p.opB2ToPageNE := by
  cases buf <;> rfl

theorem Params.opcode_pageToBuf (p : Params) (buf : Buffer) :
    p.opcode (.pageToBuf buf) = if buf = .buffer1 then p.opPageToB1 else p.opPageToB2 := by
  cases buf <;> rfl

theorem Params.opcode_compare (p : Params) (buf : Buffer) :
    p.opcode (.compare buf) = if buf = .buffer1 then p.opCompareB1 else p.opCompareB2 := by
  cases buf <;> rfl

/-! ### The obligations -/

/-- Settles O18: the four operations are over at once (`triggeredDone_of_triggerWaiter`); their frames are
an opcode and a page-only address (`addrP_eq`). -/
theorem pageOperationsComplete : Obligations.PageOperationsComplete := by
  rintro s buf page hq hs hp b0 b1 rfl rfl
  have hw : pageInRange page = true := decide_eq_true (Nat.lt_succ_of_le hp)
  refine ⟨triggeredDone_of_triggerWaiter hq hs rfl hw ?_, triggeredDone_of_triggerWaiter hq hs rfl hw ?_,
    triggeredDone_of_triggerWaiter hq hs rfl hw ?_, triggeredDone_of_triggerWaiter hq hs rfl hw ?_⟩
  · rw [busFrame, addrP_eq, Params.opcode_bufToPageE]
  · rw [busFrame, addrP_eq, Params.opcode_bufToPageNE]
  · rw [busFrame, addrP_eq, Params.opcode_pageToBuf]
  · rw [busFrame, addrP_eq, Params.opcode]

/-- Settles O19: block and sector erases are over at once (`triggeredDone_of_triggerWaiter`), the sector
address in the layout of its value (R80); CHIP_ERASE runs `triggered` because CFG permits it. -/
theorem largeErasesComplete : Obligations.LargeErasesComplete := by
  intro s unit hq hs
  refine ⟨fun hb => ?_, fun hlo hhi h10 h11 => ?_, fun h => ?_, fun hen => ?_⟩
  · have hw : blockInRange unit = true := decide_eq_true (Nat.lt_succ_of_le hb)
    exact triggeredDone_of_triggerWaiter hq hs rfl hw rfl
  · have hw : sectorInRange unit = true :=
      Bool.and_eq_true_iff.2 ⟨decide_eq_true hlo, decide_eq_true hhi⟩
    refine triggeredDone_of_triggerWaiter hq hs rfl hw ?_
    rw [busFrame, addrS, if_neg (not_or.2 ⟨h10, h11⟩)]
    rfl
  · have hw : sectorInRange unit = true :=
      Bool.and_eq_true_iff.2 ⟨decide_eq_true (by omega), decide_eq_true (by omega)⟩
    refine triggeredDone_of_triggerWaiter hq hs rfl hw ?_
    rw [busFrame, addrS, if_pos h]
    rfl
  · exact triggeredDone_of_accepted hq hs rfl rfl (exec_chipErase_enabled hen) rfl

/-- Settles O20: COMPARE is over at once, and its last byte is that of the extra status transaction
(`State.triggerEnd_compare`). -/
theorem compareReturnsInvertedBit : Obligations.CompareReturnsInvertedBit := by
  intro s page buf hq hs hp bytes hbytes hready ds hds
  have hw : pageInRange page = true := decide_eq_true (Nat.lt_succ_of_le hp)
  have hframe : busFrame s.params (.compare page buf) = bytes := by
    rw [hbytes, busFrame, addrP_eq, Params.opcode_compare]
  rw [← hframe] at hready hds
  rw [exec_triggerEnd (i := .compare page buf) hq hs rfl hw (exec_of_triggerWaiter rfl s) hready,
    State.triggerEnd_compare s _ hds]

/-- Settles O21: with the flag clear CHIP_ERASE is only its response (R177). -/
theorem chipEraseDisabledDoesNothing : Obligations.ChipEraseDisabledDoesNothing := by
  intro s hq hs hen
  have hact : chipEraseAct s = respond .disabled :=
    if_neg (show ¬ s.chipEraseEn = true from Bool.eq_false_iff.1 hen)
  have hrun : (chipEraseAct s).run s = .ok () (s.emit (.resp .disabled)) := by
    rw [hact, respond_quiet hq]
  exact accepted_ok (misuse_command hs (legalFrom_of_usesSynchroniser rfl) rfl) hrun

end Sys2Proof.Machine
end

section
/-! DEEP_POWER_DOWN, RESUME and HARD_RESET in a quiet state (44_power_reset.md). -/

namespace Sys2Proof.Machine

/-! ### Operations that send an opcode -/

/-- R16's rows for the operations that send an opcode. -/
theorem legalFrom_of_sendsOpcode {i : Instr} (hi : sendsOpcode i = true) (f : Fsm)
    (hf : f = .idle ∨ f = .selectedBare) : legalFrom i f = true := by
  have hready : f.commandReady = true := Fsm.commandReady_iff.2 hf
  cases i with
  | init | release | streamXfer | endStream | waitReady | hardReset | reserved => cases hi
  | _ => exact hready

theorem State.CommandReady.allows_of_sendsOpcode {s : State} (hs : s.CommandReady) {i : Instr}
    (hi : sendsOpcode i = true) : s.allows i = true := by
  obtain ⟨-, ha, hf⟩ := hs
  rw [State.allows, ha]
  exact legalFrom_of_sendsOpcode hi _ hf

/-! ### The obligations -/

/-- Settles O28: HARD_RESET runs `hardResetAct_quiet`. The state it leaves is ready for commands
(SELECTED_BARE) and has no stream open. -/
theorem hardResetOrdersItsEvents : Obligations.HardResetOrdersItsEvents := by
  rintro s t hq hs rfl
  have ⟨hp, ha, _⟩ := hs
  refine ⟨accepted_ok (misuse_command hs (fun _ => Fsm.commandReady_iff.2) rfl)
    (hardResetAct_quiet hq), fun i hi => ?_, fun tx => ?_⟩
  · refine State.CommandReady.allows_of_sendsOpcode ?_ hi
    exact ⟨hp, ha, .inr rfl⟩
  · exact exec_illegalState (by simp) hp (allows_streamXfer_eq_false (by simp) tx)

/-- Settles O27: both operations are accepted and run `frameAndDelay_quiet` on their opcode alone. -/
theorem powerOperationsDeselectAndDelay : Obligations.PowerOperationsDeselectAndDelay := fun _ hq hs =>
  ⟨accepted_ok (misuse_command hs (legalFrom_of_sendsOpcode rfl) rfl) (frameAndDelay_quiet hq _ _),
    accepted_ok (misuse_command hs (legalFrom_of_sendsOpcode rfl) rfl) (frameAndDelay_quiet hq _ _)⟩

end Sys2Proof.Machine
end

section
/-! Which operations are accepted, that nothing faults, and that the host is held off
(60_exceptions.md sections 1 and 3). -/

namespace Sys2Proof.Machine

/-! ### Accepted exactly when not misused -/

theorem misuse_eq_operationInProgress {i : Instr} {s : State} (hp : s.pending ≠ none) :
    misuse i s = some .operationInProgress := if_pos (Option.isSome_iff_ne_none.2 hp)

theorem ne_reserved_of_misuse_none {i : Instr} {s : State} (h : misuse i s = none) (o : BitVec 5) :
    i ≠ .reserved o := by
  rintro rfl
  obtain ⟨-, hallow, -⟩ := misuse_none.1 h
  simp [State.allows, isInit, legalFrom] at hallow

/-- An operation that is not misused runs its meaning. -/
theorem exec_of_misuse_none {i : Instr} {s : State} (h : misuse i s = none) :
    ∃ m, Runs s i m ∧ exec i s = .next (settle m s) := by
  obtain ⟨k, hk⟩ := exec_eq_accepted (ne_reserved_of_misuse_none h) s
  have hnext : exec i s = .next (settle k s) := hk.trans (accepted_next h k)
  obtain ⟨-, m, r, hm⟩ := exec_runs hnext
  exact ⟨m, r, by rw [hnext, hm]⟩

theorem exec_completes_iff {i : Instr} {s : State} :
    (∃ t, exec i s = .next t) ↔ misuse i s = none := by
  constructor
  · rintro ⟨t, h⟩
    exact (exec_runs h).1
  · intro h
    obtain ⟨m, -, hexec⟩ := exec_of_misuse_none h
    exact ⟨_, hexec⟩

/-- Settles O32: every operation that is not reserved is accepted or refused by `misuse`, whose branches
are the refusals in R216's order. -/
theorem refusedExactlyWhenMisused : Obligations.RefusedExactlyWhenMisused := fun _ _ hi =>
  ⟨exec_completes_iff.trans misuse_none,
    fun hp => (exec_eq_refused hi).2 (misuse_eq_operationInProgress hp),
    fun hp ha => exec_illegalState hi hp ha,
    fun hp ha hw => (exec_eq_refused hi).2 ((misuse_eq_operandOutOfRange hp ha).2 hw)⟩

/-! ### No faults -/

theorem exec_ne_fault (i : Instr) (s : State) (f : Fault) : exec i s ≠ .fault f := by
  by_cases hi : ∀ o, i ≠ .reserved o
  · obtain ⟨m, hm⟩ := exec_eq_accepted hi s
    rw [hm]
    exact accepted_ne_fault i m s f
  · simp only [ne_eq, not_forall, not_not] at hi
    obtain ⟨o, rfl⟩ := hi
    intro h
    cases h

/-- Settles O35: a step answers a next state itself or is the meaning of one operation, which is accepted
or refused (`exec_ne_fault`). -/
theorem nothingFaults : Obligations.NothingFaults := by
  refine ⟨exec_ne_fault, fun s f h => ?_⟩
  unfold step at h
  cases ha : nextAction s with
  | accept r rest => exact exec_ne_fault _ _ f (by simpa [ha] using h)
  | reset | poll | wait => simp [ha] at h

/-! ### The host port -/

theorem head?_ne_zero_of_resets_eq_nil {s : State} (hs : s.resets = []) : s.resets.head? ≠ some 0 := by
  simp [hs]

/-- Settles O45: while an operation is in progress a step is a poll, which no reset cuts short
(`Whole.settle_onward`); with nothing in progress and nothing offered it waits. -/
theorem hostIsHeldOff : Obligations.HostIsHeldOff := by
  intro s hs
  have hr := head?_ne_zero_of_resets_eq_nil hs
  constructor
  · intro hp
    obtain ⟨w, hw⟩ := Option.ne_none_iff_exists'.1 hp
    have hstep : step s = .next (resumeWait w s) := by rw [step, nextAction_poll hr hw]
    refine ⟨resumeWait w s, hstep, ?_⟩
    obtain ⟨u, evs, o, hu | ⟨c, hu⟩⟩ :=
      (pollOnce_whole w).settle_onward (s := { s with pending := none }) hs <;>
    · rw [resumeWait, hu]
      exact ⟨o.host, o.opsel, o.a, o.b, o.buf, o.txd, o.cfgIn⟩
  · intro hp hh
    rw [step, nextAction_wait hr hp hh]

end Sys2Proof.Machine
end

section
/-! How an operation begins: with a run of lines, with its frame, or with its frame and another run of
lines. -/

namespace Sys2Proof.Machine

/-! ### Runs of lines -/

/-- Pieces that run alike from a state run alike before the same rest. -/
theorem bind_run_congr {α β : Type} {m m' : Act α} {s : State} (h : m.run s = m'.run s)
    (k : α → Act β) : (m >>= k).run s = (m' >>= k).run s := by
  rw [run_bind_eq, run_bind_eq, h]

theorem lineSeq_nil_bind {α : Type} (k : Unit → Act α) : (lineSeq [] >>= k) = k () := pure_bind _ _

theorem lineSeq_cons_bind {α : Type} (ev : Event) (evs : List Event) (k : Unit → Act α) :
    (lineSeq (ev :: evs) >>= k) =
      (lineOp ev (fun s => s.latch ev) >>= fun _ => lineSeq evs >>= k) := bind_assoc _ _ _

/-- A run of lines keeps what looks at no pin. -/
theorem lineSeq_keeps {β : Type} {f : State → β}
    (hmoved : ∀ s e tr r, f { s with env := e, trace := tr, resets := r } = f s)
    (hlatch : ∀ s ev, f (State.latch s ev) = f s) (evs : List Event) : Keeps f (lineSeq evs) := by
  induction evs with
  | nil => exact Keeps.pure _
  | cons ev evs ih => exact (Keeps.lineOp hmoved fun s => hlatch s ev).bind fun _ => ih

/-- The lines of INIT (R100). -/
def initLines : List Event := [.pins true, .cs true, .rst true, .wp true]

/-- INIT: four lines, the latches, the response (R100). -/
theorem initAct_eq (cfg : BitVec 2) :
    initAct cfg = (lineSeq initLines >>= fun _ => do
      modify fun s => { s with cfg := cfg, fsm := .idle, aborted := false }
      respond .done) := by
  simp only [initLines, lineSeq_cons_bind, lineSeq_nil_bind]
  rfl

/-- RELEASE and END_STREAM: one line (R101, R107). -/
theorem deselect_eq (f : Fsm) :
    (do csDeassert; setFsm f; respond .done : Act Unit) =
      (lineSeq [.cs true] >>= fun _ => do setFsm f; respond .done) := by
  simp only [lineSeq_cons_bind, lineSeq_nil_bind]
  rfl

/-- HARD_RESET: its six lines (R196). -/
theorem hardResetAct_eq (p : Params) :
    hardResetAct p = (lineSeq (firstLines p .hardReset) >>= fun _ => do
      setFsm .selectedBare
      respond .done) := by
  simp only [firstLines, lineSeq_cons_bind, lineSeq_nil_bind]
  rfl

/-! ### Beginning with a frame -/

theorem sendsOpcode_of_armsStream {i : Instr} (h : armsStream i = true) : sendsOpcode i = true := by
  cases i with
  | bufWrite | bufRead | pageRead | contReadLow | contReadHigh => rfl
  | _ => cases h

theorem sendsOpcode_of_triggerWaiter {i : Instr} {w : Waiter} (h : triggerWaiter i = some w) :
    sendsOpcode i = true := by
  cases i <;> cases h <;> rfl

/-- What a status transaction does after its frame (R121). -/
def statusEnd (p : Params) : Act Byte := do
  let b ← xfer p.fill
  csDeassert
  return b

/-- A status transaction begins with its frame. -/
theorem statusTxn_bind_run {α : Type} (k : Byte → Act α) (s : State) :
    (statusTxn >>= k).run s =
      (frame [s.params.opcode .status] >>= fun _ => statusEnd s.params >>= k).run s := by
  rw [← bind_assoc]
  exact bind_run_congr (run_bind (getParams_run s) rfl) k

theorem chipEraseAct_enabled {s : State} (hen : s.cfg.getLsbD 0 = true) :
    chipEraseAct s = triggered (busFrame s.params .chipErase) .done := if_pos hen

/-- An operation that sends an opcode begins with its frame (R102), CHIP_ERASE where it is enabled. -/
theorem Runs.begins_with_frame {i : Instr} {m : Act Unit} {s : State} (r : Runs s i m)
    (hi : sendsOpcode i = true) (hen : i = .chipErase → s.cfg.getLsbD 0 = true) :
    ∃ k, m.run s = (frame (busFrame s.params i) >>= k).run s := by
  cases r with
  | init | release | streamXfer | endStream | waitReady | hardReset => cases hi
  | statusRead => exact ⟨_, statusTxn_bind_run _ s⟩
  | idRead => exact ⟨_, run_bind (getParams_run s) rfl⟩
  | arm _ => exact ⟨_, rfl⟩
  | trigger _ => exact ⟨_, rfl⟩
  | chipErase =>
    rw [chipEraseAct_enabled (hen rfl)]
    exact ⟨_, rfl⟩
  | deepPowerDown | resume => exact ⟨_, rfl⟩

/-- The first turn of the synchroniser's loop begins with a frame in either mode (R123). -/
theorem firstPoll_begins_with_frame (w : Waiter) (s : State) :
    ∃ bytes k, (openStatus >>= fun _ => pollOnce w).run s = (frame bytes >>= k).run s := by
  by_cases hc : s.pollContinuous = true
  · have hopen : openStatus.run s = (frame [s.params.opcode .status]).run s :=
      run_bind (get_run s) (by rw [if_pos hc])
    exact ⟨_, _, bind_run_congr hopen _⟩
  · have hopen : openStatus.run s = .ok () s := run_bind (get_run s) (by rw [if_neg hc, pure_run])
    have hpoll : (pollOnce w).run s = (pollReselect w).run s :=
      run_bind (get_run s) (by rw [if_neg hc])
    exact ⟨_, _, run_bind hopen (hpoll.trans (statusTxn_bind_run _ s))⟩

/-- WAIT_READY begins with the frame of its first status transaction, in BUSY_WAIT (R123). -/
theorem waitReady_begins_with_frame (w : Waiter) (s : State) :
    ∃ bytes k, (waitReady w).run s =
      (frame bytes >>= k).run { s with fsm := .busyWait, pollCount := 0 } := by
  obtain ⟨bytes, k, hk⟩ := firstPoll_begins_with_frame w { s with fsm := .busyWait, pollCount := 0 }
  exact ⟨bytes, k, run_bind (startWait_run s) hk⟩

/-- A frame begins with the lines of its pulse. -/
theorem frame_begins_with_lines {α : Type} (bytes : List Byte) (k : Unit → Act α) (s : State) :
    (frame bytes >>= k).run s =
      (lineSeq (pulseEvents s.params) >>= fun _ => (do enterFraming; sendBytes bytes) >>= k).run s := by
  rw [frame, bind_assoc]
  exact bind_run_congr (pulse_eq_lineSeq s) _

/-! ### Beginning with lines -/

/-- The state in which the first primitive of an operation finds the block (R123). -/
def State.entering (s : State) (i : Instr) : State :=
  if i = .waitReady then { s with fsm := .busyWait, pollCount := 0 } else s

theorem entering_of_ne {i : Instr} (hi : i ≠ .waitReady) (s : State) : s.entering i = s := if_neg hi

theorem firstLines_of_sendsOpcode {i : Instr} (hi : sendsOpcode i = true) (p : Params) :
    firstLines p i = pulseEvents p := by
  cases i with
  | init | release | streamXfer | endStream | waitReady | hardReset | reserved => cases hi
  | _ => rfl

/-- An operation begins with its first lines. -/
theorem Runs.begins_with_lines {i : Instr} {m : Act Unit} {s : State} (r : Runs s i m)
    (hen : i = .chipErase → s.cfg.getLsbD 0 = true) :
    ∃ k, m.run s = (lineSeq (firstLines s.params i) >>= k).run (s.entering i) := by
  by_cases hi : sendsOpcode i = true
  · have hne : i ≠ .waitReady := by
      rintro rfl
      cases hi
    obtain ⟨k, hk⟩ := r.begins_with_frame hi hen
    rw [firstLines_of_sendsOpcode hi, entering_of_ne hne, hk, frame_begins_with_lines]
    exact ⟨_, rfl⟩
  cases r with
  | init cfg =>
    rw [initAct_eq]
    exact ⟨_, rfl⟩
  | release | endStream =>
    rw [deselect_eq]
    exact ⟨_, rfl⟩
  | streamXfer tx =>
    rw [firstLines]
    simp only [lineSeq_nil_bind]
    exact ⟨fun _ => _, rfl⟩
  | waitReady =>
    obtain ⟨bytes, k, hk⟩ := waitReady_begins_with_frame .done s
    rw [hk, frame_begins_with_lines]
    exact ⟨_, rfl⟩
  | hardReset =>
    rw [hardResetAct_eq]
    exact ⟨_, rfl⟩
  | arm ha => exact absurd (sendsOpcode_of_armsStream ha) hi
  | trigger ht => exact absurd (sendsOpcode_of_triggerWaiter ht) hi
  | statusRead | idRead | chipErase | deepPowerDown | resume => exact absurd rfl hi

/-! ### Lines after the frame -/

/-- `m` is the frame of `bytes`, then the lines `evs`, then something else. -/
def FrameThenLines (s : State) (bytes : List Byte) (evs : List Event) (m : Act Unit) : Prop :=
  ∃ j : Act Unit, m = (frame bytes >>= fun _ => j) ∧
    ∀ v : State, v.params = s.params → ∃ k, j.run v = (lineSeq evs >>= k).run v

theorem triggered_frameThenLines (s : State) (bytes : List Byte) (w : Waiter) :
    FrameThenLines s bytes (pulseEvents s.params) (triggered bytes w) :=
  ⟨_, rfl, fun v hv => ⟨_, hv ▸ bind_run_congr (pulse_eq_lineSeq v) _⟩⟩

theorem frameAndDelay_frameThenLines (s : State) (bytes : List Byte) (n : Nat) :
    FrameThenLines s bytes [.cs true, .delayUs n] (frameAndDelay bytes n) := by
  refine ⟨_, rfl, fun v _ => ⟨fun _ => do setFsm .idle; respond .done, ?_⟩⟩
  simp only [lineSeq_cons_bind, lineSeq_nil_bind]
  rfl

theorem linesAfterFrame_of_triggerWaiter {i : Instr} {w : Waiter} (h : triggerWaiter i = some w)
    (p : Params) : linesAfterFrame p i = pulseEvents p := by
  cases i <;> cases h <;> rfl

theorem linesAfterFrame_of_armsStream {i : Instr} (h : armsStream i = true) (p : Params) :
    linesAfterFrame p i = [] := by
  cases i with
  | bufWrite | bufRead | pageRead | contReadLow | contReadHigh => rfl
  | _ => cases h

/-- An operation with lines after its frame: a triggered or a power operation. -/
theorem Runs.frameThenLines {i : Instr} {m : Act Unit} {s : State} (r : Runs s i m)
    (hen : i = .chipErase → s.cfg.getLsbD 0 = true) (hne : linesAfterFrame s.params i ≠ []) :
    FrameThenLines s (busFrame s.params i) (linesAfterFrame s.params i) m := by
  cases r with
  | init | release | streamXfer | endStream | statusRead | waitReady | idRead | hardReset =>
    exact absurd rfl hne
  | arm ha => exact absurd (linesAfterFrame_of_armsStream ha _) hne
  | trigger ht =>
    rw [linesAfterFrame_of_triggerWaiter ht]
    exact triggered_frameThenLines s _ _
  | chipErase =>
    rw [chipEraseAct_enabled (hen rfl)]
    exact triggered_frameThenLines s _ _
  | deepPowerDown | resume => exact frameAndDelay_frameThenLines s _ _

end Sys2Proof.Machine
end

section
/-! Operations that a transport error ends, and INIT as the way back (60_exceptions.md sections 1 and 4:
R212, R219). -/

namespace Sys2Proof.Machine

/-! ### An operation that runs to its end leaves no error mark -/

theorem State.aborted_steady : Steady State.aborted := by
  constructor
  · constructor <;> intros <;> rfl
  · intros; rfl
  · intros; rfl

/-- Nothing but INIT and a transport error touches the mark. -/
theorem Runs.keeps_aborted {i : Instr} {m : Act Unit} {s : State} (r : Runs s i m)
    (hi : ∀ c, i ≠ .init c) : Keeps State.aborted m :=
  r.keeps State.aborted_steady.toStill (fun _ => State.aborted_steady) (fun c hc => absurd hc (hi c))
    fun _ => State.aborted_steady.toStill.hardResetAct (fun _ _ => rfl) _

/-- Of the operations only INIT is allowed while the mark is set, and INIT clears it (R212). -/
theorem Runs.aborted_of_ok {i : Instr} {m : Act Unit} {s t : State} (r : Runs s i m)
    (hallow : s.allows i = true) (h : m.run s = .ok () t) : t.aborted = false := by
  by_cases hi : ∀ c, i ≠ .init c
  · have hkeep := r.keeps_aborted hi s
    rw [h] at hkeep
    exact hkeep.trans (initialised_of_allows hi hallow).1
  · simp only [ne_eq, not_forall, not_not] at hi
    obtain ⟨c, rfl⟩ := hi
    cases r with
    | init =>
      obtain ⟨_, _, _, rfl⟩ := initAct_ok h
      rfl
    | arm ha => cases ha
    | trigger ht => cases ht

/-! ### What a transport error leaves -/

/-- From `s` to `t` a transport error has ended an operation (R212). -/
def EndedByError (s t : State) : Prop :=
  s.params.hasXferErr = true ∧
    ∃ code evs, t.faults = s.faults ++ [.transportError code] ∧
      t.trace = s.trace ++ evs ++ [.resp (.xferError code)] ∧ (∀ e ∈ evs, isResp e = false) ∧
      t.pending = none

/-- Where running to the end leaves no mark, the mark is there because of an error. -/
theorem Whole.endedByError {m : Act Unit} (h : Whole m) {s : State} (hs : s.resets = [])
    (hp : s.pending = none) (hok : ∀ t, m.run s = .ok () t → t.aborted = false)
    (hab : (settle m s).aborted = true) : EndedByError s (settle m s) := by
  rcases hr : m.run s with ⟨_, t⟩ | ⟨code | _, t⟩
  · rw [settle_ok hr, hok t hr] at hab
    cases hab
  · obtain ⟨evs, cut⟩ := h.error hr
    rw [settle_error hr]
    refine ⟨cut.transport code rfl, code, evs, ?_, ?_, cut.silent, cut.pending.trans hp⟩
    · rw [transportAbort_faults, cut.faults]
    · rw [transportAbort_trace, cut.trace]
  · exact absurd hr (h.ne_blockReset hs t)

theorem exec_endedByError {i : Instr} {s t : State} (hs : s.resets = []) (h : exec i s = .next t)
    (hab : t.aborted = true) : EndedByError s t := by
  obtain ⟨hm, m, r, rfl⟩ := exec_runs h
  obtain ⟨hp, hallow, -⟩ := misuse_none.1 hm
  exact r.whole.endedByError hs hp (fun _ => r.aborted_of_ok hallow) hab

theorem resumeWait_endedByError {w : Waiter} {s : State} (hs : s.resets = [])
    (hclear : s.aborted = false) (hab : (resumeWait w s).aborted = true) :
    EndedByError s (resumeWait w s) := by
  refine (pollOnce_whole w).endedByError (s := { s with pending := none }) hs rfl (fun t ht => ?_) hab
  have hkeep := State.aborted_steady.pollOnce w { s with pending := none }
  rw [ht] at hkeep
  exact hkeep.trans hclear

/-- Settles O36: an operation or a poll that runs to its end leaves no error mark, so it was cut short
(`Whole.endedByError`). -/
theorem transportErrorEndsOperation : Obligations.TransportErrorEndsOperation := by
  rintro s t hs (⟨i, h⟩ | ⟨hpend, hclear, h⟩) hab
  · exact exec_endedByError hs h hab
  · cases step_stepped h with
    | reset hr _ => simp [hs] at hr
    | accept _ _ _ hp => exact absurd hp hpend
    | wait _ hp => exact absurd hp hpend
    | poll w _ _ ht =>
      subst ht
      exact resumeWait_endedByError hs hclear hab

/-! ### INIT after a transport error -/

/-- While the mark is set only INIT is allowed (R212). -/
theorem allows_of_aborted {s : State} (h : s.aborted = true) (i : Instr) : s.allows i = isInit i :=
  if_pos h

theorem isInit_eq_false {i : Instr} (hi : ∀ c, i ≠ .init c) : isInit i = false := by
  cases i with
  | init c => exact absurd rfl (hi c)
  | _ => rfl

theorem misuse_init_of_aborted {s : State} (h : s.aborted = true) (hp : s.pending = none)
    (cfg : BitVec 2) : misuse (.init cfg) s = none :=
  misuse_none.2 ⟨hp, allows_of_aborted h _, rfl⟩

/-- With no reset on its way the response is given. -/
theorem respond_run {s : State} (h : s.resets = []) (r : Response) :
    (respond r).run s = .ok () (s.emit (.resp r)) := by
  have htick : tick.run s = .ok () s := by simp [EStateM.run, tick, h]
  exact run_bind htick (modify_run _ _)

/-- Giving the response reports no error. -/
theorem respond_ne_transport (r : Response) (s t : State) (code : ErrCode) :
    (respond r).run s ≠ .error (.transport code) t := by
  rcases hr : s.resets with - | ⟨- | n, rest⟩ <;>
    simp [respond, tick, EStateM.run, bind, EStateM.bind, hr, modify, modifyGet,
      MonadStateOf.modifyGet, EStateM.modifyGet]

/-- INIT changes FSM and CFG after its last line only, and so not if one of them fails. -/
theorem initAct_error_keeps {cfg : BitVec 2} {s t : State} {code : ErrCode}
    (h : (initAct cfg).run s = .error (.transport code) t) : t.fsm = s.fsm ∧ t.cfg = s.cfg := by
  rw [initAct_eq, run_bind_eq] at h
  rcases hl : (lineSeq initLines).run s with ⟨_, u⟩ | ⟨_, u⟩ <;>
    rw [hl] at h
  · exact absurd h (respond_ne_transport _ _ _ _)
  · cases h
    have hkeep := lineSeq_keeps (f := fun s => (s.fsm, s.cfg)) (fun _ _ _ _ => rfl)
      (fun _ ev => by cases ev <;> rfl) initLines s
    simpa [hl, finalState] using hkeep

/-- INIT whose four lines do not fail (R100). -/
theorem initAct_answers {s : State} {as : List Answer} {ls : List (Option ErrCode)} {n : Nat}
    (h : Scripted s as (none :: none :: none :: none :: ls) n) (cfg : BitVec 2) :
    (initAct cfg).run s = .ok () { s with
      pinsEn := true, csN := true, resetN := true, wpN := true
      cfg := cfg, fsm := .idle, aborted := false, env := .oracle as ls n
      trace := s.trace ++ [.pins true, .cs true, .rst true, .wp true, .resp .done] } := by
  rw [initAct_eq]
  refine run_bind (lineSeq_answers initLines h) ?_
  refine run_bind (modify_run _ _) ((respond_run (by exact h.calm) _).trans ?_)
  simp [initLines, State.drove, State.put, State.latch, State.emit]

/-- Settles O37: the mark allows INIT only; INIT runs to its end (`initAct_ok`) or a line of it fails
(`initAct_error_keeps`), and with four good lines it is `initAct_answers`. -/
theorem onlyInitAfterTransportError : Obligations.OnlyInitAfterTransportError := by
  intro s hab hp
  refine ⟨fun i hinit hres => ?_, fun cfg t hs h => ?_, fun cfg as ls n hs herr henv => ?_⟩
  · exact exec_illegalState hres hp ((allows_of_aborted hab i).trans (isInit_eq_false hinit))
  · obtain ⟨-, rfl⟩ := accepted_eq_next.1 h
    rcases hr : (initAct cfg).run s with ⟨_, u⟩ | ⟨code | _, u⟩
    · rw [settle_ok hr]
      obtain ⟨_, _, _, rfl⟩ := initAct_ok hr
      exact .inl ⟨rfl, rfl, rfl, rfl⟩
    · rw [settle_error hr]
      obtain ⟨hfsm, hcfg⟩ := initAct_error_keeps hr
      exact .inr ⟨rfl, hfsm, hcfg⟩
    · exact absurd hr ((initAct_whole cfg).ne_blockReset hs u)
  · exact accepted_ok (misuse_init_of_aborted hab hp cfg) (initAct_answers ⟨herr, hs, henv⟩ cfg)

end Sys2Proof.Machine
end

section
/-! Operations in which a transfer or a line fails, on scripted answers (60_exceptions.md section 1:
R212). -/

namespace Sys2Proof.Machine

section
variable {as : List Answer} {ls : List (Option ErrCode)} {n : Nat} {c : ErrCode}

/-! ### A failing transfer -/

/-- `s` after the pulse of a frame and the transfers of `bytes`, answered by `rx` (R103). -/
def State.inFrame (s : State) (bytes rx : List Byte) (e : Env) : State :=
  ({ s with csN := false, fsm := .framing } : State).put
    (s.trace ++ pulseEvents s.params ++ List.zipWith .xfer bytes rx) e

theorem State.CommandReady.fsm_ne_busyWait {s : State} (hs : s.CommandReady) : s.fsm ≠ .busyWait := by
  obtain ⟨-, -, hf | hf⟩ := hs <;> simp [hf]

/-- A transfer in the frame fails: the ones before it stand. -/
theorem Runs.settle_frame_fails {i : Instr} {m : Act Unit} {s : State} (run : Runs s i m)
    (hi : sendsOpcode i = true) (hen : i = .chipErase → s.cfg.getLsbD 0 = true)
    (hf : s.fsm ≠ .busyWait) {pre post rx : List Byte} {b r : Byte}
    (hsent : busFrame s.params i = pre ++ b :: post) (hl : rx.length = pre.length)
    (h : Scripted s (goodAnswers rx ++ ⟨r, some c⟩ :: as)
      (List.replicate (pulseEvents s.params).length none ++ ls) n) :
    settle m s = transportAbort c (s.inFrame pre rx (.oracle as ls n)) := by
  obtain ⟨k, hk⟩ := run.begins_with_frame hi hen
  rw [hsent] at hk
  exact settle_error (hk.trans (bind_error (frame_fails hf pre rx hl h) k))

/-- The transfer of FILL after the frame of STATUS_READ fails. -/
theorem settle_statusRead_fill_fails {s : State} (hf : s.fsm ≠ .busyWait) {rx : List Byte} {r : Byte}
    (hl : rx.length = (busFrame s.params .statusRead).length)
    (h : Scripted s (goodAnswers rx ++ ⟨r, some c⟩ :: as)
      (List.replicate (pulseEvents s.params).length none ++ ls) n) :
    settle statusReadAct s =
      transportAbort c (s.inFrame (busFrame s.params .statusRead) rx (.oracle as ls n)) := by
  refine settle_error ((statusTxn_bind_run _ s).trans (run_bind (frame_answers hf _ rx hl h) ?_))
  refine bind_error (bind_error (xfer_fails (as := as) (r := r) ?_ _) _) _
  exact ⟨h.errs, h.calm, rfl⟩

/-- A byte among those STATUS_READ sends is in its frame or after it. -/
theorem statusRead_sends {p : Params} {pre post : List Byte} {b : Byte}
    (h : busFrame p .statusRead ++ [p.fill] = pre ++ b :: post) :
    (∃ post', busFrame p .statusRead = pre ++ b :: post') ∨ pre = busFrame p .statusRead := by
  rcases pre with - | ⟨x, - | ⟨y, pre⟩⟩
  · obtain ⟨rfl, -⟩ := List.cons.inj h
    exact .inl ⟨[], rfl⟩
  · obtain ⟨rfl, -⟩ := List.cons.inj h
    exact .inr rfl
  · simp [busFrame] at h

/-- A transfer in the frame, or that of FILL after the frame of STATUS_READ, fails. -/
theorem Runs.settle_transfer_fails {i : Instr} {m : Act Unit} {s : State} (run : Runs s i m)
    (hi : sendsOpcode i = true) (hen : i = .chipErase → s.cfg.getLsbD 0 = true)
    (hf : s.fsm ≠ .busyWait) {pre post rx : List Byte} {b r : Byte}
    (hsent : busFrame s.params i ++ (if i = .statusRead then [s.params.fill] else []) = pre ++ b :: post)
    (hl : rx.length = pre.length)
    (h : Scripted s (goodAnswers rx ++ ⟨r, some c⟩ :: as)
      (List.replicate (pulseEvents s.params).length none ++ ls) n) :
    settle m s = transportAbort c (s.inFrame pre rx (.oracle as ls n)) := by
  by_cases hstatus : i = .statusRead
  · subst hstatus
    rcases statusRead_sends hsent with ⟨post', hframe⟩ | rfl
    · exact run.settle_frame_fails hi hen hf hframe hl h
    · cases run with
      | statusRead => exact settle_statusRead_fill_fails hf hl h
      | arm ha => cases ha
      | trigger ht => cases ht
  · rw [if_neg hstatus, List.append_nil] at hsent
    exact run.settle_frame_fails hi hen hf hsent hl h

/-! ### A failing line -/

/-- What a transport error leaves after some lines: pins as those lines drove them. -/
theorem transportAbort_drove (s : State) (evs : List Event) (e : Env) :
    transportAbort c (s.drove evs e) =
      { evs.foldl State.latch s with
        aborted := true, env := e, faults := s.faults ++ [.transportError c]
        trace := s.trace ++ evs ++ [.resp (.xferError c)] } := by
  have hfaults : (evs.foldl State.latch s).faults = s.faults :=
    foldl_latch_keeps State.faults (fun _ ev => by cases ev <;> rfl) evs s
  rw [transportAbort, State.drove, State.put, hfaults]

theorem Scripted.entering {s : State} (h : Scripted s as ls n) (i : Instr) :
    Scripted (s.entering i) as ls n := by
  unfold State.entering
  split
  · exact ⟨h.errs, h.calm, h.script⟩
  · exact h

theorem entering_trace (s : State) (i : Instr) : (s.entering i).trace = s.trace := by
  unfold State.entering
  split <;> rfl

theorem entering_faults (s : State) (i : Instr) : (s.entering i).faults = s.faults := by
  unfold State.entering
  split <;> rfl

/-- One of the first lines fails: the ones before it stand. -/
theorem Runs.settle_firstLine_fails {i : Instr} {m : Act Unit} {s : State} (r : Runs s i m)
    (hen : i = .chipErase → s.cfg.getLsbD 0 = true) {pre post : List Event} {ev : Event}
    (hl : firstLines s.params i = pre ++ ev :: post)
    (h : Scripted s as (List.replicate pre.length none ++ some c :: ls) n) :
    settle m s = transportAbort c ((s.entering i).drove pre (.oracle as ls n)) := by
  obtain ⟨k, hk⟩ := r.begins_with_lines hen
  rw [hl] at hk
  exact settle_error (hk.trans (bind_error (lineSeq_fails pre (h.entering i)) k))

/-- One of the lines after the frame fails: the frame and the lines before it stand. -/
theorem FrameThenLines.settle_fails {s : State} {bytes : List Byte} {m : Act Unit}
    {pre post : List Event} {ev : Event} (hm : FrameThenLines s bytes (pre ++ ev :: post) m) (hf : s.fsm ≠ .busyWait)
    {rx : List Byte} (hl : rx.length = bytes.length)
    (h : Scripted s (goodAnswers rx ++ as)
      (List.replicate (pulseEvents s.params).length none ++
        (List.replicate pre.length none ++ some c :: ls)) n) :
    settle m s = transportAbort c ((s.inFrame bytes rx (.oracle as
      (List.replicate pre.length none ++ some c :: ls) n)).drove pre (.oracle as ls n)) := by
  obtain ⟨j, rfl, hj⟩ := hm
  have hlines : ∀ v : State, v.params = s.params →
      Scripted v as (List.replicate pre.length none ++ some c :: ls) n →
      j.run v = .error (.transport c) (v.drove pre (.oracle as ls n)) := fun v hv hscript => by
    obtain ⟨k, hk⟩ := hj v hv
    exact hk.trans (bind_error (lineSeq_fails pre hscript) k)
  refine settle_error (run_bind (frame_answers hf bytes rx hl h) (hlines _ rfl ?_))
  exact ⟨h.errs, h.calm, rfl⟩

/-- In an accepted operation with lines after its frame FSM is not BUSY_WAIT (R16). -/
theorem fsm_ne_busyWait_of_allows {s : State} {i : Instr} (hallow : s.allows i = true)
    (hne : linesAfterFrame s.params i ≠ []) : s.fsm ≠ .busyWait := by
  have hi : ∀ c, i ≠ .init c := by
    rintro c rfl
    exact hne rfl
  obtain ⟨-, hf | hf | hf⟩ := initialised_of_allows hi hallow <;> simp [hf]

end

/-! ### The obligations -/

/-- Settles O38: the operation is accepted, and its transfer fails as `Runs.settle_transfer_fails`
says. -/
theorem failedTransferKeepsLatches : Obligations.FailedTransferKeepsLatches := by
  intro s i pre post rx b r code rest lines draws herr hres hs hw hi hen hsent hl henv
  obtain ⟨m, run, hexec⟩ := exec_of_misuse_none (misuse_command hs (legalFrom_of_sendsOpcode hi) hw)
  rw [hexec, run.settle_transfer_fails hi hen hs.fsm_ne_busyWait hsent hl ⟨herr, hres, henv⟩]
  rfl

/-- Settles O59: the operation begins with its first lines (`Runs.begins_with_lines`), and goes on after
its frame with the lines of `Runs.frameThenLines`. -/
theorem failedLineKeepsLatches : Obligations.FailedLineKeepsLatches := by
  intro s i pre post ev code rest lines draws herr hres hp hallow hw hen
  obtain ⟨m, run, hexec⟩ := exec_of_misuse_none (misuse_none.2 ⟨hp, hallow, hw⟩)
  rw [hexec]
  constructor
  · rintro hl henv u rfl
    rw [run.settle_firstLine_fails hen hl ⟨herr, hres, henv⟩, transportAbort_drove, entering_trace,
      entering_faults]
    rfl
  · rintro hl rx sent hrx rfl henv
    have hne : linesAfterFrame s.params i ≠ [] := by simp [hl]
    rw [List.length_append, List.replicate_add, List.append_assoc] at henv
    have hlines := run.frameThenLines hen hne
    rw [hl] at hlines
    rw [hlines.settle_fails (fsm_ne_busyWait_of_allows hallow hne) hrx ⟨herr, hres, henv⟩,
      transportAbort_drove, State.inFrame, foldl_latch_put]
    simp [State.put]

end Sys2Proof.Machine
end

section
/-! The block's reset input (70_reset_and_hazards.md section 1: R240): it leaves every state, and it cuts
an operation short without a response. -/

namespace Sys2Proof.Machine

/-! ### Leaving any state -/

theorem step_reset {s : State} (hr : s.resets.head? = some 0) : step s = .next (blockReset s) := by
  simp only [step, nextAction_reset hr]

/-- Settles O30: the next step is block reset (`step_reset`), and its fields are those stated. -/
theorem blockResetLeavesAnyWait : Obligations.BlockResetLeavesAnyWait := by
  intro s rest hs
  exact ⟨blockReset s, step_reset (by simp [hs]), rfl, rfl, rfl, rfl, rfl, by simp [hs], rfl, rfl, rfl⟩

/-! ### Cutting an operation short -/

/-- From `s` to `t` the block emitted `n` events, none of them a response, and then was reset. -/
def CutByReset (s t : State) (n : Nat) : Prop :=
  t.fsm = .uninit ∧ t.pinsEn = false ∧ t.cfg = 0 ∧ t.pollCount = 0 ∧ t.pending = none ∧
    ∃ evs, t.trace = s.trace ++ evs ∧ evs.length = n ∧ ∀ e ∈ evs, isResp e = false

theorem cutByReset_blockReset {s u : State} {evs : List Event} (htrace : u.trace = s.trace ++ evs)
    (hsilent : ∀ e ∈ evs, isResp e = false) : CutByReset s (blockReset u) evs.length :=
  ⟨rfl, rfl, rfl, rfl, rfl, evs, htrace, rfl, hsilent⟩

/-- A whole operation that uses up the next arrival of the reset input is cut short by it: every other
end leaves that arrival in the list, counted down. -/
theorem Whole.cutByReset {m : Act Unit} (h : Whole m) {s : State} {n : Nat} {rest : List Nat}
    (hs : s.resets = n :: rest) (hused : (settle m s).resets = rest) : CutByReset s (settle m s) n := by
  have hleft : ¬ ∃ k, (settle m s).resets = k :: rest := by simp [hused]
  rcases settle_cases h s with ⟨_, _, _, _, _, hcount⟩ | ⟨_, _, _, _, _, hcount⟩ |
    ⟨c, u, evs, k, hset⟩ | ⟨u, evs, k, hset⟩
  · exact absurd (hcount n rest hs) hleft
  · exact absurd (hcount n rest hs) hleft
  · rw [hset, transportAbort_resets] at hleft
    exact absurd (k.counted c rfl n rest hs) hleft
  · obtain ⟨_, hlen, -⟩ := k.reset rfl
    obtain ⟨rfl, -⟩ := List.cons.inj (hs.symm.trans hlen)
    exact hset ▸ cutByReset_blockReset k.trace k.silent

theorem exec_cutByReset {i : Instr} {s t : State} {n : Nat} {rest : List Nat}
    (hs : s.resets = n :: rest) (h : exec i s = .next t) (hused : t.resets = rest) :
    CutByReset s t n := by
  obtain ⟨-, m, hm, rfl⟩ := exec_whole h
  exact hm.cutByReset hs hused

/-- Settles O31: what an operation and a poll run is a whole operation (`Whole.cutByReset`), block reset
itself emits nothing, and waiting uses no arrival up. -/
theorem blockResetCutsOperationShort : Obligations.BlockResetCutsOperationShort := by
  rintro s t n rest hs (⟨i, h⟩ | h) hused
  · exact exec_cutByReset hs h hused
  · cases step_stepped h with
    | reset hr ht =>
      obtain rfl : n = 0 := by simpa [hs] using hr
      exact ht ▸ cutByReset_blockReset (evs := []) (by simp) (by simp)
    | poll w _ _ ht =>
      subst ht
      exact (pollOnce_whole w).cutByReset (s := { s with pending := none }) hs hused
    | accept r more _ _ _ ht =>
      exact exec_cutByReset (s := acceptRequest r more s) hs ht hused
    | wait _ _ _ ht => simp [← hused, ht] at hs

end Sys2Proof.Machine
end

section
/-! Encodings: reading an operation back from its request (R88) and from its frame (R70 to R86). -/

namespace Sys2Proof.Machine

/-- Settles O1: by `decodeRequest_encodeRequest`; of the ranges `wellFormed` checks, only that of a
reserved OPSEL matters. -/
theorem hostPortRoundTrip : Obligations.HostPortRoundTrip := by
  intro p i hw
  refine decodeRequest_encodeRequest ?_
  rintro o rfl
  exact of_decide_eq_true hw

/-! ### Operand ranges as bounds on the address fields -/

theorem page_lt_of_pageInRange {page : Half} (h : pageInRange page = true) : page.toNat < 4096 :=
  of_decide_eq_true h

/-- Both page sizes fit the 10 bits of an offset (R41, R76). -/
theorem offset_lt_of_offsetInRange {p : Params} {offset : Half} (h : offsetInRange p offset = true) :
    offset.toNat < 1024 := by
  have hsize : offset.toNat < p.pageSize.bytes := of_decide_eq_true h
  cases hz : p.pageSize <;> simp only [hz, PageSize.bytes] at hsize <;> omega

/-! ### Reading an address back -/

/-- The three bytes of a page-and-offset address and the number they are (R76). -/
theorem addrPO_bytes {page offset : Nat} (hp : page < 4096) (ho : offset < 1024) :
    ∃ b0 b1 b2, addrPO page offset = [b0, b1, b2] ∧ addr24 b0 b1 b2 = page * 1024 + offset :=
  ⟨_, _, _, rfl, addr24_addrPO hp ho⟩

/-- In that number the bits above the page are zero, and the fields are the page and the offset. -/
theorem addressFields {page offset : Nat} (hp : page < 4096) (ho : offset < 1024) :
    (page * 1024 + offset) >>> 22 = 0 ∧ pageField (page * 1024 + offset) = page ∧
      offsetField (page * 1024 + offset) = offset := by
  simp only [pageField, offsetField, Nat.shiftRight_eq_div_pow]
  omega

theorem pageAndOffset_of_addr24 (mk : Half → Half → Instr) {page offset : Half} {b0 b1 b2 : Byte}
    (hp : page.toNat < 4096) (ho : offset.toNat < 1024)
    (h : addr24 b0 b1 b2 = page.toNat * 1024 + offset.toNat) :
    pageAndOffset mk b0 b1 b2 = .ok (mk page offset) := by
  obtain ⟨hpad, hpage, hoffset⟩ := addressFields hp ho
  simp [pageAndOffset, h, hpad, hpage, hoffset]

theorem pageOnly_addrP (mk : Half → Instr) {page : Half} (hp : page.toNat < 4096) :
    pageOnly mk (addrP page.toNat) = .ok (mk page) := by
  obtain ⟨b0, b1, b2, hbytes, h⟩ := addrPO_bytes hp (Nat.zero_lt_succ _)
  obtain ⟨hpad, hpage, hoffset⟩ := addressFields hp (Nat.zero_lt_succ _)
  simp only [addrP, hbytes, pageOnly, h, hpad, hpage, hoffset, and_self, if_true, BitVec.ofNat_toNat,
    BitVec.setWidth_eq]

theorem offsetOnly_addrO (mk : Half → Instr) {offset : Half} (ho : offset.toNat < 1024) :
    offsetOnly mk (addrO offset.toNat) = .ok (mk offset) := by
  obtain ⟨b0, b1, b2, hbytes, h⟩ := addrPO_bytes (page := 0) (Nat.zero_lt_succ _) ho
  have hpad : offset.toNat >>> 10 = 0 := Nat.shiftRight_eq_zero _ _ ho
  rw [Nat.zero_mul, Nat.zero_add] at h
  simp [addrO, hbytes, offsetOnly, h, hpad, offsetField, Nat.mod_eq_of_lt ho]

/-- A block's address is that of its first page (`addrB_eq_addrP`), whose bits above bit 12 are the block
(R79). -/
theorem blockAddress_addrB {block : Half} (hb : block.toNat < 512) :
    blockAddress (addrB block.toNat) = .ok (.blockErase block) := by
  obtain ⟨b0, b1, b2, hbytes, h⟩ :=
    addrPO_bytes (page := 8 * block.toNat) (by omega) (Nat.zero_lt_succ _)
  have hpad : addr24 b0 b1 b2 >>> 22 = 0 ∧ addr24 b0 b1 b2 % 8192 = 0 := by
    rw [h, Nat.shiftRight_eq_div_pow]
    omega
  have hblock : addr24 b0 b1 b2 >>> 13 = block.toNat := by
    rw [h, Nat.shiftRight_eq_div_pow]
    omega
  simp [addrB_eq_addrP, addrP, hbytes, blockAddress, hpad, hblock]

/-- In the normal layout byte0 is twice the sector, and no sector of that layout sends 0, 0x14 or 0x16
there (R80, `sectorAddressLayouts`). -/
theorem sectorAddress_normal {sector : Nat} (hlo : 1 ≤ sector) (hhi : sector ≤ 15)
    (h : ¬(sector = 10 ∨ sector = 11)) :
    sectorAddress (addrS sector) = .ok (.sectorErase (BitVec.ofNat 16 sector)) := by
  have hbyte : (trunc8 (sector * 2)).toNat = sector * 2 := Nat.mod_eq_of_lt (by omega)
  have hzero : trunc8 (sector * 2) ≠ 0 := fun h0 => by
    have hsector := eq_of_trunc8_double (n := 0) (by omega) (by decide) h0
    omega
  have hpad : ¬((0 : Byte) ≠ 0 ∨ sector * 2 % 2 ≠ 0 ∨ 32 ≤ sector * 2) :=
    not_or.2 ⟨not_not.2 rfl, by omega⟩
  have hspecial := not_or.2 ((sectorAddressLayouts sector hlo hhi).2 _ _ _ (addrS_normal h))
  have hhalf : (sector * 2) >>> 1 = sector := by
    rw [Nat.shiftRight_eq_div_pow]
    omega
  rw [addrS_normal h, sectorAddress, if_neg (not_not.2 rfl), if_neg hzero, hbyte, if_neg hpad,
    if_neg hspecial, hhalf]

/-- The special layout holds 10 and 11, told apart by bit 4 of byte1 (R80). -/
theorem sectorAddress_addrS {sector : Half} (hlo : 1 ≤ sector.toNat) (hhi : sector.toNat ≤ 15) :
    sectorAddress (addrS sector.toNat) = .ok (.sectorErase sector) := by
  by_cases h : sector.toNat = 10 ∨ sector.toNat = 11
  · obtain rfl | rfl : sector = 10 ∨ sector = 11 :=
      h.imp (BitVec.eq_of_toNat_eq ·) (BitVec.eq_of_toNat_eq ·)
    · rfl
    · rfl
  · rw [sectorAddress_normal hlo hhi h, BitVec.ofNat_toNat, BitVec.setWidth_eq]

/-! ### Reading a frame back -/

/-- A listener who reads a command's opcode reads the rest as that command's (R74). -/
theorem decodeFrame_opcode {p : Params} (hl : p.Legal) (k : Command) (rest : List Byte) :
    decodeFrame p (p.opcode k :: rest) = decodeAfterOpcode p (p.opcode k) rest k := by
  rw [decodeFrame, Params.commandOf_opcode hl]

/-- OP_CHIP_ERASE is read as CHIP_ERASE, whatever its length (R86). -/
theorem decodeFrame_chipErase {p : Params} (hl : p.Legal) :
    decodeFrame p p.opChipErase = .ok .chipErase := by
  obtain ⟨op, rest, hop⟩ := List.exists_cons_of_ne_nil hl.1
  have hfirst : p.opcode .chipErase = op := by rw [Params.opcode, hop, List.headD_cons]
  rw [hop, ← hfirst, decodeFrame_opcode hl, decodeAfterOpcode, if_pos (by rw [hfirst, hop])]

/-- Settles O3: the opcode names the operation (`decodeFrame_opcode`), and each kind of address is read
back by its own decoder. -/
theorem busFrameRoundTrip : Obligations.BusFrameRoundTrip := by
  intro p i hl hw hi
  cases i with
  | init | release | streamXfer | endStream | waitReady | hardReset | reserved => cases hi
  | statusRead | idRead | deepPowerDown | resume => exact decodeFrame_opcode hl _ _
  | bufWrite | bufRead =>
    exact (decodeFrame_opcode hl _ _).trans (offsetOnly_addrO _ (offset_lt_of_offsetInRange hw))
  | pageRead | contReadLow | contReadHigh =>
    obtain ⟨hpage, hoffset⟩ := Bool.and_eq_true_iff.1 hw
    have hp := page_lt_of_pageInRange hpage
    have ho := offset_lt_of_offsetInRange hoffset
    exact (decodeFrame_opcode hl _ _).trans (pageAndOffset_of_addr24 _ hp ho (addr24_addrPO hp ho))
  | bufToPageE | bufToPageNE | pageErase =>
    exact (decodeFrame_opcode hl _ _).trans (pageOnly_addrP _ (page_lt_of_pageInRange hw))
  | pageToBuf page buf =>
    exact (decodeFrame_opcode hl _ _).trans
      (pageOnly_addrP (fun page => .pageToBuf page buf) (page_lt_of_pageInRange hw))
  | compare page buf =>
    exact (decodeFrame_opcode hl _ _).trans
      (pageOnly_addrP (fun page => .compare page buf) (page_lt_of_pageInRange hw))
  | blockErase =>
    exact (decodeFrame_opcode hl _ _).trans (blockAddress_addrB (of_decide_eq_true hw))
  | sectorErase =>
    obtain ⟨hlo, hhi⟩ := Bool.and_eq_true_iff.1 hw
    exact (decodeFrame_opcode hl _ _).trans
      (sectorAddress_addrS (of_decide_eq_true hlo) (of_decide_eq_true hhi))
  | chipErase => exact decodeFrame_chipErase hl

end Sys2Proof.Machine
end

section
/-! The synchroniser on a busy chip in a quiet state (R123, R160), and the invariant at block reset. -/

namespace Sys2Proof.Machine

/-! ### Busy at the first status byte -/

/-- COMPARE alone reads status once more after its synchroniser (R170). -/
theorem triggerWaiter_compare {i : Instr} {w : Waiter} (hi : triggerWaiter i = some w) :
    w = .compare ↔ ∃ page buf, i = .compare page buf := by
  cases i <;> cases hi <;> simp

/-- `exec_triggered` with the waiter named: COMPARE's own, or DONE's for every other operation. -/
theorem exec_triggered_waiter {s : State} {i : Instr} (hi : usesSynchroniser i = true)
    (hne : i ≠ .waitReady) (hen : i = .chipErase → s.cfg.getLsbD 0 = true) :
    ∃ w, (w = .compare ↔ ∃ page buf, i = .compare page buf) ∧
      exec i s = accepted i (triggered (busFrame s.params i) w) s := by
  cases i with
  | bufToPageE | bufToPageNE | pageToBuf | compare | pageErase | blockErase | sectorErase =>
    exact ⟨_, triggerWaiter_compare rfl, exec_of_triggerWaiter rfl s⟩
  | chipErase => exact ⟨.done, by simp, exec_chipErase_enabled (hen rfl)⟩
  | waitReady => exact absurd rfl hne
  | _ => cases hi

/-- Settles O22: the operation is accepted, and its run ends in `triggered_busy`, that of WAIT_READY in
`waitReady_busy`. -/
theorem busyChipKeepsOperationInProgress : Obligations.BusyChipKeepsOperationInProgress := by
  rintro s i hq hs hw hi hen ds rfl hbusy
  have hm : misuse i s = none := misuse_command hs (legalFrom_of_usesSynchroniser hi) hw
  by_cases hne : i = .waitReady
  · subst hne
    exact ⟨.done, by simp, accepted_ok hm (waitReady_busy hq .done hbusy)⟩
  · rw [if_neg hne] at hbusy ⊢
    obtain ⟨w, hwaiter, hexec⟩ := exec_triggered_waiter hi hne hen
    exact ⟨w, hwaiter, hexec.trans (accepted_ok hm (triggered_busy hq _ w hbusy))⟩

/-! ### Later status bytes -/

/-- The byte of a status transaction that comes last is the last heard. -/
theorem State.lastHeard_statusDrives (s : State) (ds : List Drive) :
    s.lastHeard (ds ++ statusDrives s.params) = (s.after ds).lastHeard (statusDrives s.params) :=
  State.lastHeard_append s ds _ (State.heard_nextPoll _ s.params false rfl)

/-- Settles O23: a busy byte by `InWait.step_busy`, a ready one by `InWait.step_ready`, after which
COMPARE hears the byte of its own status transaction last. -/
theorem pendingOperationPollsOnce : Obligations.PendingOperationPollsOnce := by
  rintro s w hq hp hf hcs ds rfl
  have h : InWait w s := ⟨hq, hp, hf, hcs⟩
  refine ⟨h.step_busy, ?_, ?_⟩
  · rintro hready rfl
    rw [h.step_ready hready, afterDrives, List.append_nil]
    rfl
  · rintro hready rfl es rfl
    rw [h.step_ready hready, State.lastHeard_statusDrives]
    rfl

/-! ### Block reset -/

/-- Settles O46: nothing is in progress in UNINIT, and with PINS_EN 0 nothing is said of the pins. -/
theorem resetMeetsTheInvariant : Obligations.ResetMeetsTheInvariant := fun _ _ he =>
  ⟨he, by simp [State.resetWith], fun _ => State.linked_uninit rfl rfl (by simp [State.resetWith])⟩

end Sys2Proof.Machine
end
